-- ==== Sys2Proof/Word.lean ====
section
/-! DEFINITION. The widths of TDES-CORE: the register word, the byte, and the bit-string types that flow
between the cipher's components (00_scope.md rules R5, R8, R10; 40_bit_addressing.md rule R104). -/

namespace Sys2Proof

/-- A 32-bit host register or command word, bit 0 least significant (R10). -/
abbrev Word := BitVec 32

/-- One byte of a KEY, IN or OUT buffer (R32). -/
abbrev Byte := BitVec 8

/-- A 64-bit block, bit 1 of the spec being the most significant (R5, R8). -/
abbrev Block := BitVec 64

/-- A 32-bit left or right half of a block (R5). -/
abbrev HalfBlock := BitVec 32

/-- A 48-bit round subkey (R5). -/
abbrev Subkey := BitVec 48

/-- A 64-bit single-DES key, parity bits included (R5). -/
abbrev RawKey := BitVec 64

/-- A 192-bit key `K1 ‖ K2 ‖ K3` (R5). -/
abbrev TripleKey := BitVec 192

/-- A 28-bit half C or D of the key schedule (R5). -/
abbrev KeyHalf := BitVec 28

end Sys2Proof
end

