-- ==== Sys2Proof/Config.lean ====
section
/-! DEFINITION. What one implementation of TDES-CORE fixes: the two buffer capacities and the unpadding policy
(00_scope.md rules R6, R7), and the one value the spec leaves without any statement, the content of a host
temporary that the host script has not assigned. -/

namespace Sys2Proof

/-- Whether unpadding validates the padding (R7): `faithful` is R191, `strict` is R192. -/
inductive UnpadPolicy where
  | faithful
  | strict
  deriving DecidableEq, Repr

/-- The named parameters of the model (R6, R7). -/
structure Config where
  /-- `IN_CAP`, the capacity of the IN buffer in bytes. -/
  inCap : Nat
  /-- `OUT_CAP`, the capacity of the OUT buffer in bytes. -/
  outCap : Nat
  /-- `UNPAD_POLICY`. -/
  unpadPolicy : UnpadPolicy
  deriving DecidableEq, Repr

/-- The bounds R6 puts on the capacities: `8 ≤ IN_CAP ≤ 65536` and `max(IN_CAP + 8, 96) ≤ OUT_CAP ≤ 65536`. -/
abbrev Config.wf (c : Config) : Prop :=
  8 ≤ c.inCap ∧ c.inCap ≤ 65536 ∧ max (c.inCap + 8) 96 ≤ c.outCap ∧ c.outCap ≤ 65536

/-- The parameters `State.reset` takes. `UNPAD_POLICY` is the value R7 gives this hardware. The capacities are
open (92_eei_decisions.md D4): DESIGN CHOICE, unsafe, log entry 1: the largest pair R6 allows. -/
def Config.thisHardware : Config := { inCap := 65528, outCap := 65536, unpadPolicy := .faithful }

/-- FREE VALUE, log entry 4: what the host's script reads in a temporary it has not assigned. The spec gives the
host's temporaries no initial value (R78). -/
opaque Config.unsetTemporary : Nat → Word

end Sys2Proof
end

