-- ==== Sys2Proof/Syntax.lean ====
section
/-! DEFINITION. The ten commands of TDES-CORE, one constructor per row of spec/opcode_table.json
(30_encoding.md rule R71). -/

namespace Sys2Proof

/-- A command. `ksel` is the KSEL operand of R72: 0, 1, 2 select K1, K2, K3; 3 is ill-formed. -/
inductive Instr where
  /-- `nop`: complete with no output (R214). -/
  | nop
  /-- `encrypt`: pad, then Triple-DES-encrypt every block (R210). -/
  | encrypt
  /-- `decrypt`: Triple-DES-decrypt every block, then unpad (R211). -/
  | decrypt
  /-- `tdes.enc`: Triple-DES encryption of one block (R173). -/
  | tdesEnc
  /-- `tdes.dec`: Triple-DES decryption of one block (R174). -/
  | tdesDec
  /-- `des.enc kN`: single-DES encryption of one block under one RawKey (R156). -/
  | desEnc (ksel : BitVec 2)
  /-- `des.dec kN`: single-DES decryption of one block under one RawKey (R157). -/
  | desDec (ksel : BitVec 2)
  /-- `pad`: pad the input (R193). -/
  | pad
  /-- `unpad`: remove padding from the input (R194). -/
  | unpad
  /-- `keysched kN`: write the 16 subkeys of one RawKey to OUT (R117). -/
  | keysched (ksel : BitVec 2)
  deriving DecidableEq, Repr

/-- Why a command word is illegal (R73, R74, R75). The engine raises the same error for each (R235). -/
inductive IllegalWord where
  /-- A bit of `w[31:6]` is set (R73). -/
  | reservedBits
  /-- OP is 0xA to 0xF (R74). -/
  | reservedOp
  /-- KSEL is 3, or is not 0 for a command that takes no key select (R75). -/
  | badKeySelect
  deriving DecidableEq, Repr

end Sys2Proof
end

