-- ==== Sys2Proof/Machine/State.lean ====
section
/-! DEFINITION. The state of TDES-CORE (10_state.md), the reasons of its model faults (60_exceptions.md rule R243),
its engine errors (R231), and the two things beside the device that a step reads: the host's script and the order
in which the agents move. -/

namespace Sys2Proof.Machine

/-- Model faults (R243). Each stands in the state as `faultMark`; the step of a marked state answers it. Every one
is safe: the hardware does something there and the model gives it no value. -/
inductive Fault where
  /-- Raised by a host read of an unwritten IN or OUT byte and by an engine read of an unwritten KEY or IN byte (R32). Safe. -/
  | unwrittenRead
  /-- Raised by a host access to a reserved address (R54). Safe. -/
  | unmapped
  /-- Raised by a host access of the wrong width or not at a register's address (R52, R53). Safe. -/
  | badAccessWidth
  /-- Raised by a host write to STATUS, OUT_LEN or OUT (R54). Safe. -/
  | writeReadOnly
  /-- Raised by a host read of KEY (R54). Safe. -/
  | readWriteOnly
  /-- Raised by a host access other than a STATUS read while STATE = BUSY (R263). Safe. -/
  | busyAccess
  /-- Raised by `getBit` and `putBit` outside their buffer (R103); no command reaches it. Safe. -/
  | indexOutOfRange
  deriving DecidableEq, Repr

/-- The model refuses no command; the constructor is the interface's. -/
inductive Refusal where
  /-- Raised by an arm of `exec` whose command has no meaning yet: none. Safe. -/
  | notModelled (mnemonic : String)
  deriving DecidableEq, Repr

/-- The engine errors of R231; they are reported in STATUS.ERR and the machine works on. -/
inductive EngineError where
  | invalidKeyLength
  | invalidCiphertextLength
  | malformedPadding
  | illegalCommand
  | invalidBlockLength
  | capacityExceeded
  deriving DecidableEq, Repr

/-- A byte buffer as (index, byte) pairs, indices strictly rising; an index that is not listed is unwritten (R32). -/
abbrev Memory := List Host.Cell

/-- The width of a host access (R52, R53). -/
inductive Width where
  | w8
  | w16
  | w32
  deriving DecidableEq, Repr

/-- The datum of a host write: a literal or a host temporary (R78, program P2). -/
inductive HostValue where
  | literal (v : Word)
  | temporary (t : Nat)
  deriving DecidableEq, Repr

/-- One line of a host script (R78), with labels resolved to line numbers. -/
inductive HostOp where
  /-- `wr32 REG, v` and `wr8 BUF[i], v`, and every other write the host can put on the bus. -/
  | write (width : Width) (address : Nat) (value : HostValue)
  /-- `rd32 t, REG` and `rd8 t, BUF[i]`, and every other read. -/
  | read (width : Width) (t : Nat) (address : Nat)
  /-- `bne t[hi:lo], v, label`. -/
  | branchNotEqual (t hi lo v target : Nat)
  /-- `b label`. -/
  | branch (target : Nat)
  /-- `rd8 (t+i), address+i` for i = 0 .. n − 1, one read a turn, with n the content of the temporary `count`: the
  second half of `readout` (R79). -/
  | readBytes (count t address : Nat)
  deriving DecidableEq, Repr

/-- The host (R20): its script, the line it is at, the `i` of the counted reads of that line (R79), and its
temporaries. These belong to the host, not to TDES-CORE (R78). -/
structure HostAgent where
  script : List HostOp
  line : Nat
  index : Nat
  temporaries : List (Nat × Word)
  deriving DecidableEq, Repr

/-- Who moves in a step: one of the two agents (R20), or the reset input (R260). -/
inductive Turn where
  | host
  | engine
  | reset
  deriving DecidableEq, Repr

/-- The state: R21's inventory, then the model's own fields (the parameters of R6 and R7, the host, the interleaving). -/
structure State where
  /-- CMD (R22). -/
  cmd : Word
  /-- STATUS: STATE in `[1:0]`, ERR in `[7:4]` (R23, R24, R25). -/
  status : Word
  /-- KEY_LEN (R26). -/
  keyLen : Word
  /-- IN_LEN (R27). -/
  inLen : Word
  /-- OUT_LEN (R28). -/
  outLen : Word
  /-- KEY (R29). -/
  key : Memory
  /-- IN (R30). -/
  inBuf : Memory
  /-- OUT (R31). -/
  outBuf : Memory
  /-- `pending`, the engine's control bit (R60). -/
  pending : Bool
  /-- The fault mark (R243). -/
  faultMark : Option Fault
  /-- The model's own: IN_CAP, OUT_CAP and UNPAD_POLICY, which no step changes (R6, R7). -/
  cfg : Config
  /-- The model's own: the host agent (R20, R78). -/
  host : HostAgent
  /-- The model's own: who moves in the coming steps, soonest first (R61, R267). -/
  schedule : List Turn
  deriving DecidableEq, Repr

/-- What a step or the meaning of a command answers. -/
abbrev StepResult := Host.Outcome State Fault Refusal

/-- The state at power-on under the parameters `c` (R260, and the summary of 10_state.md section 6). -/
def State.powerOn (c : Config) : State :=
  { cmd := 0
    status := 0
    keyLen := 0
    inLen := 0
    outLen := 0
    key := []
    inBuf := []
    outBuf := []
    pending := false
    faultMark := none
    cfg := c
    host := { script := [], line := 0, index := 0, temporaries := [] }
    schedule := [] }

/-- The machine right after reset (R260). -/
def State.reset : State := State.powerOn Config.thisHardware

end Sys2Proof.Machine
end

