-- ==== Sys2Proof/Machine/BitString.lean ====
section
/-! DEFINITION. Bit addressing and the permutation engine (40_bit_addressing.md), on fixed-width bit-strings as R104
allows, and on byte buffers with the range check of R103 as R100 to R102 write them. Bit 1 is the most significant. -/

namespace Sys2Proof.Machine

section BitStrings
variable {n : Nat}

/-- `X{i}`, 1-based from the most significant bit (R8). The tables index it in range (R103). -/
def bit (X : BitVec n) (i : Nat) : Bool := X.getMsbD (i - 1)

/-- `X{a..a+len-1}` (R8). -/
def slice (X : BitVec n) (a len : Nat) : BitVec len := X.extractLsb' (n + 1 - (a + len)) len

/-- `permute(T, X)`: output bit i is input bit T[i] (R102). -/
def permute (len : Nat) (T : List Nat) (X : BitVec n) : BitVec len :=
  BitVec.ofNat len (T.foldl (fun acc t => 2 * acc + (bit X t).toNat) 0)

/-- `bits(S)` of a byte sequence of 8·n' bits: byte 0 is the most significant (R55, R56). -/
def ofBytes (n : Nat) (S : List Byte) : BitVec n :=
  BitVec.ofNat n (S.foldl (fun acc b => 256 * acc + b.toNat) 0)

/-- The first `count` bytes a bit-string fills, byte 0 first (R56). -/
def toBytes (count : Nat) (X : BitVec n) : List Byte :=
  (List.range count).map fun j => slice X (8 * j + 1) 8

end BitStrings

/-- The mask of bit `i` within its byte: `1 << (7 - ((i-1) mod 8))` (R101). -/
def bitMask (i : Nat) : Byte := 1 <<< (7 - (i - 1) % 8)

/-- `i` is a bit index of a byte sequence (R100, R101). -/
abbrev bitInRange (S : List Byte) (i : Nat) : Prop := 1 ≤ i ∧ i ≤ 8 * S.length

/-- `getBit(S, i)` (R100), with the model fault of R103. -/
def getBit (S : List Byte) (i : Nat) : Except Fault Bool :=
  if bitInRange S i then .ok ((S.getD ((i - 1) / 8) 0).getLsbD (7 - (i - 1) % 8)) else .error .indexOutOfRange

/-- `putBit(S, i, v)` (R101), with the model fault of R103. -/
def putBit (S : List Byte) (i : Nat) (v : Bool) : Except Fault (List Byte) :=
  if bitInRange S i then
    let k := (i - 1) / 8
    .ok (S.set k (if v then S.getD k 0 ||| bitMask i else S.getD k 0 &&& ~~~bitMask i))
  else .error .indexOutOfRange

/-- The loop of the buffer form of `permute`: the entries `T` fill `Y` from bit `i` on (R102). -/
def permuteLoop (X : List Byte) : List Nat → Nat → List Byte → Except Fault (List Byte)
  | [], _, Y => .ok Y
  | t :: T, i, Y =>
    match getBit X t with
    | .error r => .error r
    | .ok v =>
      match putBit Y i v with
      | .error r => .error r
      | .ok Y' => permuteLoop X T (i + 1) Y'

/-- `permute(T, X)` in buffer form: `ceil(n/8)` bytes, the fill bits 0 (R102). -/
def permuteBuffer (T : List Nat) (X : List Byte) : Except Fault (List Byte) :=
  permuteLoop X T 1 (List.replicate ((T.length + 7) / 8) 0)

end Sys2Proof.Machine
end

