-- ==== Sys2Proof/WellFormed.lean ====
section
/-! DEFINITION. The one check on a command term: KSEL = 3 selects no RawKey (30_encoding.md rules R72, R75). -/

namespace Sys2Proof

/-- KSEL names one of K1, K2, K3 (R72). -/
def keySelectLegal (ksel : BitVec 2) : Bool := ksel.toNat ≤ 2

/-- A command term the encoding admits. -/
def Instr.wf : Instr → Bool
  | .nop => true
  | .encrypt => true
  | .decrypt => true
  | .tdesEnc => true
  | .tdesDec => true
  | .desEnc ksel => keySelectLegal ksel
  | .desDec ksel => keySelectLegal ksel
  | .pad => true
  | .unpad => true
  | .keysched ksel => keySelectLegal ksel

end Sys2Proof
end

