-- ==== Sys2Proof/Decode.lean ====
section
/-! DEFINITION. The command word: register fields, decoding, encoding and the written form of a command
(00_scope.md rule R10; 30_encoding.md rules R70 to R77). -/

namespace Sys2Proof

/-- `w[hi:lo]`: bits hi down to lo of a 32-bit word as a natural number (R10). -/
def bitField (w : Word) (hi lo : Nat) : Nat := (w.toNat >>> lo) % 2 ^ (hi + 1 - lo)

/-- A command that takes no key select: KSEL must be 0 (R75). -/
def decodePlain (ksel : Nat) (i : Instr) : Except IllegalWord Instr :=
  if ksel = 0 then .ok i else .error .badKeySelect

/-- A command with a key select: KSEL must be 0, 1 or 2 (R75). -/
def decodeKeyed (ksel : Nat) (i : BitVec 2 → Instr) : Except IllegalWord Instr :=
  if ksel ≤ 2 then .ok (i (BitVec.ofNat 2 ksel)) else .error .badKeySelect

/-- `decode` of R76, total on every 32-bit word; an illegal word is rejected by the rule it breaks. -/
def decode (w : Word) : Except IllegalWord Instr :=
  if bitField w 31 6 ≠ 0 then .error .reservedBits
  else
    let ksel := bitField w 5 4
    match bitField w 3 0 with
    | 0x0 => decodePlain ksel .nop
    | 0x1 => decodePlain ksel .encrypt
    | 0x2 => decodePlain ksel .decrypt
    | 0x3 => decodePlain ksel .tdesEnc
    | 0x4 => decodePlain ksel .tdesDec
    | 0x5 => decodeKeyed ksel .desEnc
    | 0x6 => decodeKeyed ksel .desDec
    | 0x7 => decodePlain ksel .pad
    | 0x8 => decodePlain ksel .unpad
    | 0x9 => decodeKeyed ksel .keysched
    | _ => .error .reservedOp

/-- The OP code of a command (R71). -/
def opCode : Instr → Word
  | .nop => 0x0
  | .encrypt => 0x1
  | .decrypt => 0x2
  | .tdesEnc => 0x3
  | .tdesDec => 0x4
  | .desEnc _ => 0x5
  | .desDec _ => 0x6
  | .pad => 0x7
  | .unpad => 0x8
  | .keysched _ => 0x9

/-- The KSEL field of a command, 0 where it has none (R72). -/
def keySelectOf : Instr → BitVec 2
  | .nop => 0
  | .encrypt => 0
  | .decrypt => 0
  | .tdesEnc => 0
  | .tdesDec => 0
  | .desEnc ksel => ksel
  | .desDec ksel => ksel
  | .pad => 0
  | .unpad => 0
  | .keysched ksel => ksel

/-- The encoding of a written command, `OP | (KSEL << 4)` (R77). -/
def encode (i : Instr) : Word := opCode i ||| ((keySelectOf i).setWidth 32 <<< 4)

/-- The mnemonic of a command (R71, R77). -/
def mnemonicOf : Instr → String
  | .nop => "nop"
  | .encrypt => "encrypt"
  | .decrypt => "decrypt"
  | .tdesEnc => "tdes.enc"
  | .tdesDec => "tdes.dec"
  | .desEnc _ => "des.enc"
  | .desDec _ => "des.dec"
  | .pad => "pad"
  | .unpad => "unpad"
  | .keysched _ => "keysched"

/-- The operand `k1`, `k2`, `k3` as it is written after the mnemonic (R77). -/
def writtenKey (ksel : BitVec 2) : String :=
  if ksel = 0 then " k1" else if ksel = 1 then " k2" else if ksel = 2 then " k3" else " k?"

/-- A command as it is written (R77). -/
def writtenForm : Instr → String
  | .desEnc ksel => mnemonicOf (.desEnc ksel) ++ writtenKey ksel
  | .desDec ksel => mnemonicOf (.desDec ksel) ++ writtenKey ksel
  | .keysched ksel => mnemonicOf (.keysched ksel) ++ writtenKey ksel
  | .nop => mnemonicOf .nop
  | .encrypt => mnemonicOf .encrypt
  | .decrypt => mnemonicOf .decrypt
  | .tdesEnc => mnemonicOf .tdesEnc
  | .tdesDec => mnemonicOf .tdesDec
  | .pad => mnemonicOf .pad
  | .unpad => mnemonicOf .unpad

/-- The sixteen legal commands, in the order in which R76 lists their words. -/
def legalCommands : List Instr :=
  [.nop, .encrypt, .decrypt, .tdesEnc, .tdesDec, .pad, .unpad,
   .desEnc 0, .desEnc 1, .desEnc 2, .desDec 0, .desDec 1, .desDec 2,
   .keysched 0, .keysched 1, .keysched 2]

/-- The word of a written command, if the text is one (R77). -/
def assemble (text : String) : Option Word :=
  (legalCommands.find? fun i => writtenForm i == text).map encode

/-- The command read from a row of the opcode table: `w` holds the row's bits with bit 0 least significant, and
every bit above `nbits` is 0. The command word is one whole 32-bit register word, so no byte order arises (R52). -/
def decodeTableWord (nbits w : Nat) : Option Instr :=
  let v := w % 2 ^ nbits
  if v < 2 ^ 32 then
    match decode (BitVec.ofNat 32 v) with
    | .ok i => some i
    | .error _ => none
  else none

end Sys2Proof
end

