-- ==== Sys2Proof/Machine/Flags.lean ====
section
/-! DEFINITION. The STATUS word: the only flags of TDES-CORE (10_state.md rules R23 to R25; 60_exceptions.md
rules R231, R240, R241). -/

namespace Sys2Proof.Machine

/-- The numeric code of an engine error (R231). -/
def EngineError.code : EngineError → Nat
  | .invalidKeyLength => 1
  | .invalidCiphertextLength => 2
  | .malformedPadding => 3
  | .illegalCommand => 4
  | .invalidBlockLength => 5
  | .capacityExceeded => 6

/-- STATUS after reset: STATE = IDLE, ERR = NONE (R25). -/
def statusIdle : Word := 0

/-- STATUS after a CMD write: `zext_32(1)`, STATE = BUSY, ERR = NONE (R60). -/
def statusBusy : Word := 1

/-- STATUS after a successful command: `zext_32(2)`, STATE = DONE, ERR = NONE (R240). -/
def statusDone : Word := 2

/-- STATUS after an engine error of code c: `zext_32(3 | (c << 4))`, STATE = ERROR, ERR = c (R241). -/
def statusError (e : EngineError) : Word := BitVec.ofNat 32 (3 ||| (e.code <<< 4))

/-- STATUS.STATE, `STATUS[1:0]` (R23). -/
def stateField (status : Word) : Nat := bitField status 1 0

/-- STATUS.ERR, `STATUS[7:4]` (R24). -/
def errField (status : Word) : Nat := bitField status 7 4

/-- STATE = BUSY (R23, R263). -/
def isBusy (s : State) : Bool := stateField s.status == 1

end Sys2Proof.Machine
end

