-- ==== Sys2Proof/Machine/Ops.lean ====
section
/-! DEFINITION. The shared operations: byte buffers (20_memory.md rule R53), starting a command (R60), completing it with
an output or an engine error (60_exceptions.md rules R240, R241), the model fault (R243) and the reset input
(70_reset_and_hazards.md rules R260, R261). -/

namespace Sys2Proof.Machine

section Buffers
variable {α : Type}

/-- `MemRead`: the value at an index, `none` where the index is unwritten (R32). -/
def Memory.read : List (Nat × α) → Nat → Option α
  | [], _ => none
  | (k, v) :: m, a => if a = k then some v else Memory.read m a

/-- `MemWrite`: the index holds the value and every other index what it held (R53). -/
def Memory.write : List (Nat × α) → Nat → α → List (Nat × α)
  | [], a, v => [(a, v)]
  | (k, u) :: m, a, v =>
    if a < k then (a, v) :: (k, u) :: m
    else if a = k then (a, v) :: m
    else (k, u) :: Memory.write m a v

/-- The canonical form: indices strictly rising. An unlisted index is unwritten, so no listed entry equals it. -/
abbrev Memory.wf (m : List (Nat × α)) : Prop := m.Pairwise fun p q => p.1 < q.1

/-- Every listed index lies below the buffer's capacity. -/
abbrev Memory.within (m : List (Nat × α)) (cap : Nat) : Prop := ∀ p ∈ m, p.1 < cap

/-- The values at `a, …, a + n - 1`, `none` if one of them is unwritten. -/
def Memory.readRange (m : List (Nat × α)) : Nat → Nat → Option (List α)
  | _, 0 => some []
  | a, n + 1 =>
    match Memory.read m a with
    | none => none
    | some v => (Memory.readRange m (a + 1) n).map (v :: ·)

/-- Writes the values of a list at `a, a + 1, …`. -/
def Memory.writeRange : List (Nat × α) → Nat → List α → List (Nat × α)
  | m, _, [] => m
  | m, a, v :: vs => Memory.writeRange (Memory.write m a v) (a + 1) vs

end Buffers

/-- The CMD write of R60: the command is stored, STATE becomes BUSY, and the previous output is invalidated. It is
also the return from an engine error (R242). -/
def startCommand (w : Word) (s : State) : State :=
  { s with cmd := w, status := statusBusy, outLen := 0, outBuf := [], pending := true }

/-- The state after a successful command with the output bytes `S` (R240). -/
def afterSuccess (S : List Byte) (s : State) : State :=
  { s with
    outBuf := Memory.writeRange s.outBuf 0 S
    outLen := BitVec.ofNat 32 S.length
    status := statusDone
    pending := false }

/-- The state after an engine error (R241). -/
def afterError (e : EngineError) (s : State) : State :=
  { s with outLen := 0, status := statusError e, pending := false }

/-- The state after a model fault: its mark is set (R243). Nothing else changes (DEDUCED, log entry 6), and the step
of a marked state answers the fault. -/
def afterFault (r : Fault) (s : State) : State := { s with faultMark := some r }

/-- `return S` (R240). -/
def succeed (S : List Byte) (s : State) : StepResult := .next (afterSuccess S s)

/-- `raise E(code)`: completion with an engine error, the only trap entry of TDES-CORE (R241). -/
def raise (e : EngineError) (s : State) : StepResult := .next (afterError e s)

/-- `fault(reason)` (R243). -/
def modelFault (r : Fault) (s : State) : StepResult := .next (afterFault r s)

/-- Completion of a command whose computation returns an output or raises an engine error (R230). -/
def complete (result : Except EngineError (List Byte)) (s : State) : StepResult :=
  match result with
  | .ok S => succeed S s
  | .error e => raise e s

/-- The reset input (R260), which also abandons a command in flight (R261). The fault mark stays (R243). The host, the
parameters and the interleaving are not the device's and stay (DESIGN CHOICE, log entry 7). -/
def resetInput (s : State) : State :=
  { s with
    cmd := 0
    status := statusIdle
    keyLen := 0
    inLen := 0
    outLen := 0
    key := []
    inBuf := []
    outBuf := []
    pending := false }

end Sys2Proof.Machine
end

