-- ==== Sys2Proof/Machine/Operands.lean ====
section
/-! DEFINITION. The operands of the commands and the checks made before they are read, in the order of
60_exceptions.md rule R239. Each takes what the command does next as its last argument. -/

namespace Sys2Proof.Machine

/-- The RawKey selected by KSEL, `KEY[8·KSEL .. 8·KSEL + 8)`; `none` if one of its bytes is unwritten (R72). -/
def rawKeyOf (s : State) (ksel : BitVec 2) : Option RawKey :=
  (Memory.readRange s.key (8 * ksel.toNat) 8).map (ofBytes 64)

/-- The TripleKey `KEY[0..24)`; `none` if one of its bytes is unwritten (R29). -/
def tripleKeyOf (s : State) : Option TripleKey := (Memory.readRange s.key 0 24).map (ofBytes 192)

/-- The one input block `IN[0..8)`; `none` if one of its bytes is unwritten (R57). -/
def blockOf (s : State) : Option Block := (Memory.readRange s.inBuf 0 8).map (ofBytes 64)

/-- The input `IN[0..IN_LEN)`; `none` if one of its bytes is unwritten (R30). -/
def inputOf (s : State) : Option (List Byte) := Memory.readRange s.inBuf 0 s.inLen.toNat

/-- KSEL = 3 raises IllegalCommand (R75, R235). The decoder never yields it (R76). -/
def requireKeySelect (ksel : BitVec 2) (s : State) (next : StepResult) : StepResult :=
  if keySelectLegal ksel then next else raise .illegalCommand s

/-- KEY_LEN ≠ 24 raises InvalidKeyLength (R232). -/
def requireKeyLength (s : State) (next : StepResult) : StepResult :=
  if s.keyLen = 24 then next else raise .invalidKeyLength s

/-- IN_LEN > IN_CAP raises CapacityExceeded (R237). -/
def requireInputFits (s : State) (next : StepResult) : StepResult :=
  if s.inLen.toNat ≤ s.cfg.inCap then next else raise .capacityExceeded s

/-- IN_LEN ≠ 8 raises InvalidBlockLength (R236). -/
def requireOneBlock (s : State) (next : StepResult) : StepResult :=
  if s.inLen = 8 then next else raise .invalidBlockLength s

/-- IN_LEN = 0 or IN_LEN mod 8 ≠ 0 raises InvalidCiphertextLength (R233). -/
def requireWholeBlocks (s : State) (next : StepResult) : StepResult :=
  if s.inLen.toNat = 0 ∨ s.inLen.toNat % 8 ≠ 0 then raise .invalidCiphertextLength s else next

/-- IN_LEN = 0 raises MalformedPadding for `unpad` (R194, R234). -/
def requireLastByte (s : State) (next : StepResult) : StepResult :=
  if s.inLen.toNat = 0 then raise .malformedPadding s else next

/-- An operand read: an unwritten byte is the model fault `UnwrittenRead` (R32, R239 step 5). -/
def withOperand {α : Type} (operand : Option α) (s : State) (next : α → StepResult) : StepResult :=
  match operand with
  | some v => next v
  | none => modelFault .unwrittenRead s

end Sys2Proof.Machine
end

