-- ==== Sys2Proof/Machine/Padding.lean ====
section
/-! DEFINITION. The padding and unpadding controller and the commands `pad` and `unpad` (45_padding.md). -/

namespace Sys2Proof.Machine

/-- The number of padding bytes of a sequence of `n` bytes, 1 to 8 (R190). -/
def padCount (n : Nat) : Nat := 8 - n % 8

/-- `pad(D)` (R190). -/
def padBytes (D : List Byte) : List Byte :=
  D ++ List.replicate (padCount D.length) (BitVec.ofNat 8 (padCount D.length))

/-- The last byte of a sequence as a number, the `rem` of R191 and R192. The commands never take it of an empty
sequence (R194, R211). -/
def lastByteValue (D : List Byte) : Nat := (D.getLastD 0).toNat

/-- `unpadFaithful(D)` (R191). -/
def unpadFaithful (D : List Byte) : Except EngineError (List Byte) :=
  let rem := lastByteValue D
  if D.length < rem then .error .malformedPadding else .ok (D.take (D.length - rem))

/-- `unpadStrict(D)` (R192). -/
def unpadStrict (D : List Byte) : Except EngineError (List Byte) :=
  let rem := lastByteValue D
  if rem < 1 ∨ 8 < rem ∨ D.length < rem then .error .malformedPadding
  else if (D.drop (D.length - rem)).all (fun b => b.toNat == rem) then .ok (D.take (D.length - rem))
  else .error .malformedPadding

/-- The unpad function of the active UNPAD_POLICY (R194, R234). -/
def unpadBytes (policy : UnpadPolicy) (D : List Byte) : Except EngineError (List Byte) :=
  match policy with
  | .faithful => unpadFaithful D
  | .strict => unpadStrict D

/-- `pad` (R193). -/
def execPad (s : State) : StepResult :=
  requireInputFits s <|
  withOperand (inputOf s) s fun D =>
  succeed (padBytes D) s

/-- `unpad` (R194). -/
def execUnpad (s : State) : StepResult :=
  requireInputFits s <|
  requireLastByte s <|
  withOperand (inputOf s) s fun D =>
  complete (unpadBytes s.cfg.unpadPolicy D) s

end Sys2Proof.Machine
end

