-- ==== Sys2Proof/Machine/KeySchedule.lean ====
section
/-! DEFINITION. The key schedule and the command `keysched` (41_key_schedule.md). -/

namespace Sys2Proof.Machine

/-- `rotl28(X, s)`: circular left rotation of a 28-bit half (R112). -/
def rotl28 (X : KeyHalf) (s : Nat) : KeyHalf := X.rotateLeft s

/-- The rounds of the key schedule from the halves `C[r-1]` and `D[r-1]` on, one per rotation amount (R115). -/
def keyRounds : List Nat → KeyHalf → KeyHalf → List Subkey
  | [], _, _ => []
  | s :: ss, C, D =>
    let C' := rotl28 C s
    let D' := rotl28 D s
    permute 48 tablePC2 (C' ++ D') :: keyRounds ss C' D'

/-- `keySchedule(K)`: the subkeys KS[1] to KS[16] in order (R115). -/
def keySchedule (K : RawKey) : List Subkey :=
  keyRounds shifts (permute 28 tablePC1C K) (permute 28 tablePC1D K)

/-- The output of `keysched`: `KS[1] ‖ … ‖ KS[16]`, six bytes each (R117). -/
def subkeyBytes (KS : List Subkey) : List Byte := KS.flatMap (toBytes 6)

/-- `keysched kN` (R117). -/
def execKeysched (ksel : BitVec 2) (s : State) : StepResult :=
  requireKeySelect ksel s <|
  requireKeyLength s <|
  withOperand (rawKeyOf s ksel) s fun K =>
  succeed (subkeyBytes (keySchedule K)) s

end Sys2Proof.Machine
end

