-- ==== Sys2Proof/Machine/RoundFunction.lean ====
section
/-! DEFINITION. The substitution boxes and the round function (42_round_function.md). -/

namespace Sys2Proof.Machine

/-- `SBOX[idx][row][col]` (R131 to R138). -/
def sboxEntry (idx row col : Nat) : Nat := ((sboxes.getD idx []).getD row []).getD col 0

/-- The row index of a 6-bit group, from its outer bits (R139). -/
def sBoxRow (X : BitVec 48) (idx : Nat) : Nat :=
  ((bit X (6 * idx + 1)).toNat <<< 1) ||| (bit X (6 * idx + 6)).toNat

/-- The column index of a 6-bit group, from its inner bits (R139). -/
def sBoxColumn (X : BitVec 48) (idx : Nat) : Nat :=
  ((bit X (6 * idx + 2)).toNat <<< 3) ||| ((bit X (6 * idx + 3)).toNat <<< 2) |||
    ((bit X (6 * idx + 4)).toNat <<< 1) ||| (bit X (6 * idx + 5)).toNat

/-- `sBox(X, idx)`: substitution of one 6-bit group (R139). -/
def sBox (X : BitVec 48) (idx : Nat) : BitVec 4 :=
  BitVec.ofNat 4 (sboxEntry idx (sBoxRow X idx) (sBoxColumn X idx))

/-- The eight substitutions, group 0 in the most significant nibble (R141). -/
def substitute (X : BitVec 48) : BitVec 32 :=
  sBox X 0 ++ sBox X 1 ++ sBox X 2 ++ sBox X 3 ++ sBox X 4 ++ sBox X 5 ++ sBox X 6 ++ sBox X 7

/-- `f(R, K)`: expand, mix the subkey, substitute, permute (R141). -/
def roundFunction (R : HalfBlock) (K : Subkey) : HalfBlock :=
  permute 32 tableP (substitute (permute 48 tableE R ^^^ K))

end Sys2Proof.Machine
end

