-- ==== Sys2Proof/Machine/BlockCipher.lean ====
section
/-! DEFINITION. The Feistel block cipher and the commands `des.enc` and `des.dec` (43_block_cipher.md). -/

namespace Sys2Proof.Machine

/-- One round: `(L, R) <- (R, L ⊕ f(R, K))`, both halves from the values before it (R153). -/
def feistelRound (LR : HalfBlock × HalfBlock) (K : Subkey) : HalfBlock × HalfBlock :=
  (LR.2, LR.1 ^^^ roundFunction LR.2 K)

/-- The two selections of the initial permutation, `(L0, R0)` (R150, R151). -/
def initialHalves (B : Block) : HalfBlock × HalfBlock := (permute 32 tableIPL B, permute 32 tableIPR B)

/-- The final permutation of `R16 ‖ L16`, the halves not swapped back (R152, R153). -/
def finalBlock (LR : HalfBlock × HalfBlock) : Block := permute 64 tableFP (LR.2 ++ LR.1)

/-- `encryptBlock(B, KS)` (R153). -/
def encryptBlock (B : Block) (KS : List Subkey) : Block := finalBlock (KS.foldl feistelRound (initialHalves B))

/-- `decryptBlock(B, KS)`: the same rounds, the subkeys from the last to the first (R154). -/
def decryptBlock (B : Block) (KS : List Subkey) : Block :=
  finalBlock (KS.reverse.foldl feistelRound (initialHalves B))

/-- `des.enc kN` (R156). -/
def execDesEnc (ksel : BitVec 2) (s : State) : StepResult :=
  requireKeySelect ksel s <|
  requireKeyLength s <|
  requireInputFits s <|
  requireOneBlock s <|
  withOperand (rawKeyOf s ksel) s fun K =>
  withOperand (blockOf s) s fun B =>
  succeed (toBytes 8 (encryptBlock B (keySchedule K))) s

/-- `des.dec kN` (R157). -/
def execDesDec (ksel : BitVec 2) (s : State) : StepResult :=
  requireKeySelect ksel s <|
  requireKeyLength s <|
  requireInputFits s <|
  requireOneBlock s <|
  withOperand (rawKeyOf s ksel) s fun K =>
  withOperand (blockOf s) s fun B =>
  succeed (toBytes 8 (decryptBlock B (keySchedule K))) s

end Sys2Proof.Machine
end

