-- ==== Sys2Proof/Machine/TripleCipher.lean ====
section
/-! DEFINITION. The Triple-DES (EDE) orchestrator and the commands `tdes.enc` and `tdes.dec` (44_triple_cipher.md). -/

namespace Sys2Proof.Machine

/-- The three RawKeys of a TripleKey: bytes `[0..8)`, `[8..16)`, `[16..24)` (R170). -/
def rawKeysOf (TK : TripleKey) : RawKey × RawKey × RawKey := (slice TK 1 64, slice TK 65 64, slice TK 129 64)

/-- `splitKey(TK)`: the three key schedules (R170). -/
def splitKey (TK : TripleKey) : List Subkey × List Subkey × List Subkey :=
  (keySchedule (rawKeysOf TK).1, keySchedule (rawKeysOf TK).2.1, keySchedule (rawKeysOf TK).2.2)

/-- `tdesEncryptBlock(B, TK)`: encrypt under K1, decrypt under K2, encrypt under K3 (R171). -/
def tdesEncryptBlock (B : Block) (TK : TripleKey) : Block :=
  let (K1, K2, K3) := splitKey TK
  encryptBlock (decryptBlock (encryptBlock B K1) K2) K3

/-- `tdesDecryptBlock(B, TK)`: decrypt under K3, encrypt under K2, decrypt under K1 (R172). -/
def tdesDecryptBlock (B : Block) (TK : TripleKey) : Block :=
  let (K1, K2, K3) := splitKey TK
  decryptBlock (encryptBlock (decryptBlock B K3) K2) K1

/-- `tdes.enc` (R173). -/
def execTdesEnc (s : State) : StepResult :=
  requireKeyLength s <|
  requireInputFits s <|
  requireOneBlock s <|
  withOperand (tripleKeyOf s) s fun TK =>
  withOperand (blockOf s) s fun B =>
  succeed (toBytes 8 (tdesEncryptBlock B TK)) s

/-- `tdes.dec` (R174). -/
def execTdesDec (s : State) : StepResult :=
  requireKeyLength s <|
  requireInputFits s <|
  requireOneBlock s <|
  withOperand (tripleKeyOf s) s fun TK =>
  withOperand (blockOf s) s fun B =>
  succeed (toBytes 8 (tdesDecryptBlock B TK)) s

end Sys2Proof.Machine
end

