-- ==== Sys2Proof/Machine/Message.lean ====
section
/-! DEFINITION. Whole-message encryption and decryption, and `nop` (46_message.md). -/

namespace Sys2Proof.Machine

/-- Block j of a message, `S[8j .. 8j+8)` (R56). -/
def messageBlock (S : List Byte) (j : Nat) : Block := ofBytes 64 ((S.drop (8 * j)).take 8)

/-- A block transform applied to every whole block of a message, each independently (R210, R211, R212). -/
def mapBlocks (transform : Block → Block) (S : List Byte) : List Byte :=
  (List.range (S.length / 8)).flatMap fun j => toBytes 8 (transform (messageBlock S j))

/-- The ciphertext of a plaintext: pad, then encrypt every block (R210). -/
def encryptMessage (P : List Byte) (TK : TripleKey) : List Byte :=
  mapBlocks (fun B => tdesEncryptBlock B TK) (padBytes P)

/-- The padded plaintext Q of a ciphertext (R211). -/
def decryptBlocks (C : List Byte) (TK : TripleKey) : List Byte :=
  mapBlocks (fun B => tdesDecryptBlock B TK) C

/-- The plaintext of a ciphertext: decrypt every block, then unpad (R211). -/
def decryptMessage (policy : UnpadPolicy) (C : List Byte) (TK : TripleKey) : Except EngineError (List Byte) :=
  unpadBytes policy (decryptBlocks C TK)

/-- `encrypt` (R210). -/
def execEncrypt (s : State) : StepResult :=
  requireKeyLength s <|
  requireInputFits s <|
  withOperand (tripleKeyOf s) s fun TK =>
  withOperand (inputOf s) s fun P =>
  succeed (encryptMessage P TK) s

/-- `decrypt` (R211). -/
def execDecrypt (s : State) : StepResult :=
  requireKeyLength s <|
  requireInputFits s <|
  requireWholeBlocks s <|
  withOperand (tripleKeyOf s) s fun TK =>
  withOperand (inputOf s) s fun C =>
  complete (decryptMessage s.cfg.unpadPolicy C TK) s

/-- `nop` (R214). -/
def execNop (s : State) : StepResult := succeed [] s

end Sys2Proof.Machine
end

