-- ==== Sys2Proof/Machine/Dispatch.lean ====
section
/-! DEFINITION. The meaning of every command (30_encoding.md rule R71). -/

namespace Sys2Proof.Machine

def exec (i : Instr) (s : State) : Host.Outcome State Fault Refusal :=
  match i with
  | .nop => Sys2Proof.Machine.execNop s
  | .encrypt => Sys2Proof.Machine.execEncrypt s
  | .decrypt => Sys2Proof.Machine.execDecrypt s
  | .tdesEnc => Sys2Proof.Machine.execTdesEnc s
  | .tdesDec => Sys2Proof.Machine.execTdesDec s
  | .desEnc ksel => Sys2Proof.Machine.execDesEnc ksel s
  | .desDec ksel => Sys2Proof.Machine.execDesDec ksel s
  | .pad => Sys2Proof.Machine.execPad s
  | .unpad => Sys2Proof.Machine.execUnpad s
  | .keysched ksel => Sys2Proof.Machine.execKeysched ksel s

end Sys2Proof.Machine
end

