-- ==== Sys2Proof/Machine/Engine.lean ====
section
/-! DEFINITION. The engine's turn (60_exceptions.md rules R239 to R241). -/

namespace Sys2Proof.Machine

/-- The engine's turn: it decodes CMD and performs the command, or raises IllegalCommand (R76, R235). Without a
pending command it has no step and the machine is unchanged (R240, R250). -/
def engineTurn (s : State) : StepResult :=
  if s.pending then
    match decode s.cmd with
    | .ok i => exec i s
    | .error _ => raise .illegalCommand s
  else .next s

end Sys2Proof.Machine
end

