-- ==== Sys2Proof/Machine/HostPort.lean ====
section
/-! DEFINITION. The host register window: the address map, host reads and host writes (20_memory.md rules R50 to R60;
70_reset_and_hazards.md rule R263). -/

namespace Sys2Proof.Machine

/-- What a window address belongs to (R51). -/
inductive Target where
  | cmd
  | status
  | keyLen
  | inLen
  | outLen
  /-- An address inside a register other than its first byte (R52). -/
  | insideRegister
  | keyByte (i : Nat)
  | inByte (i : Nat)
  | outByte (i : Nat)
  | reserved
  deriving DecidableEq, Repr

/-- The registers and the reserved words after them, 0x00000 to 0x0003F (R51). -/
def registerTarget (a : Nat) : Target :=
  if a = 0x00 then .cmd
  else if a = 0x04 then .status
  else if a = 0x08 then .keyLen
  else if a = 0x0C then .inLen
  else if a = 0x10 then .outLen
  else if a < 0x14 then .insideRegister
  else .reserved

/-- Byte i of a region that holds a buffer of `cap` bytes; the rest of the region is reserved (R51). -/
def bufferTarget (byte : Nat → Target) (cap i : Nat) : Target := if i < cap then byte i else .reserved

/-- The address map (R51). An address outside the window is reserved too (DEDUCED, log entry 9). -/
def targetOf (c : Config) (a : Nat) : Target :=
  if a < 0x00040 then registerTarget a
  else if a < 0x10000 then bufferTarget .keyByte 24 (a - 0x00040)
  else if a < 0x20000 then bufferTarget .inByte c.inCap (a - 0x10000)
  else bufferTarget .outByte c.outCap (a - 0x20000)

/-- The only access the host may make while STATE = BUSY: a 32-bit read of STATUS (R263). -/
def hostMayRead (s : State) (width : Width) (a : Nat) : Bool :=
  !isBusy s || (width == .w32 && targetOf s.cfg a == .status)

/-- A buffer byte as the host reads it, zero-extended, or the model fault of an unwritten byte (R53, R32). -/
def readByte (m : Memory) (i : Nat) : Except Fault Word :=
  match Memory.read m i with
  | some b => .ok (b.setWidth 32)
  | none => .error .unwrittenRead

/-- A host read: the value it returns, or its model fault (R52 to R54). It has no side effect (R59). Where several
reasons apply, the first of BusyAccess, Unmapped, BadAccessWidth, ReadWriteOnly, UnwrittenRead is reported (DESIGN
CHOICE, log entry 8). -/
def hostRead (s : State) (width : Width) (a : Nat) : Except Fault Word :=
  if hostMayRead s width a then
    match targetOf s.cfg a, width with
    | .reserved, _ => .error .unmapped
    | .cmd, .w32 => .ok s.cmd
    | .status, .w32 => .ok s.status
    | .keyLen, .w32 => .ok s.keyLen
    | .inLen, .w32 => .ok s.inLen
    | .outLen, .w32 => .ok s.outLen
    | .keyByte _, .w8 => .error .readWriteOnly
    | .inByte i, .w8 => readByte s.inBuf i
    | .outByte i, .w8 => readByte s.outBuf i
    | _, _ => .error .badAccessWidth
  else .error .busyAccess

/-- A host write of the datum `v`: the state after it, or its model fault (R52 to R54, R60). A byte write stores
`v[7:0]` (DESIGN CHOICE, log entry 10). The order of reasons is that of `hostRead`, with WriteReadOnly last (log
entry 8). -/
def hostWrite (s : State) (width : Width) (a : Nat) (v : Word) : Except Fault State :=
  if isBusy s then .error .busyAccess
  else
    match targetOf s.cfg a, width with
    | .reserved, _ => .error .unmapped
    | .cmd, .w32 => .ok (startCommand v s)
    | .status, .w32 => .error .writeReadOnly
    | .keyLen, .w32 => .ok { s with keyLen := v }
    | .inLen, .w32 => .ok { s with inLen := v }
    | .outLen, .w32 => .error .writeReadOnly
    | .keyByte i, .w8 => .ok { s with key := Memory.write s.key i (v.setWidth 8) }
    | .inByte i, .w8 => .ok { s with inBuf := Memory.write s.inBuf i (v.setWidth 8) }
    | .outByte _, .w8 => .error .writeReadOnly
    | _, _ => .error .badAccessWidth

end Sys2Proof.Machine
end

