-- ==== Sys2Proof/Machine/HostScript.lean ====
section
/-! DEFINITION. The host as an agent: one line of its script a turn, and the pseudo-operations of a script
(30_encoding.md rules R77 to R79). -/

namespace Sys2Proof.Machine

/-- The content of a host temporary; one not assigned yet is a free value (log entry 4). -/
def temporaryOf (h : HostAgent) (t : Nat) : Word :=
  match Memory.read h.temporaries t with
  | some v => v
  | none => Config.unsetTemporary t

/-- The datum of a host write (R78). -/
def valueOf (h : HostAgent) : HostValue → Word
  | .literal v => v
  | .temporary t => temporaryOf h t

/-- The host goes to a line of its script, where its counted reads start from 0. -/
def goToLine (line : Nat) (s : State) : State := { s with host := { s.host with line := line, index := 0 } }

/-- The host stays at its line and turns to the next counted read. -/
def nextIndex (s : State) : State := { s with host := { s.host with index := s.host.index + 1 } }

/-- The host has done one of the `n` counted reads of its line: it turns to the next one, or to the next line. -/
def afterCountedRead (n : Nat) (s : State) : State :=
  if s.host.index + 1 < n then nextIndex s else goToLine (s.host.line + 1) s

/-- The host assigns one of its temporaries. -/
def assignTemporary (t : Nat) (v : Word) (s : State) : State :=
  { s with host := { s.host with temporaries := Memory.write s.host.temporaries t v } }

/-- A turn at one line of the host's script (R78): at most one access to the device (R58). An access that faults marks
the state and the script goes no further (R243). A line of counted reads performs the next of them; if there
is none to perform, the turn only goes on to the next line (log entry 16). -/
def hostLine (op : HostOp) (s : State) : StepResult :=
  match op with
  | .write width a v =>
    match hostWrite s width a (valueOf s.host v) with
    | .ok s' => .next (goToLine (s.host.line + 1) s')
    | .error r => modelFault r s
  | .read width t a =>
    match hostRead s width a with
    | .ok v => .next (goToLine (s.host.line + 1) (assignTemporary t v s))
    | .error r => modelFault r s
  | .branchNotEqual t hi lo v target =>
    .next (goToLine (if bitField (temporaryOf s.host t) hi lo ≠ v then target else s.host.line + 1) s)
  | .branch target => .next (goToLine target s)
  | .readBytes count t a =>
    let n := (temporaryOf s.host count).toNat
    if s.host.index < n then
      match hostRead s .w8 (a + s.host.index) with
      | .ok v => .next (afterCountedRead n (assignTemporary (t + s.host.index) v s))
      | .error r => modelFault r s
    else .next (goToLine (s.host.line + 1) s)

/-- The host's turn: the line it is at; a host at the end of its script does nothing (R250). -/
def hostTurn (s : State) : StepResult :=
  match s.host.script[s.host.line]? with
  | some op => hostLine op s
  | none => .next s

/-- `wr32 REG, v` (R78). -/
def wr32 (a : Nat) (v : Word) : HostOp := .write .w32 a (.literal v)

/-- `rd32 t, REG` (R78). -/
def rd32 (t a : Nat) : HostOp := .read .w32 t a

/-- The window address of KEY[i] (R51). -/
def keyAddress (i : Nat) : Nat := 0x00040 + i

/-- The window address of IN[i] (R51). -/
def inAddress (i : Nat) : Nat := 0x10000 + i

/-- The window address of OUT[i] (R51). -/
def outAddress (i : Nat) : Nat := 0x20000 + i

/-- `wr8` of the bytes of a list to consecutive addresses from `a` on (R79). -/
def writeBytes : Nat → List Byte → List HostOp
  | _, [] => []
  | a, b :: bs => .write .w8 a (.literal (b.setWidth 32)) :: writeBytes (a + 1) bs

/-- `loadkey k0 .. k23` (R79). -/
def loadKey (k : List Byte) : List HostOp := writeBytes (keyAddress 0) k ++ [wr32 0x00008 24]

/-- `loadin d0 .. d(n-1)` (R79). -/
def loadIn (d : List Byte) : List HostOp :=
  writeBytes (inAddress 0) d ++ [wr32 0x0000C (BitVec.ofNat 32 d.length)]

/-- `run <command>` (R79). -/
def run (i : Instr) : List HostOp := [wr32 0x00000 (encode i)]

/-- `wait` standing at line `w` of the script, with the host temporary `t` (R79). -/
def wait (w t : Nat) : List HostOp := [rd32 t 0x00004, .branchNotEqual t 1 0 1 (w + 3), .branch w]

/-- `readout`: OUT_LEN into the temporary `t`, its content `n`; then OUT[i] into the temporary `t + 1 + i` for
i = 0 .. n − 1 (R79). -/
def readOut (t : Nat) : List HostOp := [rd32 t 0x00010, .readBytes t (t + 1) (outAddress 0)]

end Sys2Proof.Machine
end

