-- ==== Sys2Proof/Machine/Step.lean ====
section
/-! DEFINITION. One step of the machine: the reset input, the host's turn or the engine's turn (20_memory.md rules R58,
R61; 70_reset_and_hazards.md rules R267, R268). -/

namespace Sys2Proof.Machine

/-- Who moves where the schedule names no one: the engine if it has a step, else the host (log entry 3). Every
schedule is finite, so a pending command is performed in the end (R268). -/
def defaultTurn (s : State) : StepResult := if s.pending then engineTurn s else hostTurn s

/-- A turn of an agent: a faulted state has no further step of either (R243). -/
def agentTurn (turn : State → StepResult) (s : State) : StepResult :=
  match s.faultMark with
  | some r => .fault r
  | none => turn s

/-- One step: the turn the schedule names first, else the default turn. -/
def step (s : State) : Host.Outcome State Fault Refusal :=
  match s.schedule with
  | .reset :: rest => .next (resetInput { s with schedule := rest })
  | .engine :: rest => agentTurn engineTurn { s with schedule := rest }
  | .host :: rest => agentTurn hostTurn { s with schedule := rest }
  | [] => agentTurn defaultTurn s

/-- The command word `w` written to CMD (R60), with the engine to move next: TDES-CORE fetches no code (R63), and the
CMD write stands for the fetch (log entry 11). -/
def State.withFetchWord (s : State) (nbits w : Nat) : State :=
  { startCommand (BitVec.ofNat 32 (w % 2 ^ nbits)) s with schedule := .engine :: s.schedule }

end Sys2Proof.Machine
end

