-- ==== Sys2Proof/Safety.lean ====
section
/-! DEFINITION. The terms the claims about TDES-CORE are stated in: the invariant of its states, the contents of a
buffer, the device apart from its host, and which commands use the key and read the input. -/

namespace Sys2Proof.Machine

/-- The buffer holds the bytes `S` from index `a` on. -/
def bufferHolds (m : Memory) (a : Nat) (S : List Byte) : Prop :=
  ∀ j, j < S.length → Memory.read m (a + j) = S[j]?

/-- The device and its fault mark, the host and the interleaving left out (R21). -/
def deviceOf (s : State) : State :=
  { s with host := { script := [], line := 0, index := 0, temporaries := [] }, schedule := [] }

/-- The machine runs: no model fault has happened (R243). -/
def State.running (s : State) : Prop := s.faultMark = none

/-- The next turn is the engine's: the schedule names it, or names no one while a command is pending. -/
def State.engineNext (s : State) : Prop :=
  s.pending = true ∧ (s.schedule = [] ∨ ∃ rest, s.schedule = .engine :: rest)

/-- The STATUS words the machine can hold (R23 to R25). -/
def legalStatuses : List Word :=
  [statusIdle, statusBusy, statusDone, statusError .invalidKeyLength, statusError .invalidCiphertextLength,
   statusError .malformedPadding, statusError .illegalCommand, statusError .invalidBlockLength,
   statusError .capacityExceeded]

/-- The commands that use the key (R231, code 1). -/
def usesKey : Instr → Bool
  | .encrypt => true
  | .decrypt => true
  | .tdesEnc => true
  | .tdesDec => true
  | .desEnc _ => true
  | .desDec _ => true
  | .keysched _ => true
  | .nop => false
  | .pad => false
  | .unpad => false

/-- The commands that read IN (R231, code 6). -/
def readsInput : Instr → Bool
  | .encrypt => true
  | .decrypt => true
  | .tdesEnc => true
  | .tdesDec => true
  | .desEnc _ => true
  | .desDec _ => true
  | .pad => true
  | .unpad => true
  | .nop => false
  | .keysched _ => false

/-- The block commands, whose input is one block (R231, code 5). -/
def takesOneBlock : Instr → Bool
  | .tdesEnc => true
  | .tdesDec => true
  | .desEnc _ => true
  | .desDec _ => true
  | .nop => false
  | .encrypt => false
  | .decrypt => false
  | .pad => false
  | .unpad => false
  | .keysched _ => false

/-- The KEY indices a command reads (R72, R117, R156, R173, R210). -/
def readsKeyByte (i : Instr) (a : Nat) : Prop :=
  match i with
  | .encrypt => a < 24
  | .decrypt => a < 24
  | .tdesEnc => a < 24
  | .tdesDec => a < 24
  | .desEnc ksel => 8 * ksel.toNat ≤ a ∧ a < 8 * ksel.toNat + 8
  | .desDec ksel => 8 * ksel.toNat ≤ a ∧ a < 8 * ksel.toNat + 8
  | .keysched ksel => 8 * ksel.toNat ≤ a ∧ a < 8 * ksel.toNat + 8
  | .nop => False
  | .pad => False
  | .unpad => False

/-- The command's IN bytes are those below IN_LEN, if it reads IN at all (R30). -/
def readsInByte (i : Instr) (s : State) (a : Nat) : Prop := readsInput i = true ∧ a < s.inLen.toNat

/-- `exec i s` answers a next state, that of a successful completion with the output `S`: STATE = DONE, ERR = NONE,
OUT_LEN = len(S), OUT[0..len(S)) = S, no command pending, and no model fault (R240). -/
def completesWith (i : Instr) (s : State) (S : List Byte) : Prop :=
  ∃ t, exec i s = .next t ∧ t.status = 0x00000002 ∧ t.outLen = BitVec.ofNat 32 S.length ∧
    bufferHolds t.outBuf 0 S ∧ t.pending = false ∧ t.faultMark = s.faultMark

/-- `exec i s` answers a next state, that of the engine error of this code: STATE = ERROR, ERR = code, OUT_LEN = 0, no
command pending, and everything else as before (R241). -/
def failsWith (i : Instr) (s : State) (code : Nat) : Prop :=
  exec i s = .next { s with outLen := 0, status := BitVec.ofNat 32 (3 ||| (code <<< 4)), pending := false }

/-- `exec i s` marks the state with the model fault `UnwrittenRead` (R32, R243). -/
def readsUnwritten (i : Instr) (s : State) : Prop :=
  ∃ t, exec i s = .next t ∧ t.faultMark = some .unwrittenRead

/-- The invariant of TDES-CORE's states (R24, R25, R28 to R32, R60). -/
structure State.Inv (s : State) : Prop where
  /-- The parameters lie in the bounds of R6. -/
  parameters : s.cfg.wf
  /-- The buffers are in canonical form and within their capacities (R29 to R31). -/
  keyCanonical : Memory.wf s.key
  keyWithin : Memory.within s.key 24
  inCanonical : Memory.wf s.inBuf
  inWithin : Memory.within s.inBuf s.cfg.inCap
  outCanonical : Memory.wf s.outBuf
  /-- OUT holds exactly the bytes OUT[0..OUT_LEN) (R31). -/
  outWritten : ∀ a, (Memory.read s.outBuf a).isSome = true ↔ a < s.outLen.toNat
  outFits : s.outLen.toNat ≤ s.cfg.outCap
  /-- STATUS holds a legal word (R23 to R25). -/
  statusLegal : s.status ∈ legalStatuses
  /-- Only a successful command leaves output (R23, R31). -/
  outputOnlyWhenDone : s.status ≠ statusDone → s.outLen = 0
  /-- `pending` is true exactly when STATE = BUSY (R60). -/
  pendingIffBusy : s.pending = true ↔ s.status = statusBusy
  /-- The host's temporaries are in canonical form (the model's own field). -/
  temporariesCanonical : Memory.wf s.host.temporaries

end Sys2Proof.Machine
end

