-- ==== Sys2Proof/Certificates/Slice0/Obligations.lean ====
section
/-! DEFINITION. The statements about TDES-CORE for the provers. Each docstring names the rules of spec/ it formalises. -/

open Sys2Proof Sys2Proof.Machine

/-- R71, R77: command words written out from the OP and KSEL fields. -/
def Obligations.CommandWordsReadAsWritten : Prop :=
  decode 0b00000000000000000000000000000000 = .ok .nop ∧
  decode 0b00000000000000000000000000000001 = .ok .encrypt ∧
  decode 0b00000000000000000000000000000011 = .ok .tdesEnc ∧
  decode 0b00000000000000000000000000010101 = .ok (.desEnc 1) ∧
  decode 0b00000000000000000000000000100110 = .ok (.desDec 2) ∧
  decode 0b00000000000000000000000000000111 = .ok .pad ∧
  decode 0b00000000000000000000000000001001 = .ok (.keysched 0)

/-- R73 to R76: the illegal words by the rule they break, the sixteen legal words, and that the engine's turn decodes
CMD before anything else. -/
def Obligations.DecodeFollowsTheCommandTable : Prop :=
  (∀ w : Word, 64 ≤ w.toNat → decode w = .error .reservedBits) ∧
  (∀ w : Word, w.toNat < 64 → 10 ≤ w.toNat % 16 → decode w = .error .reservedOp) ∧
  (∀ w : Word, w.toNat < 64 → w.toNat % 16 ∈ [5, 6, 9] → w.toNat / 16 = 3 → decode w = .error .badKeySelect) ∧
  (∀ w : Word, w.toNat < 64 → w.toNat % 16 ∈ [0, 1, 2, 3, 4, 7, 8] → w.toNat / 16 ≠ 0 →
    decode w = .error .badKeySelect) ∧
  (∀ w : Word, (∃ i, decode w = .ok i) ↔
    w ∈ [0x00000000#32, 0x00000001, 0x00000002, 0x00000003, 0x00000004, 0x00000007, 0x00000008, 0x00000005,
      0x00000015, 0x00000025, 0x00000006, 0x00000016, 0x00000026, 0x00000009, 0x00000019, 0x00000029]) ∧
  (decode 0x00 = .ok .nop ∧ decode 0x01 = .ok .encrypt ∧ decode 0x02 = .ok .decrypt ∧ decode 0x03 = .ok .tdesEnc ∧
    decode 0x04 = .ok .tdesDec ∧ decode 0x07 = .ok .pad ∧ decode 0x08 = .ok .unpad) ∧
  (∀ k : Nat, k ≤ 2 → decode (BitVec.ofNat 32 (0x5 + 16 * k)) = .ok (.desEnc (BitVec.ofNat 2 k)) ∧
    decode (BitVec.ofNat 32 (0x6 + 16 * k)) = .ok (.desDec (BitVec.ofNat 2 k)) ∧
    decode (BitVec.ofNat 32 (0x9 + 16 * k)) = .ok (.keysched (BitVec.ofNat 2 k))) ∧
  (∀ s i, s.pending = true → decode s.cmd = .ok i → engineTurn s = exec i s) ∧
  (∀ s e, s.pending = true → decode s.cmd = .error e →
    engineTurn s = .next { s with outLen := 0, status := 0x00000043, pending := false })

/-- R70 to R77: for every well-formed command decoding its word gives it back, and every word that decodes is the
encoding of the well-formed command it decodes to. -/
def Obligations.DecodeEncodeAgree : Prop :=
  (∀ i : Instr, i.wf = true → decode (encode i) = .ok i) ∧
  (∀ (w : Word) (i : Instr), decode w = .ok i → i.wf = true ∧ encode i = w)

/-- R76, R240: a step whose turn is the engine's runs the command CMD decodes to, and takes the turn off the
schedule (the model's own, log entry 3); without a pending command the engine's turn is a next state that changes
nothing else (log entry 17). -/
def Obligations.StepRunsTheDecodedCommand : Prop :=
  (∀ s i, s.running → s.engineNext → decode s.cmd = .ok i →
    step s = exec i { s with schedule := s.schedule.tail }) ∧
  (∀ s rest, s.running → s.pending = false → s.schedule = .engine :: rest →
    step s = .next { s with schedule := rest })

/-- R60, R76: with the word of a well-formed command placed, the very next step is that command's, in the state a CMD
write leaves. -/
def Obligations.PlacedCommandRunsNext : Prop :=
  ∀ (s : State) (i : Instr), s.running → i.wf = true →
    step (s.withFetchWord 32 (encode i).toNat) = exec i (startCommand (encode i) s)

/-- R20, R78: a step whose turn is the host's performs the line its script is at. The schedule is the model's own (log
entry 3), and so is the last clause, on which the rules are silent: a host at the end of its script does nothing (log
entry 16), and its turn is a next state that changes only the schedule (log entry 17). -/
def Obligations.HostTurnRunsItsLine : Prop :=
  (∀ s rest op, s.running → s.schedule = .host :: rest → s.host.script[s.host.line]? = some op →
    step s = hostLine op { s with schedule := rest }) ∧
  (∀ s op, s.running → s.schedule = [] → s.pending = false → s.host.script[s.host.line]? = some op →
    step s = hostLine op s) ∧
  (∀ s rest, s.running → s.schedule = .host :: rest → s.host.script[s.host.line]? = none →
    step s = .next { s with schedule := rest })

/-- R260, R261: the state after a reset, at power-on and whenever the reset input comes (BUSY or not); the fault mark
is clear at power-on and not cleared by a later reset. -/
def Obligations.ResetSetsTheStatedValues : Prop :=
  (∀ s rest, s.schedule = .reset :: rest → ∃ t, step s = .next t ∧
    t.cmd = 0x00000000 ∧ t.status = 0x00000000 ∧ t.keyLen = 0 ∧ t.inLen = 0 ∧ t.outLen = 0 ∧
    (∀ a, Memory.read t.key a = none) ∧ (∀ a, Memory.read t.inBuf a = none) ∧ (∀ a, Memory.read t.outBuf a = none) ∧
    t.pending = false ∧ t.faultMark = s.faultMark) ∧
  (∀ c, (State.powerOn c).cmd = 0x00000000 ∧ (State.powerOn c).status = 0x00000000 ∧
    (State.powerOn c).keyLen = 0 ∧ (State.powerOn c).inLen = 0 ∧ (State.powerOn c).outLen = 0 ∧
    (∀ a, Memory.read (State.powerOn c).key a = none) ∧ (∀ a, Memory.read (State.powerOn c).inBuf a = none) ∧
    (∀ a, Memory.read (State.powerOn c).outBuf a = none) ∧ (State.powerOn c).pending = false ∧
    (State.powerOn c).faultMark = none)

/-- The invariant holds at power-on under every pair of capacities R6 allows, and at `State.reset`, whose capacities are
the model's choice (log entry 1). -/
def Obligations.InvariantHoldsAtPowerOn : Prop :=
  (∀ c : Config, c.wf → (State.powerOn c).Inv) ∧ State.reset.Inv

/-- R24, R25, R28 to R32, R60: every step from a state that meets the invariant gives a state that meets it. -/
def Obligations.StepKeepsTheInvariant : Prop :=
  ∀ s t : State, s.Inv → step s = .next t → t.Inv

/-- R24, R25, R28: in every state that meets the invariant the reserved bits of STATUS read zero, ERR is 0 except in
STATE = ERROR, where it is 1 to 6, and OUT_LEN is at most OUT_CAP. -/
def Obligations.StatusFieldsAgree : Prop :=
  ∀ s : State, s.Inv →
    bitField s.status 3 2 = 0 ∧ bitField s.status 31 8 = 0 ∧
    (stateField s.status ≠ 3 → errField s.status = 0) ∧
    (stateField s.status = 3 → 1 ≤ errField s.status ∧ errField s.status ≤ 6) ∧
    s.outLen.toNat ≤ s.cfg.outCap

/-- R243, R260: a marked state has no step of either agent, and no step clears the mark. -/
def Obligations.FaultMarkIsForGood : Prop :=
  (∀ s r, s.faultMark = some r → s.schedule.head? ≠ some .reset → step s = .fault r) ∧
  (∀ s t r, s.faultMark = some r → step s = .next t → t.faultMark = some r)

/-- R6, R7: no step changes the parameters. That a step, a reset included, keeps the host's script and takes one turn
off the schedule is the model's own choice (log entries 3, 7 and 16). -/
def Obligations.StepsKeepParametersAndScript : Prop :=
  ∀ s t : State, step s = .next t →
    t.cfg = s.cfg ∧ t.host.script = s.host.script ∧ t.schedule = s.schedule.tail

/-- R20, R29, R30, R31, R240, R241, R243: the frame of every command. The engine writes STATUS, OUT_LEN, `pending` and
OUT[0..OUT_LEN); one that does not succeed stores nothing; a command that faults changes nothing but the mark (the
model's reading, log entry 6). -/
def Obligations.CommandsChangeOnlyTheirOutput : Prop :=
  ∀ (i : Instr) (s t : State), s.cfg.wf → exec i s = .next t →
    t.cmd = s.cmd ∧ t.keyLen = s.keyLen ∧ t.inLen = s.inLen ∧ t.cfg = s.cfg ∧ t.host = s.host ∧
    t.schedule = s.schedule ∧
    (∀ a, Memory.read t.key a = Memory.read s.key a) ∧ (∀ a, Memory.read t.inBuf a = Memory.read s.inBuf a) ∧
    (∀ a, t.outLen.toNat ≤ a → Memory.read t.outBuf a = Memory.read s.outBuf a) ∧
    (t.status ≠ 0x00000002 → ∀ a, Memory.read t.outBuf a = Memory.read s.outBuf a) ∧
    (t.faultMark ≠ s.faultMark → t = { s with faultMark := some .unwrittenRead })

/-- R230: every command completes with an output, or with one engine error and no output, or the model faults. -/
def Obligations.EveryCommandEndsInOneWay : Prop :=
  ∀ (i : Instr) (s : State),
    (∃ S : List Byte, exec i s = .next { s with
      outBuf := Memory.writeRange s.outBuf 0 S, outLen := BitVec.ofNat 32 S.length, status := 0x00000002,
      pending := false }) ∨
    (∃ code, 1 ≤ code ∧ code ≤ 6 ∧ failsWith i s code) ∨
    readsUnwritten i s

/-- R239: the six steps of error detection, each made only if every earlier one passed. -/
def Obligations.ErrorsAreDetectedInOrder : Prop :=
  (∀ s e, s.pending = true → decode s.cmd = .error e →
    engineTurn s = .next { s with outLen := 0, status := 0x00000043, pending := false }) ∧
  ∀ (i : Instr) (s : State),
    (i.wf = false → failsWith i s 4) ∧
    (i.wf = true →
      (usesKey i = true → s.keyLen ≠ 24 → failsWith i s 1) ∧
      ((usesKey i = true → s.keyLen = 24) →
        (readsInput i = true → s.cfg.inCap < s.inLen.toNat → failsWith i s 6) ∧
        ((readsInput i = true → s.inLen.toNat ≤ s.cfg.inCap) →
          (i = .decrypt → s.inLen.toNat = 0 ∨ s.inLen.toNat % 8 ≠ 0 → failsWith i s 2) ∧
          (takesOneBlock i = true → s.inLen ≠ 8 → failsWith i s 5) ∧
          (i = .unpad → s.inLen.toNat = 0 → failsWith i s 3) ∧
          ((i = .decrypt → s.inLen.toNat ≠ 0 ∧ s.inLen.toNat % 8 = 0) →
            (takesOneBlock i = true → s.inLen = 8) →
            (i = .unpad → s.inLen.toNat ≠ 0) →
            ((∃ a, readsKeyByte i a ∧ Memory.read s.key a = none) ∨
              (∃ a, readsInByte i s a ∧ Memory.read s.inBuf a = none) → readsUnwritten i s) ∧
            ((∀ a, readsKeyByte i a → Memory.read s.key a ≠ none) →
              (∀ a, readsInByte i s a → Memory.read s.inBuf a ≠ none) →
              (∃ S, completesWith i s S) ∨ ((i = .decrypt ∨ i = .unpad) ∧ failsWith i s 3))))))

/-- R214: `nop` completes with no output and no checks, from any state; after a CMD write it leaves every OUT byte
unwritten. -/
def Obligations.NopCompletesWithNoOutput : Prop :=
  decode 0x00000000 = .ok .nop ∧
  (∀ w ∈ [0x00000010#32, 0x00000020, 0x00000030], decode w = .error .badKeySelect) ∧
  (∀ s, exec .nop s = .next { s with outLen := 0, status := 0x00000002, pending := false }) ∧
  (∀ s, ∃ t, exec .nop (startCommand 0x00000000 s) = .next t ∧ t.status = 0x00000002 ∧ t.outLen = 0 ∧
    ∀ a, Memory.read t.outBuf a = none)

/-- R117: `keysched kN` reads KEY_LEN and the selected third of KEY only, and writes the 16 subkeys; a key whose subkeys
are all one writes that one sixteen times. -/
def Obligations.KeyschedWritesTheSubkeys : Prop :=
  (decode 0x00000009 = .ok (.keysched 0) ∧ decode 0x00000019 = .ok (.keysched 1) ∧
    decode 0x00000029 = .ok (.keysched 2) ∧ decode 0x00000039 = .error .badKeySelect) ∧
  ∀ (s : State) (ksel : BitVec 2),
    (ksel = 3 → failsWith (.keysched ksel) s 4) ∧
    (ksel ≠ 3 → s.keyLen ≠ 24 → failsWith (.keysched ksel) s 1) ∧
    (ksel ≠ 3 → s.keyLen = 24 → ∀ j, j < 8 → Memory.read s.key (8 * ksel.toNat + j) = none →
      readsUnwritten (.keysched ksel) s) ∧
    (ksel ≠ 3 → s.keyLen = 24 → ∀ K : List Byte, K.length = 8 → bufferHolds s.key (8 * ksel.toNat) K →
      ∃ t, exec (.keysched ksel) s = .next t ∧ t.status = 0x00000002 ∧ t.outLen = 96 ∧ t.pending = false ∧
        t.faultMark = s.faultMark ∧
        (∀ r j, r < 16 → j < 6 → Memory.read t.outBuf (6 * r + j) =
          some (slice ((keySchedule (ofBytes 64 K)).getD r 0) (8 * j + 1) 8)) ∧
        (∀ Z : Subkey, keySchedule (ofBytes 64 K) = List.replicate 16 Z →
          bufferHolds t.outBuf 0 (List.replicate 16 (toBytes 6 Z)).flatten) ∧
        (s.cfg.wf → t.outLen.toNat ≤ s.cfg.outCap))

/-- R156, R157: the single-DES block commands, their encodings, their errors in order, their operand reads and their
results. -/
def Obligations.DesCommandsTransformOneBlock : Prop :=
  (decode 0x00000005 = .ok (.desEnc 0) ∧ decode 0x00000015 = .ok (.desEnc 1) ∧ decode 0x00000025 = .ok (.desEnc 2) ∧
    decode 0x00000006 = .ok (.desDec 0) ∧ decode 0x00000016 = .ok (.desDec 1) ∧ decode 0x00000026 = .ok (.desDec 2) ∧
    decode 0x00000035 = .error .badKeySelect ∧ decode 0x00000036 = .error .badKeySelect) ∧
  ∀ (s : State) (ksel : BitVec 2) (i : Instr), i = .desEnc ksel ∨ i = .desDec ksel →
    (ksel = 3 → failsWith i s 4) ∧
    (ksel ≠ 3 → s.keyLen ≠ 24 → failsWith i s 1) ∧
    (ksel ≠ 3 → s.keyLen = 24 → s.cfg.inCap < s.inLen.toNat → failsWith i s 6) ∧
    (ksel ≠ 3 → s.keyLen = 24 → s.inLen.toNat ≤ s.cfg.inCap → s.inLen ≠ 8 → failsWith i s 5) ∧
    (ksel ≠ 3 → s.keyLen = 24 → s.inLen.toNat ≤ s.cfg.inCap → s.inLen = 8 →
      (∀ j, j < 8 → Memory.read s.key (8 * ksel.toNat + j) = none ∨ Memory.read s.inBuf j = none →
        readsUnwritten i s) ∧
      (∀ K B : List Byte, K.length = 8 → B.length = 8 → bufferHolds s.key (8 * ksel.toNat) K →
        bufferHolds s.inBuf 0 B →
        (i = .desEnc ksel →
          completesWith i s (toBytes 8 (encryptBlock (ofBytes 64 B) (keySchedule (ofBytes 64 K))))) ∧
        (i = .desDec ksel →
          completesWith i s (toBytes 8 (decryptBlock (ofBytes 64 B) (keySchedule (ofBytes 64 K)))))))

/-- R173, R174: the Triple-DES block commands, their encodings, their errors in order, their operand reads and their
results. -/
def Obligations.TdesCommandsTransformOneBlock : Prop :=
  (decode 0x00000003 = .ok .tdesEnc ∧ decode 0x00000004 = .ok .tdesDec ∧
    ∀ w ∈ [0x00000013#32, 0x00000023, 0x00000033, 0x00000014, 0x00000024, 0x00000034],
      decode w = .error .badKeySelect) ∧
  ∀ (s : State) (i : Instr), i = .tdesEnc ∨ i = .tdesDec →
    (s.keyLen ≠ 24 → failsWith i s 1) ∧
    (s.keyLen = 24 → s.cfg.inCap < s.inLen.toNat → failsWith i s 6) ∧
    (s.keyLen = 24 → s.inLen.toNat ≤ s.cfg.inCap → s.inLen ≠ 8 → failsWith i s 5) ∧
    (s.keyLen = 24 → s.inLen.toNat ≤ s.cfg.inCap → s.inLen = 8 →
      ((∃ a, a < 24 ∧ Memory.read s.key a = none) ∨ (∃ a, a < 8 ∧ Memory.read s.inBuf a = none) →
        readsUnwritten i s) ∧
      (∀ K B : List Byte, K.length = 24 → B.length = 8 → bufferHolds s.key 0 K → bufferHolds s.inBuf 0 B →
        (i = .tdesEnc → completesWith i s (toBytes 8 (tdesEncryptBlock (ofBytes 64 B) (ofBytes 192 K)))) ∧
        (i = .tdesDec → completesWith i s (toBytes 8 (tdesDecryptBlock (ofBytes 64 B) (ofBytes 192 K))))))

/-- R193: `pad`, which has no key check; its output is the input with 1 to 8 bytes of their count, and it fits OUT. -/
def Obligations.PadCommandPadsTheInput : Prop :=
  (decode 0x00000007 = .ok .pad ∧ ∀ w ∈ [0x00000017#32, 0x00000027, 0x00000037], decode w = .error .badKeySelect) ∧
  ∀ s : State,
    (s.cfg.inCap < s.inLen.toNat → failsWith .pad s 6) ∧
    (s.inLen.toNat ≤ s.cfg.inCap →
      (∀ a, a < s.inLen.toNat → Memory.read s.inBuf a = none → readsUnwritten .pad s) ∧
      (∀ D : List Byte, D.length = s.inLen.toNat → bufferHolds s.inBuf 0 D →
        completesWith .pad s (D ++ List.replicate (8 - D.length % 8) (BitVec.ofNat 8 (8 - D.length % 8))) ∧
        (s.cfg.wf → ∀ t, exec .pad s = .next t →
          t.outLen.toNat = 8 * (D.length / 8 + 1) ∧ t.outLen.toNat ≤ s.cfg.outCap)))

/-- R194 with R191 and R192: `unpad` under both policies, which has no key check and takes any length but 0. On lengths
that are no multiple of 8 the strict clause follows R192's pseudocode and not its corner-case sentence, which is the
model's reading (log entry 13): the one byte 0x01 completes with no output. -/
def Obligations.UnpadCommandRemovesThePadding : Prop :=
  (decode 0x00000008 = .ok .unpad ∧ ∀ w ∈ [0x00000018#32, 0x00000028, 0x00000038], decode w = .error .badKeySelect) ∧
  ∀ s : State,
    (s.cfg.inCap < s.inLen.toNat → failsWith .unpad s 6) ∧
    (s.inLen.toNat ≤ s.cfg.inCap →
      (s.inLen.toNat = 0 → failsWith .unpad s 3) ∧
      (∀ a, a < s.inLen.toNat → Memory.read s.inBuf a = none → readsUnwritten .unpad s) ∧
      (∀ (D : List Byte) (last : Byte), (D ++ [last]).length = s.inLen.toNat → bufferHolds s.inBuf 0 (D ++ [last]) →
        let n := D.length + 1
        (s.cfg.unpadPolicy = .faithful →
          (n < last.toNat → failsWith .unpad s 3) ∧
          (last.toNat ≤ n → completesWith .unpad s ((D ++ [last]).take (n - last.toNat)))) ∧
        (s.cfg.unpadPolicy = .strict →
          ((last.toNat < 1 ∨ 8 < last.toNat ∨ n < last.toNat ∨
            ∃ b ∈ (D ++ [last]).drop (n - last.toNat), b ≠ last) → failsWith .unpad s 3) ∧
          (1 ≤ last.toNat ∧ last.toNat ≤ 8 ∧ last.toNat ≤ n ∧
            (∀ b ∈ (D ++ [last]).drop (n - last.toNat), b = last) →
            completesWith .unpad s ((D ++ [last]).take (n - last.toNat))))))

/-- R210: `encrypt`: the padded input, each block encrypted under the TripleKey; an empty plaintext is legal and the
output always fits OUT. -/
def Obligations.EncryptCommandEncryptsThePaddedBlocks : Prop :=
  (decode 0x00000001 = .ok .encrypt ∧
    ∀ w ∈ [0x00000011#32, 0x00000021, 0x00000031], decode w = .error .badKeySelect) ∧
  ∀ s : State,
    (s.keyLen ≠ 24 → failsWith .encrypt s 1) ∧
    (s.keyLen = 24 → s.cfg.inCap < s.inLen.toNat → failsWith .encrypt s 6) ∧
    (s.keyLen = 24 → s.inLen.toNat ≤ s.cfg.inCap →
      ((∃ a, a < 24 ∧ Memory.read s.key a = none) ∨
        (∃ a, a < s.inLen.toNat ∧ Memory.read s.inBuf a = none) → readsUnwritten .encrypt s) ∧
      (∀ K P : List Byte, K.length = 24 → P.length = s.inLen.toNat → bufferHolds s.key 0 K → bufferHolds s.inBuf 0 P →
        ∃ C : List Byte, completesWith .encrypt s C ∧ C.length = 8 * (P.length / 8 + 1) ∧
          (∀ j, j < P.length / 8 + 1 → (C.drop (8 * j)).take 8 =
            toBytes 8 (tdesEncryptBlock (ofBytes 64 (((padBytes P).drop (8 * j)).take 8)) (ofBytes 192 K))) ∧
          (s.cfg.wf → C.length ≤ s.cfg.outCap)))

/-- R211: `decrypt`: each block decrypted under the TripleKey, then unpadded under the policy; an error leaves no
output. -/
def Obligations.DecryptCommandDecryptsAndUnpads : Prop :=
  (decode 0x00000002 = .ok .decrypt ∧
    ∀ w ∈ [0x00000012#32, 0x00000022, 0x00000032], decode w = .error .badKeySelect) ∧
  ∀ s : State,
    (s.keyLen ≠ 24 → failsWith .decrypt s 1) ∧
    (s.keyLen = 24 → s.cfg.inCap < s.inLen.toNat → failsWith .decrypt s 6) ∧
    (s.keyLen = 24 → s.inLen.toNat ≤ s.cfg.inCap → s.inLen.toNat = 0 ∨ s.inLen.toNat % 8 ≠ 0 →
      failsWith .decrypt s 2) ∧
    (s.keyLen = 24 → s.inLen.toNat ≤ s.cfg.inCap → s.inLen.toNat ≠ 0 → s.inLen.toNat % 8 = 0 →
      ((∃ a, a < 24 ∧ Memory.read s.key a = none) ∨
        (∃ a, a < s.inLen.toNat ∧ Memory.read s.inBuf a = none) → readsUnwritten .decrypt s) ∧
      (∀ K C : List Byte, K.length = 24 → C.length = s.inLen.toNat → bufferHolds s.key 0 K → bufferHolds s.inBuf 0 C →
        ∃ Q : List Byte, Q.length = C.length ∧
          (∀ j, j < C.length / 8 → (Q.drop (8 * j)).take 8 =
            toBytes 8 (tdesDecryptBlock (ofBytes 64 ((C.drop (8 * j)).take 8)) (ofBytes 192 K))) ∧
          (∀ P, unpadBytes s.cfg.unpadPolicy Q = .ok P → completesWith .decrypt s P ∧ P.length ≤ C.length) ∧
          (∀ e, unpadBytes s.cfg.unpadPolicy Q = .error e → failsWith .decrypt s 3)))

/-- Known answers of 95_test_vectors.md: V-F-1, V-KS-1, V-DES-1, V-TDES-1, V-PAD-3, V-UNP-7. -/
def Obligations.KnownAnswersMatch : Prop :=
  roundFunction 0xF0AAF0AA 0x1B02EFFC7072 = 0x234AA9BB ∧
  (keySchedule 0x133457799BBCDFF1).getD 0 0 = 0x1B02EFFC7072 ∧
  (keySchedule 0x133457799BBCDFF1).getD 15 0 = 0xCB3D8B0E17F5 ∧
  encryptBlock 0x0123456789ABCDEF (keySchedule 0x133457799BBCDFF1) = 0x85E813540F0AB405 ∧
  decryptBlock 0x85E813540F0AB405 (keySchedule 0x133457799BBCDFF1) = 0x0123456789ABCDEF ∧
  tdesEncryptBlock 0x5468652071756663 0x0123456789ABCDEF23456789ABCDEF01456789ABCDEF0123 = 0xA826FD8CE53B855F ∧
  padBytes [0x68, 0x65, 0x6C, 0x6C, 0x6F] = [0x68, 0x65, 0x6C, 0x6C, 0x6F, 0x03, 0x03, 0x03] ∧
  unpadFaithful [0x41, 0x41, 0x41, 0x41, 0x41, 0x41, 0x03, 0x02] = .ok [0x41, 0x41, 0x41, 0x41, 0x41, 0x41]

/-- R100, R101, R103: `getBit` and `putBit` on byte buffers: a set bit reads back, every other bit and the length stay,
putting what is there changes nothing, and exactly the indices outside `[1, 8·len(S)]` fault. -/
def Obligations.PutBitSetsOneBit : Prop :=
  (∀ (S : List Byte) (i : Nat) (v : Bool), 1 ≤ i → i ≤ 8 * S.length →
    ∃ S', putBit S i v = .ok S' ∧ S'.length = S.length ∧ getBit S' i = .ok v ∧
      ∀ j, j ≠ i → getBit S' j = getBit S j) ∧
  (∀ (S : List Byte) (i : Nat) (v : Bool), getBit S i = .ok v → putBit S i v = .ok S) ∧
  (∀ (S : List Byte) (i : Nat) (v : Bool), i = 0 ∨ 8 * S.length < i →
    getBit S i = .error .indexOutOfRange ∧ putBit S i v = .error .indexOutOfRange)

/-- R102: the buffer form and the bit-string form of `permute` agree for every table whose entries lie in range: output
bit i is input bit T[i], and the fill bits are 0. -/
def Obligations.PermuteBufferAgreesWithBitStrings : Prop :=
  ∀ (T : List Nat) (X : List Byte), (∀ t ∈ T, 1 ≤ t ∧ t ≤ 8 * X.length) →
    ∃ Y, permuteBuffer T X = .ok Y ∧ Y.length = (T.length + 7) / 8 ∧
      (∀ i, 1 ≤ i → i ≤ T.length →
        getBit Y i = getBit X (T.getD (i - 1) 0) ∧
        getBit Y i = .ok (bit (permute T.length T (ofBytes (8 * X.length) X)) i)) ∧
      (∀ i, T.length < i → i ≤ 8 * Y.length → getBit Y i = .ok false)

/-- R103, R110, R111, R113, R114, R130 to R138, R140, R150 to R152: the lengths and entry ranges of the tables, PC-1
leaves out the parity bits, the shifts sum to 28, each S-box row is a permutation of 0 to 15, and FP inverts IP. -/
def Obligations.TablesHaveTheirShapes : Prop :=
  (tablePC1C.length = 28 ∧ tablePC1D.length = 28 ∧
    ∀ i ∈ List.range 65, i ∈ tablePC1C ++ tablePC1D ↔ i % 8 ≠ 0) ∧
  (shifts.length = 16 ∧ shifts.sum = 28 ∧ ∀ x ∈ shifts, x = 1 ∨ x = 2) ∧
  (tablePC2.length = 48 ∧ tablePC2.Nodup ∧ (∀ x ∈ tablePC2.take 24, 1 ≤ x ∧ x ≤ 28) ∧
    (∀ x ∈ tablePC2.drop 24, 29 ≤ x ∧ x ≤ 56)) ∧
  (tableE.length = 48 ∧ ∀ x ∈ tableE, 1 ≤ x ∧ x ≤ 32) ∧
  (sboxes.length = 8 ∧ ∀ box ∈ sboxes, box.length = 4 ∧
    ∀ row ∈ box, row.length = 16 ∧ ∀ v ∈ List.range 16, v ∈ row) ∧
  (tableP.length = 32 ∧ ∀ i ∈ List.range 32, i + 1 ∈ tableP) ∧
  ((tableIPL ++ tableIPR).length = 64 ∧ tableFP.length = 64 ∧
    ∀ i ∈ List.range 64, tableFP.getD ((tableIPL ++ tableIPR).getD i 0 - 1) 0 = i + 1)

/-- R151, R152: `IP_L` ‖ `IP_R` is one 64-entry permutation, and the final permutation undoes it on every block. -/
def Obligations.FinalPermutationInvertsInitial : Prop :=
  (∀ B : Block, permute 32 tableIPL B ++ permute 32 tableIPR B = permute 64 (tableIPL ++ tableIPR) B) ∧
  (∀ B : Block, permute 64 tableFP (permute 64 (tableIPL ++ tableIPR) B) = B) ∧
  (∀ B : Block, permute 64 (tableIPL ++ tableIPR) (permute 64 tableFP B) = B)

/-- R112, R113: the bits of a rotation, its form as a concatenation, and that the sixteen rotations return the half. -/
def Obligations.RotationsMoveBitsLeft : Prop :=
  (∀ (X : KeyHalf) (s i : Nat), s = 1 ∨ s = 2 → 1 ≤ i → i ≤ 28 →
    bit (rotl28 X s) i = bit X ((i - 1 + s) % 28 + 1)) ∧
  (∀ X : KeyHalf, rotl28 X 1 = (slice X 2 27 ++ slice X 1 1 : BitVec 28)) ∧
  (∀ X : KeyHalf, rotl28 X 2 = (slice X 3 26 ++ slice X 1 2 : BitVec 28)) ∧
  (∀ X : KeyHalf, shifts.foldl rotl28 X = X)

/-- R115: the key schedule is the sixteen selections from the rotated halves C[1] to C[16] and D[1] to D[16], which
start from PC-1 and rotate independently. -/
def Obligations.KeyScheduleFollowsItsRounds : Prop :=
  ∀ (K : RawKey) (C D : Nat → KeyHalf),
    C 0 = permute 28 tablePC1C K → D 0 = permute 28 tablePC1D K →
    (∀ r, r < 16 → C (r + 1) = rotl28 (C r) (shifts.getD r 0)) →
    (∀ r, r < 16 → D (r + 1) = rotl28 (D r) (shifts.getD r 0)) →
    (keySchedule K).length = 16 ∧
    (∀ r, r < 16 → (keySchedule K).getD r 0 = permute 48 tablePC2 (C (r + 1) ++ D (r + 1))) ∧
    C 16 = C 0 ∧ D 16 = D 0

/-- R116: keys that differ only in the parity bits 8, 16, …, 64 have the same schedule, and a weak key has one subkey
sixteen times. -/
def Obligations.ParityBitsAreIgnored : Prop :=
  (∀ K K' : RawKey, (∀ i, 1 ≤ i → i ≤ 64 → i % 8 ≠ 0 → bit K i = bit K' i) → keySchedule K = keySchedule K') ∧
  keySchedule 0x0101010101010101 = List.replicate 16 0 ∧
  keySchedule 0xFEFEFEFEFEFEFEFE = List.replicate 16 0xFFFFFFFFFFFF

/-- R130 to R141: every bit of the round function. Output bit i is bit P[i] of the substitution, which lies in the
group g; the group's six bits are those of the expanded half and the subkey, its outer bits give the row and its inner
bits the column. -/
def Obligations.RoundFunctionBits : Prop :=
  ∀ (R : HalfBlock) (K : Subkey) (i : Nat), 1 ≤ i → i ≤ 32 →
    let p := tableP.getD (i - 1) 0
    let g := (p - 1) / 4
    let x := fun k => ((bit R (tableE.getD (6 * g + k - 1) 0)) ^^ (bit K (6 * g + k))).toNat
    bit (roundFunction R K) i =
      (((sboxes.getD g []).getD (2 * x 1 + x 6) []).getD (8 * x 2 + 4 * x 3 + 2 * x 4 + x 5) 0).testBit
        (3 - (p - 1) % 4)

/-- R155: encryption and decryption under one schedule undo each other, for every block and every schedule. -/
def Obligations.BlockCipherInverts : Prop :=
  ∀ (B : Block) (KS : List Subkey),
    decryptBlock (encryptBlock B KS) KS = B ∧ encryptBlock (decryptBlock B KS) KS = B

/-- R154, R116: under a schedule of sixteen equal subkeys decryption is encryption, so encrypting twice under a weak key
gives the block back. -/
def Obligations.WeakKeysEncryptAndDecryptAlike : Prop :=
  (∀ (B : Block) (K : Subkey), decryptBlock B (List.replicate 16 K) = encryptBlock B (List.replicate 16 K)) ∧
  (∀ B : Block, encryptBlock (encryptBlock B (keySchedule 0x0101010101010101)) (keySchedule 0x0101010101010101) = B)

/-- R171, R172: the Triple-DES decryption undoes the encryption and the other way round, under every TripleKey; with
K1 = K2 the encryption is single DES under K3. -/
def Obligations.TripleCipherInverts : Prop :=
  (∀ (B : Block) (TK : TripleKey), tdesDecryptBlock (tdesEncryptBlock B TK) TK = B) ∧
  (∀ (B : Block) (TK : TripleKey), tdesEncryptBlock (tdesDecryptBlock B TK) TK = B) ∧
  (∀ (B : Block) (K K3 : RawKey), tdesEncryptBlock B (K ++ K ++ K3) = encryptBlock B (keySchedule K3))

/-- R175: with three equal RawKeys Triple DES is single DES. -/
def Obligations.EqualKeysReduceToSingleDes : Prop :=
  ∀ (B : Block) (K : RawKey),
    tdesEncryptBlock B (K ++ K ++ K) = encryptBlock B (keySchedule K) ∧
    tdesDecryptBlock B (K ++ K ++ K) = decryptBlock B (keySchedule K)

/-- R195: padding adds 1 to 8 bytes up to a multiple of 8, and unpadding undoes it under both policies. -/
def Obligations.PaddingLaws : Prop :=
  ∀ D : List Byte,
    (padBytes D).length % 8 = 0 ∧ 1 ≤ (padBytes D).length - D.length ∧ (padBytes D).length - D.length ≤ 8 ∧
    unpadBytes .faithful (padBytes D) = .ok D ∧ unpadBytes .strict (padBytes D) = .ok D

/-- R191: faithful unpadding takes as many bytes off as the last byte says, whatever they are; a last byte greater than
the length is MalformedPadding; a last byte 0 takes nothing off. -/
def Obligations.FaithfulUnpadTrustsTheLastByte : Prop :=
  ∀ (D : List Byte) (last : Byte),
    (last = 0 → unpadFaithful (D ++ [last]) = .ok (D ++ [last])) ∧
    (1 ≤ last.toNat → last.toNat ≤ D.length + 1 →
      unpadFaithful (D ++ [last]) = .ok (D.take (D.length + 1 - last.toNat))) ∧
    (D.length + 1 < last.toNat → unpadFaithful (D ++ [last]) = .error .malformedPadding)

/-- R192: on data of whole blocks strict unpadding accepts exactly the padded sequences. On other lengths it also
accepts data that is no `pad(X)` (log entry 13), which the last clause shows. -/
def Obligations.StrictUnpadAcceptsPaddedBlocks : Prop :=
  (∀ D X : List Byte, D.length % 8 = 0 → (unpadStrict D = .ok X ↔ D = padBytes X)) ∧
  (∀ (D : List Byte) (e : EngineError), unpadStrict D = .error e → e = .malformedPadding) ∧
  (∃ D X : List Byte, unpadStrict D = .ok X ∧ D ≠ padBytes X)

/-- R212: each output block depends on its own input block alone: the same block under the same key gives the same
output block at any place of any message, and changing one ciphertext byte changes only its block. -/
def Obligations.BlocksAreIndependent : Prop :=
  (∀ (P : List Byte) (TK : TripleKey) (j : Nat), j < P.length / 8 + 1 →
    messageBlock (encryptMessage P TK) j = tdesEncryptBlock (messageBlock (padBytes P) j) TK) ∧
  (∀ (C : List Byte) (TK : TripleKey) (j : Nat), j < C.length / 8 →
    messageBlock (decryptBlocks C TK) j = tdesDecryptBlock (messageBlock C j) TK) ∧
  (∀ (C : List Byte) (TK : TripleKey) (i j : Nat) (b : Byte), j < C.length / 8 → j ≠ i / 8 →
    messageBlock (decryptBlocks (C.set i b) TK) j = messageBlock (decryptBlocks C TK) j)

/-- R213: the length of a ciphertext, and that a machine given `encrypt`'s output with the same key returns the
plaintext, under either policy, whenever the ciphertext fits IN. -/
def Obligations.EncryptThenDecryptReturnsThePlaintext : Prop :=
  (∀ (P : List Byte) (TK : TripleKey) (policy : UnpadPolicy),
    (encryptMessage P TK).length = 8 * (P.length / 8 + 1) ∧
    decryptMessage policy (encryptMessage P TK) TK = .ok P) ∧
  (∀ (s : State) (K P : List Byte), s.cfg.wf → s.keyLen = 24 → K.length = 24 → bufferHolds s.key 0 K →
    P.length = s.inLen.toNat → P.length ≤ s.cfg.inCap → bufferHolds s.inBuf 0 P →
    ∃ C : List Byte, completesWith .encrypt s C ∧ C.length = 8 * (P.length / 8 + 1) ∧
      ∀ s' : State, s'.keyLen = 24 → bufferHolds s'.key 0 K → s'.inLen.toNat = C.length → C.length ≤ s'.cfg.inCap →
        bufferHolds s'.inBuf 0 C → completesWith .decrypt s' P)

/-- R51 to R54: what a host read answers at every address and width while the engine is not BUSY. Where a wrong width or
a straddling access meets a second reason, the reason reported is the model's choice (log entry 8); addresses from
0x30000 on are the model's reading (log entry 9). -/
def Obligations.HostReadsFollowTheAddressMap : Prop :=
  ∀ s : State, s.cfg.wf → stateField s.status ≠ 1 →
    (hostRead s .w32 0x00000 = .ok s.cmd ∧ hostRead s .w32 0x00004 = .ok s.status ∧
      hostRead s .w32 0x00008 = .ok s.keyLen ∧ hostRead s .w32 0x0000C = .ok s.inLen ∧
      hostRead s .w32 0x00010 = .ok s.outLen) ∧
    (∀ i, i < 24 → hostRead s .w8 (0x00040 + i) = .error .readWriteOnly) ∧
    (∀ i b, i < s.cfg.inCap → Memory.read s.inBuf i = some b → hostRead s .w8 (0x10000 + i) = .ok (b.setWidth 32)) ∧
    (∀ i, i < s.cfg.inCap → Memory.read s.inBuf i = none → hostRead s .w8 (0x10000 + i) = .error .unwrittenRead) ∧
    (∀ i b, i < s.cfg.outCap → Memory.read s.outBuf i = some b → hostRead s .w8 (0x20000 + i) = .ok (b.setWidth 32)) ∧
    (∀ i, i < s.cfg.outCap → Memory.read s.outBuf i = none → hostRead s .w8 (0x20000 + i) = .error .unwrittenRead) ∧
    (∀ a width, a < 0x14 → width ≠ .w32 ∨ a % 4 ≠ 0 → hostRead s width a = .error .badAccessWidth) ∧
    (∀ a width, width ≠ .w8 →
      (0x40 ≤ a ∧ a < 0x58) ∨ (0x10000 ≤ a ∧ a < 0x10000 + s.cfg.inCap) ∨
        (0x20000 ≤ a ∧ a < 0x20000 + s.cfg.outCap) → hostRead s width a = .error .badAccessWidth) ∧
    (∀ a width,
      (0x14 ≤ a ∧ a < 0x40) ∨ (0x58 ≤ a ∧ a < 0x10000) ∨ (0x10000 + s.cfg.inCap ≤ a ∧ a < 0x20000) ∨
        0x20000 + s.cfg.outCap ≤ a → hostRead s width a = .error .unmapped)

/-- R51 to R54: what a host write does at every address and width while the engine is not BUSY (the CMD write is
`CmdWriteStartsTheCommand`). Where a wrong width or a straddling access meets a second reason, the reason reported is
the model's choice (log entry 8); a byte write takes `v[7:0]` (log entry 10). -/
def Obligations.HostWritesFollowTheAddressMap : Prop :=
  ∀ (s : State) (v : Word), s.cfg.wf → stateField s.status ≠ 1 →
    (hostWrite s .w32 0x00008 v = .ok { s with keyLen := v } ∧ hostWrite s .w32 0x0000C v = .ok { s with inLen := v }) ∧
    (hostWrite s .w32 0x00004 v = .error .writeReadOnly ∧ hostWrite s .w32 0x00010 v = .error .writeReadOnly) ∧
    (∀ i, i < 24 →
      hostWrite s .w8 (0x00040 + i) v = .ok { s with key := Memory.write s.key i (v.setWidth 8) }) ∧
    (∀ i, i < s.cfg.inCap →
      hostWrite s .w8 (0x10000 + i) v = .ok { s with inBuf := Memory.write s.inBuf i (v.setWidth 8) }) ∧
    (∀ i, i < s.cfg.outCap → hostWrite s .w8 (0x20000 + i) v = .error .writeReadOnly) ∧
    (∀ a width, a < 0x14 → width ≠ .w32 ∨ a % 4 ≠ 0 → hostWrite s width a v = .error .badAccessWidth) ∧
    (∀ a width, width ≠ .w8 →
      (0x40 ≤ a ∧ a < 0x58) ∨ (0x10000 ≤ a ∧ a < 0x10000 + s.cfg.inCap) ∨
        (0x20000 ≤ a ∧ a < 0x20000 + s.cfg.outCap) → hostWrite s width a v = .error .badAccessWidth) ∧
    (∀ a width,
      (0x14 ≤ a ∧ a < 0x40) ∨ (0x58 ≤ a ∧ a < 0x10000) ∨ (0x10000 + s.cfg.inCap ≤ a ∧ a < 0x20000) ∨
        0x20000 + s.cfg.outCap ≤ a → hostWrite s width a v = .error .unmapped)

/-- R54, R61: a host write other than the CMD write sets its target and nothing else: KEY_LEN and IN_LEN read back as
written, an IN byte as the low byte of the datum, and every other address reads as before at every width. That a byte
write of a datum above 255 stores `v[7:0]`, and that a byte read is zero-extended, is the model's choice (log entry
10). -/
def Obligations.HostWriteThenRead : Prop :=
  (∀ (s t : State) (v : Word) (i : Nat), s.cfg.wf → i < s.cfg.inCap → hostWrite s .w8 (0x10000 + i) v = .ok t →
    hostRead t .w8 (0x10000 + i) = .ok ((v.setWidth 8).setWidth 32)) ∧
  (∀ (s t : State) (v : Word) (a : Nat), a = 0x00008 ∨ a = 0x0000C → hostWrite s .w32 a v = .ok t →
    hostRead t .w32 a = .ok v) ∧
  (∀ (s t : State) (width width' : Width) (v : Word) (a b : Nat), a ≠ 0x00000 → b ≠ a →
    hostWrite s width a v = .ok t → hostRead t width' b = hostRead s width' b)

/-- R59, R54: a host read changes no part of the device, whatever it answers, and a second read of the same address in
the state after it answers the same; so does each of the counted reads of `readout` (R79). -/
def Obligations.HostReadsHaveNoSideEffect : Prop :=
  (∀ (s t : State) (width : Width) (temp a : Nat), hostLine (.read width temp a) s = .next t →
    (t.faultMark = s.faultMark → deviceOf t = deviceOf s ∧ t.schedule = s.schedule) ∧
    hostRead t width a = hostRead s width a ∧
    (∀ v, hostRead s width a = .ok v → temporaryOf t.host temp = v)) ∧
  (∀ (s t : State) (count temp a : Nat), hostLine (.readBytes count temp a) s = .next t →
    (t.faultMark = s.faultMark → deviceOf t = deviceOf s ∧ t.schedule = s.schedule) ∧
    (∀ width b, hostRead t width b = hostRead s width b) ∧
    (∀ v, s.host.index < (temporaryOf s.host count).toNat → hostRead s .w8 (a + s.host.index) = .ok v →
      temporaryOf t.host (temp + s.host.index) = v))

/-- R60: the CMD write as one step, that it faults while STATE = BUSY, and that `pending` is true exactly when
STATE = BUSY. -/
def Obligations.CmdWriteStartsTheCommand : Prop :=
  (∀ (s : State) (w : Word), stateField s.status ≠ 1 →
    hostWrite s .w32 0x00000 w = .ok { s with
      cmd := w, status := 0x00000001, outLen := 0, outBuf := [], pending := true }) ∧
  (∀ (s : State) (w : Word), stateField s.status = 1 → hostWrite s .w32 0x00000 w = .error .busyAccess) ∧
  (∀ s : State, s.Inv → (s.pending = true ↔ stateField s.status = 1))

/-- R263: while STATE = BUSY the host may read STATUS and do nothing else; any other access is the model fault
`BusyAccess`. Where such an access also breaks R52 to R54 (a reserved address, a wrong width at STATUS, a write of
STATUS), that the reason is `BusyAccess` is the model's order of reasons (log entry 8), and that the faulting line
answers a marked next state is its reading of R243 (log entry 5). -/
def Obligations.BusyAllowsOnlyStatusReads : Prop :=
  ∀ s : State, stateField s.status = 1 →
    hostRead s .w32 0x00004 = .ok s.status ∧
    (∀ width a, ¬(width = .w32 ∧ a = 0x00004) → hostRead s width a = .error .busyAccess) ∧
    (∀ width a v, hostWrite s width a v = .error .busyAccess) ∧
    (∀ width a v, ∃ t, hostLine (.write width a v) s = .next t ∧ t.faultMark = some .busyAccess) ∧
    (∀ width temp a, ¬(width = .w32 ∧ a = 0x00004) →
      ∃ t, hostLine (.read width temp a) s = .next t ∧ t.faultMark = some .busyAccess) ∧
    (∀ count temp a, s.host.index < (temporaryOf s.host count).toNat →
      ∃ t, hostLine (.readBytes count temp a) s = .next t ∧ t.faultMark = some .busyAccess)

/-- R64, R263: while a command is pending no step but a reset changes CMD, KEY, KEY_LEN, IN or IN_LEN. -/
def Obligations.BusyFreezesTheInputs : Prop :=
  ∀ s t : State, s.Inv → s.pending = true → s.schedule.head? ≠ some .reset → step s = .next t →
    t.cmd = s.cmd ∧ t.key = s.key ∧ t.keyLen = s.keyLen ∧ t.inBuf = s.inBuf ∧ t.inLen = s.inLen

/-- R264: OUT[i] is readable only when STATE = DONE and i < OUT_LEN, every other OUT byte is unwritten and reading it
faults (while STATE = BUSY the read is `BusyAccess`, R263), and a CMD write invalidates the previous output at once. -/
def Obligations.OutputReadableOnlyWhenDone : Prop :=
  (∀ (s : State) (i : Nat) (v : Word), s.Inv → i < s.cfg.outCap → hostRead s .w8 (0x20000 + i) = .ok v →
    stateField s.status = 2 ∧ i < s.outLen.toNat) ∧
  (∀ (s : State) (i : Nat), s.Inv → stateField s.status = 2 → i < s.outLen.toNat →
    ∃ v, hostRead s .w8 (0x20000 + i) = .ok v) ∧
  (∀ (s : State) (i : Nat), s.Inv → stateField s.status ≠ 1 → s.outLen.toNat ≤ i → i < s.cfg.outCap →
    hostRead s .w8 (0x20000 + i) = .error .unwrittenRead) ∧
  (∀ (s : State) (i : Nat), s.Inv → ¬(stateField s.status = 2 ∧ i < s.outLen.toNat) →
    Memory.read s.outBuf i = none) ∧
  (∀ (s t : State) (w : Word), hostWrite s .w32 0x00000 w = .ok t → ∀ a, Memory.read t.outBuf a = none)

/-- R22, R23, R28, R31, R62: without a pending command, a step that is neither a reset nor the host's CMD write leaves
CMD, STATUS, OUT_LEN and every OUT byte, and starts no command. -/
def Obligations.OutputStaysUntilTheNextCommand : Prop :=
  ∀ s t : State, s.pending = false → s.schedule.head? ≠ some .reset →
    (∀ v, s.host.script[s.host.line]? ≠ some (.write .w32 0x00000 v)) → step s = .next t →
    t.cmd = s.cmd ∧ t.status = s.status ∧ t.outLen = s.outLen ∧ t.pending = false ∧
    ∀ a, Memory.read t.outBuf a = Memory.read s.outBuf a

/-- R241, R242: what an engine error leaves, and that the next CMD write starts a command in the very state it would
have started in without the error. -/
def Obligations.ErrorsAreNotSticky : Prop :=
  ∀ (e : EngineError) (s : State) (w : Word),
    raise e s = .next { s with outLen := 0, status := BitVec.ofNat 32 (3 ||| (e.code <<< 4)), pending := false } ∧
    stateField (afterError e s).status = 3 ∧ errField (afterError e s).status = e.code ∧
    hostWrite (afterError e s) .w32 0x00000 w = .ok { s with
      cmd := w, status := 0x00000001, outLen := 0, outBuf := [], pending := true }

/-- R34, R72, R118: a command's result depends on no KEY or IN byte but those it reads; two machines that differ only
in other bytes end alike. -/
def Obligations.CommandsDependOnlyOnWhatTheyRead : Prop :=
  ∀ (i : Instr) (s : State) (key' inBuf' : Memory), i.wf = true →
    (∀ a, readsKeyByte i a → Memory.read key' a = Memory.read s.key a) →
    (∀ a, readsInByte i s a → Memory.read inBuf' a = Memory.read s.inBuf a) →
    ∃ t, exec i s = .next t ∧
      exec i { s with key := key', inBuf := inBuf' } = .next { t with key := key', inBuf := inBuf' }

/-- R268, under the model's finite schedules (log entry 3): from every running state with a command pending, within one
step more than the schedule's length the command is no longer pending, or a model fault has marked the state. A command
that is no longer pending has completed (R230: with an output or with one engine error) or was abandoned by a reset
(R261); the statement does not tell these apart, and a model fault is no completion. -/
def Obligations.PendingCommandEndsOrFaults : Prop :=
  ∀ s : State, s.running → s.pending = true →
    ∃ k t, 1 ≤ k ∧ k ≤ s.schedule.length + 1 ∧ core.run k s = .next t ∧
      (t.pending = false ∨ t.faultMark ≠ none)

/-- R79, R267: a host that waits in the `wait` loop for any number of turns before the engine's step leaves the device
in the state it would have with no wait. -/
def Obligations.PollsDoNotChangeTheResult : Prop :=
  ∀ (s : State) (w temp polls : Nat), s.running → s.pending = true → s.status = 0x00000001 → s.host.line = w →
    (∀ j, j < 3 → s.host.script[w + j]? = (wait w temp)[j]?) →
    ∃ u v, core.run (polls + 1) { s with schedule := List.replicate polls .host ++ [.engine] } = .next u ∧
      core.run 1 { s with schedule := [.engine] } = .next v ∧ deviceOf u = deviceOf v

/-- R79: while STATE = BUSY the `wait` loop comes back to its first line in three turns of the host, and once
STATE ≠ BUSY it is left in two, the device unchanged. -/
def Obligations.WaitLoopsWhileBusy : Prop :=
  ∀ (s : State) (w temp : Nat), s.running → s.host.line = w →
    (∀ j, j < 3 → s.host.script[w + j]? = (wait w temp)[j]?) →
    (stateField s.status = 1 → ∃ t, core.run 3 { s with schedule := [.host, .host, .host] } = .next t ∧
      t.host.line = w ∧ deviceOf t = deviceOf s) ∧
    (stateField s.status ≠ 1 → ∃ t, core.run 2 { s with schedule := [.host, .host] } = .next t ∧
      t.host.line = w + 3 ∧ deviceOf t = deviceOf s)

/-- R79: the host's `loadin` and `loadkey`, run from a state with no command pending, leave the bytes in IN and KEY and
their count in IN_LEN and KEY_LEN. -/
def Obligations.LoadOperationsFillTheBuffers : Prop :=
  ∀ (s : State) (w : Nat), s.running → s.cfg.wf → s.pending = false → stateField s.status ≠ 1 → s.schedule = [] →
    s.host.line = w →
    (∀ d : List Byte, d.length ≤ s.cfg.inCap →
      (∀ j, j < (loadIn d).length → s.host.script[w + j]? = (loadIn d)[j]?) →
      ∃ t, core.run (d.length + 1) s = .next t ∧ bufferHolds t.inBuf 0 d ∧ t.inLen.toNat = d.length ∧
        t.host.line = w + d.length + 1 ∧ t.key = s.key ∧ t.status = s.status) ∧
    (∀ k : List Byte, k.length = 24 →
      (∀ j, j < (loadKey k).length → s.host.script[w + j]? = (loadKey k)[j]?) →
      ∃ t, core.run 25 s = .next t ∧ bufferHolds t.key 0 k ∧ t.keyLen = 24 ∧
        t.host.line = w + 25 ∧ t.inBuf = s.inBuf ∧ t.status = s.status)

/-- R79: the host's `readout`, run from a state with no command pending whose OUT holds OUT_LEN bytes, leaves OUT_LEN
and then each of those bytes in the host's temporaries, and the device as it was. Its second line takes a turn for each
byte, and one turn where there is none (log entry 16). -/
def Obligations.ReadoutReadsTheOutput : Prop :=
  ∀ (s : State) (w temp : Nat) (S : List Byte), s.running → s.cfg.wf → s.pending = false → stateField s.status ≠ 1 →
    s.schedule = [] → s.host.line = w → (∀ j, j < 2 → s.host.script[w + j]? = (readOut temp)[j]?) →
    s.outLen.toNat = S.length → S.length ≤ s.cfg.outCap → bufferHolds s.outBuf 0 S →
    ∃ t, core.run (1 + max 1 S.length) s = .next t ∧ temporaryOf t.host temp = s.outLen ∧
      (∀ j b, S[j]? = some b → temporaryOf t.host (temp + 1 + j) = b.setWidth 32) ∧
      t.host.line = w + 2 ∧ deviceOf t = deviceOf s
end

