-- ==== Sys2Proof/Laws/BitStrings.lean ====
section
/-! SUPPORT. Laws of bit-strings: equality bit by bit, and the bits of a permutation, a concatenation, a slice and of a
byte sequence (40_bit_addressing.md rules R102, R104, R105; 20_memory.md rule R55). -/

namespace Sys2Proof.Machine

section Bits
variable {n m : Nat}

/-- Bit-strings with the same bits 1 to n are equal. -/
theorem eq_of_bits {X Y : BitVec n} (h : ∀ i, 1 ≤ i → i ≤ n → bit X i = bit Y i) : X = Y := by
  apply BitVec.eq_of_getMsbD_eq
  intro i hi
  simpa [bit] using h (i + 1) (by omega) (by omega)

theorem bit_xor (X Y : BitVec n) (i : Nat) : bit (X ^^^ Y) i = (bit X i ^^ bit Y i) := by simp [bit]

/-- A concatenation has the bits of its left part first (R105). -/
theorem bit_append (X : BitVec n) (Y : BitVec m) {i : Nat} (hi : 1 ≤ i) :
    bit (X ++ Y) i = if i ≤ n then bit X i else bit Y (i - n) := by
  simp only [bit, BitVec.getMsbD_append]
  by_cases h : i ≤ n
  · rw [if_neg (by omega), if_pos h]
  · rw [if_pos (by omega), if_neg h, show i - 1 - n = i - n - 1 from by omega]

/-- Bit i of a number read as a bit-string. -/
theorem bit_ofNat (x : Nat) {i : Nat} (hi : 1 ≤ i) (hn : i ≤ n) : bit (BitVec.ofNat n x) i = x.testBit (n - i) := by
  simp only [bit, BitVec.getMsbD, BitVec.getLsbD_ofNat]
  rw [decide_eq_true (by omega), decide_eq_true (by omega), show n - 1 - (i - 1) = n - i from by omega]
  simp

/-- The bits collected by a fold that shifts one bit in at a time. -/
theorem testBit_foldl_shift (f : Nat → Bool) (T : List Nat) (acc j : Nat) :
    (T.foldl (fun acc t => 2 * acc + (f t).toNat) acc).testBit j =
      if j < T.length then f (T.getD (T.length - 1 - j) 0) else acc.testBit (j - T.length) := by
  induction T generalizing acc with
  | nil => simp
  | cons t T ih =>
    simp only [List.foldl_cons, ih, List.length_cons]
    have hb : ∀ k, (2 * acc + (f t).toNat).testBit k = if k = 0 then f t else acc.testBit (k - 1) := by
      intro k
      cases k with
      | zero => cases f t <;> simp
      | succ k => simp only [Nat.testBit_succ]; cases f t <;> simp [Nat.mul_add_div]
    by_cases h : j < T.length
    · rw [if_pos h, if_pos (by omega), show T.length + 1 - 1 - j = T.length - 1 - j + 1 from by omega]
      simp
    · rw [if_neg h, hb]
      by_cases h' : j = T.length
      · subst h'; simp
      · rw [if_neg (by omega), if_neg (by omega), show j - T.length - 1 = j - (T.length + 1) from by omega]

/-- Output bit i of a permutation is input bit T[i] (R102). -/
theorem bit_permute (T : List Nat) (X : BitVec n) {len i : Nat} (hT : T.length = len) (hi : 1 ≤ i) (hn : i ≤ len) :
    bit (permute len T X) i = bit X (T.getD (i - 1) 0) := by
  unfold permute
  rw [bit_ofNat _ hi hn, testBit_foldl_shift (bit X), if_pos (by omega)]
  congr 2
  omega

/-- The bits of a slice (R8). -/
theorem bit_slice (X : BitVec n) {a len i : Nat} (ha : 1 ≤ a) (hlen : a + len ≤ n + 1) (hi : 1 ≤ i) (hn : i ≤ len) :
    bit (slice X a len) i = bit X (a + i - 1) := by
  simp only [bit, slice, BitVec.getMsbD, BitVec.getLsbD_extractLsb']
  rw [decide_eq_true (by omega : i - 1 < len), decide_eq_true (by omega : a + i - 1 - 1 < n),
    decide_eq_true (by omega : len - 1 - (i - 1) < len),
    show n + 1 - (a + len) + (len - 1 - (i - 1)) = n - 1 - (a + i - 1 - 1) from by omega]
  simp

/-- The bits collected by a fold that shifts one byte in at a time. -/
theorem testBit_foldl_bytes (S : List Byte) (acc j : Nat) :
    (S.foldl (fun acc b => 256 * acc + b.toNat) acc).testBit j =
      if j < 8 * S.length then (S.getD (S.length - 1 - j / 8) 0).getLsbD (j % 8)
      else acc.testBit (j - 8 * S.length) := by
  induction S generalizing acc with
  | nil => simp
  | cons b S ih =>
    simp only [List.foldl_cons, ih, List.length_cons]
    have hb : ∀ k, (256 * acc + b.toNat).testBit k = if k < 8 then b.getLsbD k else acc.testBit (k - 8) := by
      intro k
      rw [show (256 : Nat) = 2 ^ 8 from rfl, Nat.testBit_two_pow_mul_add _ b.isLt]
      rfl
    by_cases h : j < 8 * S.length
    · rw [if_pos h, if_pos (by omega), show S.length + 1 - 1 - j / 8 = S.length - 1 - j / 8 + 1 from by omega]
      simp
    · rw [if_neg h, hb]
      by_cases h' : j < 8 * (S.length + 1)
      · rw [if_pos (by omega), if_pos h', show S.length + 1 - 1 - j / 8 = 0 from by omega,
          show j - 8 * S.length = j % 8 from by omega]
        simp
      · rw [if_neg (by omega), if_neg h', show j - 8 * S.length - 8 = j - 8 * (S.length + 1) from by omega]

/-- Bit i of a byte sequence read as a bit-string (R55). -/
theorem bit_ofBytes {S : List Byte} (hS : 8 * S.length = n) {i : Nat} (hi : 1 ≤ i) (hn : i ≤ n) :
    bit (ofBytes n S) i = (S.getD ((i - 1) / 8) 0).getLsbD (7 - (i - 1) % 8) := by
  unfold ofBytes
  rw [bit_ofNat _ hi hn, testBit_foldl_bytes, if_pos (by omega),
    show S.length - 1 - (n - i) / 8 = (i - 1) / 8 from by omega, show (n - i) % 8 = 7 - (i - 1) % 8 from by omega]

@[simp] theorem length_toBytes (count : Nat) (X : BitVec n) : (toBytes count X).length = count := by simp [toBytes]

/-- Byte j of a bit-string (R56). -/
theorem getElem?_toBytes (X : BitVec n) {count j : Nat} (hj : j < count) :
    (toBytes count X)[j]? = some (slice X (8 * j + 1) 8) := by simp [toBytes, hj]

/-- The bytes a bit-string fills stand for it. -/
theorem ofBytes_toBytes (count : Nat) (X : BitVec (8 * count)) : ofBytes (8 * count) (toBytes count X) = X := by
  refine eq_of_bits fun i hi hn => ?_
  have hj : (i - 1) / 8 < count := by omega
  rw [bit_ofBytes (by simp) hi hn, List.getD_eq_getElem?_getD, getElem?_toBytes X hj, Option.getD_some]
  have h := bit_slice X (a := 8 * ((i - 1) / 8) + 1) (len := 8) (i := (i - 1) % 8 + 1) (by omega) (by omega)
    (by omega) (by omega)
  rw [show 8 * ((i - 1) / 8) + 1 + ((i - 1) % 8 + 1) - 1 = i from by omega] at h
  rw [← h]
  simp only [bit, BitVec.getMsbD]
  rw [decide_eq_true (by omega), show 8 - 1 - ((i - 1) % 8 + 1 - 1) = 7 - (i - 1) % 8 from by omega]
  simp

/-- The bytes of a byte sequence read as a bit-string are the sequence. -/
theorem toBytes_ofBytes (S : List Byte) : toBytes S.length (ofBytes (8 * S.length) S) = S := by
  refine List.ext_getElem? fun j => ?_
  by_cases hj : j < S.length
  · rw [getElem?_toBytes _ hj, List.getElem?_eq_getElem hj]
    refine congrArg some (eq_of_bits fun i hi hn => ?_)
    rw [bit_slice _ (by omega) (by omega) hi hn, bit_ofBytes rfl (by omega) (by omega),
      show (8 * j + 1 + i - 1 - 1) / 8 = j from by omega, show (8 * j + 1 + i - 1 - 1) % 8 = i - 1 from by omega,
      List.getD_eq_getElem?_getD, List.getElem?_eq_getElem hj, Option.getD_some]
    simp only [bit, BitVec.getMsbD]
    rw [decide_eq_true (by omega), show 8 - 1 - (i - 1) = 7 - (i - 1) from by omega]
    simp
  · rw [List.getElem?_eq_none (by simpa using hj), List.getElem?_eq_none (by omega)]

end Bits

end Sys2Proof.Machine
end

