-- ==== Sys2Proof/Laws/Buffers.lean ====
section
/-! SUPPORT. Laws of the byte buffers: read after write, the canonical form and the capacity bound, for one cell and
for a range (20_memory.md rule R53). -/

namespace Sys2Proof.Machine

section OneCell
variable {α : Type}

@[simp] theorem Memory.read_nil (a : Nat) : Memory.read ([] : List (Nat × α)) a = none := rfl

/-- A read answers the value written at its index last, and any other index is as before. -/
theorem Memory.read_write (m : List (Nat × α)) (a b : Nat) (v : α) :
    Memory.read (Memory.write m a v) b = if b = a then some v else Memory.read m b := by
  induction m with
  | nil => simp [Memory.write, Memory.read]
  | cons p m ih =>
    obtain ⟨k, u⟩ := p
    simp only [Memory.write]
    split
    · rfl
    · split
      · next h => subst h; simp only [Memory.read]; split <;> simp_all
      · simp only [Memory.read, ih]
        by_cases hbk : b = k
        · subst hbk; rw [if_pos rfl, if_pos rfl, if_neg (by omega)]
        · rw [if_neg hbk, if_neg hbk]

@[simp] theorem Memory.read_write_same (m : List (Nat × α)) (a : Nat) (v : α) :
    Memory.read (Memory.write m a v) a = some v := by simp [Memory.read_write]

theorem Memory.read_write_other (m : List (Nat × α)) {a b : Nat} (v : α) (h : b ≠ a) :
    Memory.read (Memory.write m a v) b = Memory.read m b := by simp [Memory.read_write, h]

/-- A listed entry after a write is the written one or was listed before. -/
theorem Memory.mem_write {m : List (Nat × α)} {a : Nat} {v : α} {p : Nat × α}
    (h : p ∈ Memory.write m a v) : p = (a, v) ∨ p ∈ m := by
  induction m with
  | nil => simpa [Memory.write] using h
  | cons q m ih =>
    obtain ⟨k, u⟩ := q
    simp only [Memory.write] at h
    split at h
    · simpa using h
    · split at h
      · simp only [List.mem_cons] at h ⊢; tauto
      · simp only [List.mem_cons] at h ⊢
        rcases h with h | h
        · exact .inr (.inl h)
        · exact (ih h).imp_right .inr

theorem Memory.wf_nil : Memory.wf ([] : List (Nat × α)) := List.Pairwise.nil

/-- A write keeps the canonical form. -/
theorem Memory.wf_write {m : List (Nat × α)} (h : Memory.wf m) (a : Nat) (v : α) :
    Memory.wf (Memory.write m a v) := by
  induction m with
  | nil => simp [Memory.write, Memory.wf]
  | cons p m ih =>
    obtain ⟨k, u⟩ := p
    obtain ⟨hk, hm⟩ := List.pairwise_cons.mp h
    simp only [Memory.write]
    split
    · next hlt =>
      refine List.pairwise_cons.mpr ⟨fun q hq => ?_, h⟩
      rcases List.mem_cons.mp hq with rfl | hq
      · exact hlt
      · exact hlt.trans (hk q hq)
    · split
      · next heq => subst heq; exact List.pairwise_cons.mpr ⟨hk, hm⟩
      · refine List.pairwise_cons.mpr ⟨fun q hq => ?_, ih hm⟩
        rcases Memory.mem_write hq with rfl | hq
        · show k < a; omega
        · exact hk q hq

/-- A write below the capacity keeps every index below it. -/
theorem Memory.within_write {m : List (Nat × α)} {cap : Nat} (h : Memory.within m cap) {a : Nat} (ha : a < cap)
    (v : α) : Memory.within (Memory.write m a v) cap := fun p hp => by
  rcases Memory.mem_write hp with rfl | hp
  · exact ha
  · exact h p hp

/-- An index that reads a value is listed. -/
theorem Memory.mem_of_read {m : List (Nat × α)} {a : Nat} {v : α} (h : Memory.read m a = some v) : (a, v) ∈ m := by
  induction m with
  | nil => simp at h
  | cons p m ih =>
    obtain ⟨k, u⟩ := p
    simp only [Memory.read] at h
    split at h
    · simp_all
    · exact List.mem_cons_of_mem _ (ih h)

/-- In canonical form a listed entry is what its index reads. -/
theorem Memory.read_of_mem {m : List (Nat × α)} (hm : Memory.wf m) {a : Nat} {v : α} (h : (a, v) ∈ m) :
    Memory.read m a = some v := by
  induction m with
  | nil => simp at h
  | cons p m ih =>
    obtain ⟨k, u⟩ := p
    obtain ⟨hk, hm⟩ := List.pairwise_cons.mp hm
    simp only [Memory.read]
    rcases List.mem_cons.mp h with h | h
    · simp_all
    · have := hk _ h
      rw [if_neg (by simp only at this; omega)]
      exact ih hm h

/-- Nothing is read at or above the capacity. -/
theorem Memory.read_eq_none_of_within {m : List (Nat × α)} {cap a : Nat} (h : Memory.within m cap) (ha : cap ≤ a) :
    Memory.read m a = none := by
  cases hr : Memory.read m a with
  | none => rfl
  | some v =>
    have := h _ (Memory.mem_of_read hr)
    simp only at this; omega

/-- Equal reads make equal canonical buffers. -/
theorem Memory.ext_read {m m' : List (Nat × α)} (hm : Memory.wf m) (hm' : Memory.wf m')
    (h : ∀ a, Memory.read m a = Memory.read m' a) : m = m' := by
  have hsub : ∀ {x y : List (Nat × α)}, Memory.wf x → Memory.wf y → (∀ a, Memory.read x a = Memory.read y a) → x ⊆ y :=
    fun hx _ hxy p hp => Memory.mem_of_read (by rw [← hxy, Memory.read_of_mem hx hp])
  refine List.Perm.eq_of_pairwise (le := fun p q : Nat × α => p.1 < q.1) ?_ hm hm' ?_
  · intro p q _ _ h1 h2; omega
  · exact (List.perm_ext_iff_of_nodup (hm.imp fun h e => by subst e; omega) (hm'.imp fun h e => by subst e; omega)).mpr
      fun p => ⟨fun hp => hsub hm hm' h hp, fun hp => hsub hm' hm (fun a => (h a).symm) hp⟩

end OneCell

section Ranges
variable {α : Type}

/-- What a buffer reads after a range was written: the written value inside it, as before outside. -/
theorem Memory.read_writeRange (S : List α) (m : List (Nat × α)) (a b : Nat) :
    Memory.read (Memory.writeRange m a S) b =
      if a ≤ b ∧ b < a + S.length then S[b - a]? else Memory.read m b := by
  induction S generalizing m a with
  | nil => simp only [Memory.writeRange, List.length_nil]; rw [if_neg (by omega)]
  | cons v S ih =>
    simp only [Memory.writeRange, ih, Memory.read_write, List.length_cons]
    by_cases hb : b = a
    · subst hb
      rw [if_neg (by omega), if_pos rfl, if_pos (by omega)]
      simp
    · by_cases h : a + 1 ≤ b ∧ b < a + 1 + S.length
      · rw [if_pos h, if_pos (by omega), show b - a = (b - (a + 1)) + 1 from by omega, List.getElem?_cons_succ]
      · rw [if_neg h, if_neg hb, if_neg (by omega)]

/-- Writing a range keeps the canonical form. -/
theorem Memory.wf_writeRange (S : List α) {m : List (Nat × α)} (h : Memory.wf m) (a : Nat) :
    Memory.wf (Memory.writeRange m a S) := by
  induction S generalizing m a with
  | nil => exact h
  | cons v S ih => exact ih (Memory.wf_write h a v) (a + 1)

/-- Writing a range below the capacity keeps every index below it. -/
theorem Memory.within_writeRange (S : List α) {m : List (Nat × α)} {cap : Nat} (h : Memory.within m cap) {a : Nat}
    (ha : a + S.length ≤ cap) : Memory.within (Memory.writeRange m a S) cap := by
  induction S generalizing m a with
  | nil => exact h
  | cons v S ih =>
    simp only [List.length_cons] at ha
    exact ih (Memory.within_write h (by omega) v) (by omega)

/-- A range reads as the list exactly when each of its indices reads the list's element. -/
theorem Memory.readRange_eq_some (S : List α) (m : List (Nat × α)) (a n : Nat) :
    Memory.readRange m a n = some S ↔ S.length = n ∧ ∀ j, j < n → Memory.read m (a + j) = S[j]? := by
  induction n generalizing a S with
  | zero =>
    simp only [Memory.readRange, Option.some.injEq]
    constructor
    · rintro rfl; simp
    · rintro ⟨h, -⟩; exact (List.length_eq_zero_iff.mp h).symm
  | succ n ih =>
    simp only [Memory.readRange]
    constructor
    · intro h
      split at h
      · simp at h
      · next v hv =>
        simp only [Option.map_eq_some_iff] at h
        obtain ⟨T, hT, rfl⟩ := h
        obtain ⟨hl, hr⟩ := (ih T (a + 1)).mp hT
        refine ⟨by simp [hl], fun j hj => ?_⟩
        cases j with
        | zero => simpa using hv
        | succ j => simpa [Nat.add_assoc, Nat.add_comm 1] using hr j (by omega)
    · rintro ⟨hl, hr⟩
      obtain ⟨v, T, rfl⟩ : ∃ v T, S = v :: T := by cases S <;> simp_all
      have hv : Memory.read m a = some v := by simpa using hr 0 (by omega)
      rw [hv]
      simp only [Option.map_eq_some_iff]
      refine ⟨T, (ih T (a + 1)).mpr ⟨by simpa using hl, fun j hj => ?_⟩, rfl⟩
      simpa [Nat.add_assoc, Nat.add_comm 1] using hr (j + 1) (by omega)

/-- A range cannot be read exactly when one of its indices is unwritten. -/
theorem Memory.readRange_eq_none (m : List (Nat × α)) (a n : Nat) :
    Memory.readRange m a n = none ↔ ∃ j, j < n ∧ Memory.read m (a + j) = none := by
  induction n generalizing a with
  | zero => simp [Memory.readRange]
  | succ n ih =>
    simp only [Memory.readRange]
    cases hv : Memory.read m a with
    | none => simp only [true_iff]; exact ⟨0, by omega, by simpa using hv⟩
    | some v =>
      simp only [Option.map_eq_none_iff, ih]
      constructor
      · rintro ⟨j, hj, h⟩; exact ⟨j + 1, by omega, by simpa [Nat.add_assoc, Nat.add_comm 1] using h⟩
      · rintro ⟨j, hj, h⟩
        cases j with
        | zero => simp_all
        | succ j => exact ⟨j, by omega, by simpa [Nat.add_assoc, Nat.add_comm 1] using h⟩

end Ranges

/-- A buffer that holds the bytes reads as them. -/
theorem readRange_of_bufferHolds {m : Memory} {a n : Nat} {S : List Byte} (hn : S.length = n) (h : bufferHolds m a S) :
    Memory.readRange m a n = some S := (Memory.readRange_eq_some S m a n).mpr ⟨hn, fun j hj => h j (hn ▸ hj)⟩

/-- A buffer holds the bytes written into it. -/
theorem bufferHolds_writeRange (m : Memory) (a : Nat) (S : List Byte) :
    bufferHolds (Memory.writeRange m a S) a S := fun j hj => by
  rw [Memory.read_writeRange, if_pos (by omega), show a + j - a = j from by omega]

/-- The buffers are in canonical form after power-on and after every reset. -/
theorem wf_reset : (Memory.wf State.reset.key ∧ Memory.wf State.reset.inBuf ∧ Memory.wf State.reset.outBuf) ∧
    ∀ s : State, Memory.wf (resetInput s).key ∧ Memory.wf (resetInput s).inBuf ∧ Memory.wf (resetInput s).outBuf :=
  ⟨⟨Memory.wf_nil, Memory.wf_nil, Memory.wf_nil⟩, fun _ => ⟨Memory.wf_nil, Memory.wf_nil, Memory.wf_nil⟩⟩

end Sys2Proof.Machine
end

