-- ==== Sys2Proof/Laws/State.lean ====
section
/-! SUPPORT. What each state update of the machine does to each field, true by unfolding the record once. -/

namespace Sys2Proof.Machine

@[simp] theorem startCommand_cmd (w : Word) (s : State) : (startCommand w s).cmd = w := rfl
@[simp] theorem startCommand_status (w : Word) (s : State) : (startCommand w s).status = statusBusy := rfl
@[simp] theorem startCommand_keyLen (w : Word) (s : State) : (startCommand w s).keyLen = s.keyLen := rfl
@[simp] theorem startCommand_inLen (w : Word) (s : State) : (startCommand w s).inLen = s.inLen := rfl
@[simp] theorem startCommand_outLen (w : Word) (s : State) : (startCommand w s).outLen = 0 := rfl
@[simp] theorem startCommand_key (w : Word) (s : State) : (startCommand w s).key = s.key := rfl
@[simp] theorem startCommand_inBuf (w : Word) (s : State) : (startCommand w s).inBuf = s.inBuf := rfl
@[simp] theorem startCommand_outBuf (w : Word) (s : State) : (startCommand w s).outBuf = [] := rfl
@[simp] theorem startCommand_pending (w : Word) (s : State) : (startCommand w s).pending = true := rfl
@[simp] theorem startCommand_faultMark (w : Word) (s : State) : (startCommand w s).faultMark = s.faultMark := rfl
@[simp] theorem startCommand_cfg (w : Word) (s : State) : (startCommand w s).cfg = s.cfg := rfl
@[simp] theorem startCommand_host (w : Word) (s : State) : (startCommand w s).host = s.host := rfl
@[simp] theorem startCommand_schedule (w : Word) (s : State) : (startCommand w s).schedule = s.schedule := rfl

@[simp] theorem afterSuccess_cmd (S : List Byte) (s : State) : (afterSuccess S s).cmd = s.cmd := rfl
@[simp] theorem afterSuccess_status (S : List Byte) (s : State) : (afterSuccess S s).status = statusDone := rfl
@[simp] theorem afterSuccess_keyLen (S : List Byte) (s : State) : (afterSuccess S s).keyLen = s.keyLen := rfl
@[simp] theorem afterSuccess_inLen (S : List Byte) (s : State) : (afterSuccess S s).inLen = s.inLen := rfl
@[simp] theorem afterSuccess_outLen (S : List Byte) (s : State) : (afterSuccess S s).outLen = BitVec.ofNat 32 S.length := rfl
@[simp] theorem afterSuccess_key (S : List Byte) (s : State) : (afterSuccess S s).key = s.key := rfl
@[simp] theorem afterSuccess_inBuf (S : List Byte) (s : State) : (afterSuccess S s).inBuf = s.inBuf := rfl
@[simp] theorem afterSuccess_outBuf (S : List Byte) (s : State) : (afterSuccess S s).outBuf = Memory.writeRange s.outBuf 0 S := rfl
@[simp] theorem afterSuccess_pending (S : List Byte) (s : State) : (afterSuccess S s).pending = false := rfl
@[simp] theorem afterSuccess_faultMark (S : List Byte) (s : State) : (afterSuccess S s).faultMark = s.faultMark := rfl
@[simp] theorem afterSuccess_cfg (S : List Byte) (s : State) : (afterSuccess S s).cfg = s.cfg := rfl
@[simp] theorem afterSuccess_host (S : List Byte) (s : State) : (afterSuccess S s).host = s.host := rfl
@[simp] theorem afterSuccess_schedule (S : List Byte) (s : State) : (afterSuccess S s).schedule = s.schedule := rfl

@[simp] theorem afterError_cmd (e : EngineError) (s : State) : (afterError e s).cmd = s.cmd := rfl
@[simp] theorem afterError_status (e : EngineError) (s : State) : (afterError e s).status = statusError e := rfl
@[simp] theorem afterError_keyLen (e : EngineError) (s : State) : (afterError e s).keyLen = s.keyLen := rfl
@[simp] theorem afterError_inLen (e : EngineError) (s : State) : (afterError e s).inLen = s.inLen := rfl
@[simp] theorem afterError_outLen (e : EngineError) (s : State) : (afterError e s).outLen = 0 := rfl
@[simp] theorem afterError_key (e : EngineError) (s : State) : (afterError e s).key = s.key := rfl
@[simp] theorem afterError_inBuf (e : EngineError) (s : State) : (afterError e s).inBuf = s.inBuf := rfl
@[simp] theorem afterError_outBuf (e : EngineError) (s : State) : (afterError e s).outBuf = s.outBuf := rfl
@[simp] theorem afterError_pending (e : EngineError) (s : State) : (afterError e s).pending = false := rfl
@[simp] theorem afterError_faultMark (e : EngineError) (s : State) : (afterError e s).faultMark = s.faultMark := rfl
@[simp] theorem afterError_cfg (e : EngineError) (s : State) : (afterError e s).cfg = s.cfg := rfl
@[simp] theorem afterError_host (e : EngineError) (s : State) : (afterError e s).host = s.host := rfl
@[simp] theorem afterError_schedule (e : EngineError) (s : State) : (afterError e s).schedule = s.schedule := rfl

@[simp] theorem afterFault_cmd (r : Fault) (s : State) : (afterFault r s).cmd = s.cmd := rfl
@[simp] theorem afterFault_status (r : Fault) (s : State) : (afterFault r s).status = s.status := rfl
@[simp] theorem afterFault_keyLen (r : Fault) (s : State) : (afterFault r s).keyLen = s.keyLen := rfl
@[simp] theorem afterFault_inLen (r : Fault) (s : State) : (afterFault r s).inLen = s.inLen := rfl
@[simp] theorem afterFault_outLen (r : Fault) (s : State) : (afterFault r s).outLen = s.outLen := rfl
@[simp] theorem afterFault_key (r : Fault) (s : State) : (afterFault r s).key = s.key := rfl
@[simp] theorem afterFault_inBuf (r : Fault) (s : State) : (afterFault r s).inBuf = s.inBuf := rfl
@[simp] theorem afterFault_outBuf (r : Fault) (s : State) : (afterFault r s).outBuf = s.outBuf := rfl
@[simp] theorem afterFault_pending (r : Fault) (s : State) : (afterFault r s).pending = s.pending := rfl
@[simp] theorem afterFault_faultMark (r : Fault) (s : State) : (afterFault r s).faultMark = some r := rfl
@[simp] theorem afterFault_cfg (r : Fault) (s : State) : (afterFault r s).cfg = s.cfg := rfl
@[simp] theorem afterFault_host (r : Fault) (s : State) : (afterFault r s).host = s.host := rfl
@[simp] theorem afterFault_schedule (r : Fault) (s : State) : (afterFault r s).schedule = s.schedule := rfl

@[simp] theorem resetInput_cmd (s : State) : (resetInput s).cmd = 0 := rfl
@[simp] theorem resetInput_status (s : State) : (resetInput s).status = statusIdle := rfl
@[simp] theorem resetInput_keyLen (s : State) : (resetInput s).keyLen = 0 := rfl
@[simp] theorem resetInput_inLen (s : State) : (resetInput s).inLen = 0 := rfl
@[simp] theorem resetInput_outLen (s : State) : (resetInput s).outLen = 0 := rfl
@[simp] theorem resetInput_key (s : State) : (resetInput s).key = [] := rfl
@[simp] theorem resetInput_inBuf (s : State) : (resetInput s).inBuf = [] := rfl
@[simp] theorem resetInput_outBuf (s : State) : (resetInput s).outBuf = [] := rfl
@[simp] theorem resetInput_pending (s : State) : (resetInput s).pending = false := rfl
@[simp] theorem resetInput_faultMark (s : State) : (resetInput s).faultMark = s.faultMark := rfl
@[simp] theorem resetInput_cfg (s : State) : (resetInput s).cfg = s.cfg := rfl
@[simp] theorem resetInput_host (s : State) : (resetInput s).host = s.host := rfl
@[simp] theorem resetInput_schedule (s : State) : (resetInput s).schedule = s.schedule := rfl

@[simp] theorem goToLine_cmd (line : Nat) (s : State) : (goToLine line s).cmd = s.cmd := rfl
@[simp] theorem goToLine_status (line : Nat) (s : State) : (goToLine line s).status = s.status := rfl
@[simp] theorem goToLine_keyLen (line : Nat) (s : State) : (goToLine line s).keyLen = s.keyLen := rfl
@[simp] theorem goToLine_inLen (line : Nat) (s : State) : (goToLine line s).inLen = s.inLen := rfl
@[simp] theorem goToLine_outLen (line : Nat) (s : State) : (goToLine line s).outLen = s.outLen := rfl
@[simp] theorem goToLine_key (line : Nat) (s : State) : (goToLine line s).key = s.key := rfl
@[simp] theorem goToLine_inBuf (line : Nat) (s : State) : (goToLine line s).inBuf = s.inBuf := rfl
@[simp] theorem goToLine_outBuf (line : Nat) (s : State) : (goToLine line s).outBuf = s.outBuf := rfl
@[simp] theorem goToLine_pending (line : Nat) (s : State) : (goToLine line s).pending = s.pending := rfl
@[simp] theorem goToLine_faultMark (line : Nat) (s : State) : (goToLine line s).faultMark = s.faultMark := rfl
@[simp] theorem goToLine_cfg (line : Nat) (s : State) : (goToLine line s).cfg = s.cfg := rfl
@[simp] theorem goToLine_host (line : Nat) (s : State) : (goToLine line s).host = { s.host with line := line, index := 0 } := rfl
@[simp] theorem goToLine_schedule (line : Nat) (s : State) : (goToLine line s).schedule = s.schedule := rfl

@[simp] theorem nextIndex_cmd (s : State) : (nextIndex s).cmd = s.cmd := rfl
@[simp] theorem nextIndex_status (s : State) : (nextIndex s).status = s.status := rfl
@[simp] theorem nextIndex_keyLen (s : State) : (nextIndex s).keyLen = s.keyLen := rfl
@[simp] theorem nextIndex_inLen (s : State) : (nextIndex s).inLen = s.inLen := rfl
@[simp] theorem nextIndex_outLen (s : State) : (nextIndex s).outLen = s.outLen := rfl
@[simp] theorem nextIndex_key (s : State) : (nextIndex s).key = s.key := rfl
@[simp] theorem nextIndex_inBuf (s : State) : (nextIndex s).inBuf = s.inBuf := rfl
@[simp] theorem nextIndex_outBuf (s : State) : (nextIndex s).outBuf = s.outBuf := rfl
@[simp] theorem nextIndex_pending (s : State) : (nextIndex s).pending = s.pending := rfl
@[simp] theorem nextIndex_faultMark (s : State) : (nextIndex s).faultMark = s.faultMark := rfl
@[simp] theorem nextIndex_cfg (s : State) : (nextIndex s).cfg = s.cfg := rfl
@[simp] theorem nextIndex_host (s : State) : (nextIndex s).host = { s.host with index := s.host.index + 1 } := rfl
@[simp] theorem nextIndex_schedule (s : State) : (nextIndex s).schedule = s.schedule := rfl

@[simp] theorem assignTemporary_cmd (t : Nat) (v : Word) (s : State) : (assignTemporary t v s).cmd = s.cmd := rfl
@[simp] theorem assignTemporary_status (t : Nat) (v : Word) (s : State) : (assignTemporary t v s).status = s.status := rfl
@[simp] theorem assignTemporary_keyLen (t : Nat) (v : Word) (s : State) : (assignTemporary t v s).keyLen = s.keyLen := rfl
@[simp] theorem assignTemporary_inLen (t : Nat) (v : Word) (s : State) : (assignTemporary t v s).inLen = s.inLen := rfl
@[simp] theorem assignTemporary_outLen (t : Nat) (v : Word) (s : State) : (assignTemporary t v s).outLen = s.outLen := rfl
@[simp] theorem assignTemporary_key (t : Nat) (v : Word) (s : State) : (assignTemporary t v s).key = s.key := rfl
@[simp] theorem assignTemporary_inBuf (t : Nat) (v : Word) (s : State) : (assignTemporary t v s).inBuf = s.inBuf := rfl
@[simp] theorem assignTemporary_outBuf (t : Nat) (v : Word) (s : State) : (assignTemporary t v s).outBuf = s.outBuf := rfl
@[simp] theorem assignTemporary_pending (t : Nat) (v : Word) (s : State) : (assignTemporary t v s).pending = s.pending := rfl
@[simp] theorem assignTemporary_faultMark (t : Nat) (v : Word) (s : State) : (assignTemporary t v s).faultMark = s.faultMark := rfl
@[simp] theorem assignTemporary_cfg (t : Nat) (v : Word) (s : State) : (assignTemporary t v s).cfg = s.cfg := rfl
@[simp] theorem assignTemporary_host (t : Nat) (v : Word) (s : State) : (assignTemporary t v s).host = { s.host with temporaries := Memory.write s.host.temporaries t v } := rfl
@[simp] theorem assignTemporary_schedule (t : Nat) (v : Word) (s : State) : (assignTemporary t v s).schedule = s.schedule := rfl

@[simp] theorem deviceOf_cmd (s : State) : (deviceOf s).cmd = s.cmd := rfl
@[simp] theorem deviceOf_status (s : State) : (deviceOf s).status = s.status := rfl
@[simp] theorem deviceOf_keyLen (s : State) : (deviceOf s).keyLen = s.keyLen := rfl
@[simp] theorem deviceOf_inLen (s : State) : (deviceOf s).inLen = s.inLen := rfl
@[simp] theorem deviceOf_outLen (s : State) : (deviceOf s).outLen = s.outLen := rfl
@[simp] theorem deviceOf_key (s : State) : (deviceOf s).key = s.key := rfl
@[simp] theorem deviceOf_inBuf (s : State) : (deviceOf s).inBuf = s.inBuf := rfl
@[simp] theorem deviceOf_outBuf (s : State) : (deviceOf s).outBuf = s.outBuf := rfl
@[simp] theorem deviceOf_pending (s : State) : (deviceOf s).pending = s.pending := rfl
@[simp] theorem deviceOf_faultMark (s : State) : (deviceOf s).faultMark = s.faultMark := rfl
@[simp] theorem deviceOf_cfg (s : State) : (deviceOf s).cfg = s.cfg := rfl
@[simp] theorem deviceOf_host (s : State) : (deviceOf s).host = { script := [], line := 0, index := 0, temporaries := [] } := rfl
@[simp] theorem deviceOf_schedule (s : State) : (deviceOf s).schedule = [] := rfl

@[simp] theorem withFetchWord_cmd (s : State) (nbits w : Nat) : (s.withFetchWord nbits w).cmd = BitVec.ofNat 32 (w % 2 ^ nbits) := rfl
@[simp] theorem withFetchWord_status (s : State) (nbits w : Nat) : (s.withFetchWord nbits w).status = statusBusy := rfl
@[simp] theorem withFetchWord_keyLen (s : State) (nbits w : Nat) : (s.withFetchWord nbits w).keyLen = s.keyLen := rfl
@[simp] theorem withFetchWord_inLen (s : State) (nbits w : Nat) : (s.withFetchWord nbits w).inLen = s.inLen := rfl
@[simp] theorem withFetchWord_outLen (s : State) (nbits w : Nat) : (s.withFetchWord nbits w).outLen = 0 := rfl
@[simp] theorem withFetchWord_key (s : State) (nbits w : Nat) : (s.withFetchWord nbits w).key = s.key := rfl
@[simp] theorem withFetchWord_inBuf (s : State) (nbits w : Nat) : (s.withFetchWord nbits w).inBuf = s.inBuf := rfl
@[simp] theorem withFetchWord_outBuf (s : State) (nbits w : Nat) : (s.withFetchWord nbits w).outBuf = [] := rfl
@[simp] theorem withFetchWord_pending (s : State) (nbits w : Nat) : (s.withFetchWord nbits w).pending = true := rfl
@[simp] theorem withFetchWord_faultMark (s : State) (nbits w : Nat) : (s.withFetchWord nbits w).faultMark = s.faultMark := rfl
@[simp] theorem withFetchWord_cfg (s : State) (nbits w : Nat) : (s.withFetchWord nbits w).cfg = s.cfg := rfl
@[simp] theorem withFetchWord_host (s : State) (nbits w : Nat) : (s.withFetchWord nbits w).host = s.host := rfl
@[simp] theorem withFetchWord_schedule (s : State) (nbits w : Nat) : (s.withFetchWord nbits w).schedule = .engine :: s.schedule := rfl

/-- Two states with the same fields are the same state. -/
theorem State.ext_fields {s t : State} (cmd : s.cmd = t.cmd) (status : s.status = t.status)
    (keyLen : s.keyLen = t.keyLen) (inLen : s.inLen = t.inLen) (outLen : s.outLen = t.outLen) (key : s.key = t.key)
    (inBuf : s.inBuf = t.inBuf) (outBuf : s.outBuf = t.outBuf) (pending : s.pending = t.pending)
    (faultMark : s.faultMark = t.faultMark) (cfg : s.cfg = t.cfg) (host : s.host = t.host)
    (schedule : s.schedule = t.schedule) : s = t := by
  cases s; cases t; simp_all

end Sys2Proof.Machine
end

