-- ==== Sys2Proof/Laws/HostPort.lean ====
section
/-! SUPPORT. What the address map answers, in both directions (20_memory.md rule R51). -/

namespace Sys2Proof.Machine

/-- Everything a register address can be. -/
theorem registerTarget_cases (a : Nat) :
    (a = 0x00 ∧ registerTarget a = .cmd) ∨ (a = 0x04 ∧ registerTarget a = .status) ∨
    (a = 0x08 ∧ registerTarget a = .keyLen) ∨ (a = 0x0C ∧ registerTarget a = .inLen) ∨
    (a = 0x10 ∧ registerTarget a = .outLen) ∨
    (a < 0x14 ∧ a % 4 ≠ 0 ∧ registerTarget a = .insideRegister) ∨
    (0x14 ≤ a ∧ registerTarget a = .reserved) := by
  unfold registerTarget
  split_ifs <;> simp_all
  omega

/-- Everything a window address can be. -/
theorem targetOf_cases (c : Config) (a : Nat) :
    (a < 0x40 ∧ targetOf c a = registerTarget a) ∨
    (∃ i, i < 24 ∧ a = 0x40 + i ∧ targetOf c a = .keyByte i) ∨
    (∃ i, i < c.inCap ∧ i < 0x10000 ∧ a = 0x10000 + i ∧ targetOf c a = .inByte i) ∨
    (∃ i, i < c.outCap ∧ a = 0x20000 + i ∧ targetOf c a = .outByte i) ∨
    (0x40 ≤ a ∧ targetOf c a = .reserved) := by
  unfold targetOf bufferTarget
  by_cases h1 : a < 0x40
  · exact .inl ⟨h1, by simp [h1]⟩
  rw [if_neg h1]
  by_cases h2 : a < 0x10000
  · rw [if_pos h2]
    by_cases h : a - 0x40 < 24
    · exact .inr (.inl ⟨a - 0x40, h, by omega, by rw [if_pos h]⟩)
    · exact .inr (.inr (.inr (.inr ⟨by omega, by rw [if_neg h]⟩)))
  rw [if_neg h2]
  by_cases h3 : a < 0x20000
  · rw [if_pos h3]
    by_cases h : a - 0x10000 < c.inCap
    · exact .inr (.inr (.inl ⟨a - 0x10000, h, by omega, by omega, by rw [if_pos h]⟩))
    · exact .inr (.inr (.inr (.inr ⟨by omega, by rw [if_neg h]⟩)))
  rw [if_neg h3]
  by_cases h : a - 0x20000 < c.outCap
  · exact .inr (.inr (.inr (.inl ⟨a - 0x20000, h, by omega, by rw [if_pos h]⟩)))
  · exact .inr (.inr (.inr (.inr ⟨by omega, by rw [if_neg h]⟩)))

/-- The KEY bytes' addresses. -/
theorem targetOf_key (c : Config) {i : Nat} (h : i < 24) : targetOf c (0x00040 + i) = .keyByte i := by
  simp (disch := omega) only [targetOf, bufferTarget, if_neg, if_pos, Nat.add_sub_cancel_left]

/-- The IN bytes' addresses. -/
theorem targetOf_in {c : Config} {i : Nat} (h : i < c.inCap) (hi : i < 0x10000) :
    targetOf c (0x10000 + i) = .inByte i := by
  simp (disch := omega) only [targetOf, bufferTarget, if_neg, if_pos, Nat.add_sub_cancel_left]

/-- The OUT bytes' addresses. -/
theorem targetOf_out {c : Config} {i : Nat} (h : i < c.outCap) : targetOf c (0x20000 + i) = .outByte i := by
  simp (disch := omega) only [targetOf, bufferTarget, if_neg, if_pos, Nat.add_sub_cancel_left]

/-- The addresses of KEY bytes. -/
theorem eq_of_targetOf_key {c : Config} {a i : Nat} (h : targetOf c a = .keyByte i) : i < 24 ∧ a = 0x00040 + i := by
  rcases targetOf_cases c a with ⟨-, e⟩ | ⟨j, hj, ha, e⟩ | ⟨j, -, -, -, e⟩ | ⟨j, -, -, e⟩ | ⟨-, e⟩ <;> rw [e] at h
  · rcases registerTarget_cases a with ⟨-, e⟩ | ⟨-, e⟩ | ⟨-, e⟩ | ⟨-, e⟩ | ⟨-, e⟩ | ⟨-, -, e⟩ | ⟨-, e⟩ <;>
      rw [e] at h <;> cases h
  · cases h; exact ⟨hj, ha⟩
  · cases h
  · cases h
  · cases h

/-- The addresses of IN bytes. -/
theorem eq_of_targetOf_in {c : Config} {a i : Nat} (h : targetOf c a = .inByte i) :
    i < c.inCap ∧ a = 0x10000 + i := by
  rcases targetOf_cases c a with ⟨-, e⟩ | ⟨j, -, -, e⟩ | ⟨j, hj, -, ha, e⟩ | ⟨j, -, -, e⟩ | ⟨-, e⟩ <;> rw [e] at h
  · rcases registerTarget_cases a with ⟨-, e⟩ | ⟨-, e⟩ | ⟨-, e⟩ | ⟨-, e⟩ | ⟨-, e⟩ | ⟨-, -, e⟩ | ⟨-, e⟩ <;>
      rw [e] at h <;> cases h
  · cases h
  · cases h; exact ⟨hj, ha⟩
  · cases h
  · cases h

/-- The one address of a register or buffer byte. -/
def addressOf : Target → Option Nat
  | .cmd => some 0x00000
  | .status => some 0x00004
  | .keyLen => some 0x00008
  | .inLen => some 0x0000C
  | .outLen => some 0x00010
  | .keyByte i => some (0x00040 + i)
  | .inByte i => some (0x10000 + i)
  | .outByte i => some (0x20000 + i)
  | .insideRegister => none
  | .reserved => none

/-- A register or buffer byte answers at its one address only. -/
theorem addressOf_targetOf (c : Config) (a : Nat) :
    addressOf (targetOf c a) = some a ∨ targetOf c a = .insideRegister ∨ targetOf c a = .reserved := by
  rcases targetOf_cases c a with ⟨-, e⟩ | ⟨i, -, ha, e⟩ | ⟨i, -, -, ha, e⟩ | ⟨i, -, ha, e⟩ | ⟨-, e⟩ <;> rw [e]
  · rcases registerTarget_cases a with ⟨ha, e⟩ | ⟨ha, e⟩ | ⟨ha, e⟩ | ⟨ha, e⟩ | ⟨ha, e⟩ | ⟨-, -, e⟩ | ⟨-, e⟩ <;>
      rw [e] <;> simp_all [addressOf]
  all_goals simp_all [addressOf]

/-- Two addresses that belong to the same register or buffer byte are equal. -/
theorem eq_of_targetOf_eq {c : Config} {a b : Nat} (h : targetOf c a = targetOf c b)
    (hr : targetOf c a ≠ .reserved) (hi : targetOf c a ≠ .insideRegister) : a = b := by
  have ha := (addressOf_targetOf c a).resolve_right (by simp [hr, hi])
  have hb := (addressOf_targetOf c b).resolve_right (by rw [← h]; simp [hr, hi])
  rw [h, hb] at ha
  exact (Option.some.inj ha).symm

/-- What a host read answers depends on the device alone, not on the host or the schedule. -/
theorem hostRead_congr {s t : State} (h : deviceOf t = deviceOf s) (width : Width) (a : Nat) :
    hostRead t width a = hostRead s width a := by
  have hcmd := congrArg State.cmd h
  have hstatus := congrArg State.status h
  have hkeyLen := congrArg State.keyLen h
  have hinLen := congrArg State.inLen h
  have houtLen := congrArg State.outLen h
  have hinBuf := congrArg State.inBuf h
  have houtBuf := congrArg State.outBuf h
  have hcfg := congrArg State.cfg h
  simp only [deviceOf_cmd, deviceOf_status, deviceOf_keyLen, deviceOf_inLen, deviceOf_outLen, deviceOf_inBuf,
    deviceOf_outBuf, deviceOf_cfg] at hcmd hstatus hkeyLen hinLen houtLen hinBuf houtBuf hcfg
  simp [hostRead, hostMayRead, isBusy, hcmd, hstatus, hkeyLen, hinLen, houtLen, hinBuf, houtBuf, hcfg]

end Sys2Proof.Machine
end

