-- ==== Sys2Proof/Laws/Lengths.lean ====
section
/-! SUPPORT. The lengths of what the cipher and the padding produce, and the blocks of a mapped message. -/

namespace Sys2Proof.Machine

@[simp] theorem length_keyRounds (ss : List Nat) (C D : KeyHalf) : (keyRounds ss C D).length = ss.length := by
  induction ss generalizing C D with
  | nil => rfl
  | cons s ss ih => simp [keyRounds, ih]

@[simp] theorem length_keySchedule (K : RawKey) : (keySchedule K).length = 16 := by
  simp [keySchedule, shifts]

/-- A flat map of pieces of one length. -/
theorem length_flatMap_const {α β : Type} (f : α → List β) (c : Nat) (h : ∀ x, (f x).length = c) (l : List α) :
    (l.flatMap f).length = c * l.length := by
  induction l with
  | nil => simp
  | cons x l ih => simp [ih, h, Nat.mul_add, Nat.add_comm]

/-- Piece j of a flat map of pieces of one length. -/
theorem drop_take_flatMap_const {α β : Type} (f : α → List β) (c : Nat) (h : ∀ x, (f x).length = c) (l : List α)
    {j : Nat} (hj : j < l.length) : ((l.flatMap f).drop (c * j)).take c = f l[j] := by
  induction l generalizing j with
  | nil => simp at hj
  | cons x l ih =>
    cases j with
    | zero => simp [h]
    | succ j =>
      have hlen : c * (j + 1) = (f x).length + c * j := by rw [h]; ring
      simp only [List.flatMap_cons, hlen, List.drop_append, List.getElem_cons_succ]
      rw [List.drop_eq_nil_of_le (by omega), List.nil_append, show (f x).length + c * j - (f x).length = c * j by omega]
      exact ih (by simpa using hj)

@[simp] theorem length_subkeyBytes (KS : List Subkey) : (subkeyBytes KS).length = 6 * KS.length :=
  length_flatMap_const _ 6 (fun _ => length_toBytes 6 _) KS

theorem length_padBytes (D : List Byte) : (padBytes D).length = 8 * (D.length / 8 + 1) := by
  simp only [padBytes, padCount, List.length_append, List.length_replicate]; omega

theorem length_mapBlocks (transform : Block → Block) (S : List Byte) :
    (mapBlocks transform S).length = 8 * (S.length / 8) := by
  unfold mapBlocks
  rw [length_flatMap_const _ 8 (fun _ => length_toBytes 8 _), List.length_range]

/-- Block j of a mapped message is the transform of block j. -/
theorem drop_take_mapBlocks (transform : Block → Block) (S : List Byte) {j : Nat} (hj : j < S.length / 8) :
    ((mapBlocks transform S).drop (8 * j)).take 8 = toBytes 8 (transform (messageBlock S j)) := by
  unfold mapBlocks
  rw [drop_take_flatMap_const _ 8 (fun _ => length_toBytes 8 _) _ (by simpa using hj)]
  simp

/-- Unpadding never lengthens its input. -/
theorem length_unpadBytes_le {policy : UnpadPolicy} {D P : List Byte} (h : unpadBytes policy D = .ok P) :
    P.length ≤ D.length := by
  cases policy
  · simp only [unpadBytes, unpadFaithful] at h
    split at h
    · cases h
    · cases h; simp
  · simp only [unpadBytes, unpadStrict] at h
    split at h
    · cases h
    · split at h
      · cases h; simp
      · cases h

/-- The only error of unpadding is MalformedPadding (R234). -/
theorem unpadBytes_error {policy : UnpadPolicy} {D : List Byte} {e : EngineError}
    (h : unpadBytes policy D = .error e) : e = .malformedPadding := by
  cases policy
  · simp only [unpadBytes, unpadFaithful] at h
    split at h
    · cases h; rfl
    · cases h
  · simp only [unpadBytes, unpadStrict] at h
    split at h
    · cases h; rfl
    · split at h
      · cases h
      · cases h; rfl

end Sys2Proof.Machine
end

