-- ==== Sys2Proof/Laws/Operations.lean ====
section
/-! SUPPORT. Everything a shared operation can answer, one lemma each: the checks, the operand reads, completion and a
turn of an agent (60_exceptions.md rules R239 to R243). -/

namespace Sys2Proof.Machine

theorem succeed_next {S : List Byte} {s t : State} : succeed S s = .next t ↔ t = afterSuccess S s := by
  simp [succeed, eq_comm]

theorem raise_next {e : EngineError} {s t : State} : raise e s = .next t ↔ t = afterError e s := by
  simp [raise, eq_comm]

theorem modelFault_next {r : Fault} {s t : State} : modelFault r s = .next t ↔ t = afterFault r s := by
  simp [modelFault, eq_comm]

/-- Completion succeeds with the output or raises the error. -/
theorem complete_cases (result : Except EngineError (List Byte)) (s : State) :
    (∃ S, result = .ok S ∧ complete result s = succeed S s) ∨
      ∃ e, result = .error e ∧ complete result s = raise e s := by
  cases result with
  | ok S => exact .inl ⟨S, rfl, rfl⟩
  | error e => exact .inr ⟨e, rfl, rfl⟩

/-- An operand read goes on with the operand or marks the state. -/
theorem withOperand_cases {α : Type} (operand : Option α) (s : State) (next : α → StepResult) :
    (∃ v, operand = some v ∧ withOperand operand s next = next v) ∨
      operand = none ∧ withOperand operand s next = modelFault .unwrittenRead s := by
  cases operand with
  | some v => exact .inl ⟨v, rfl, rfl⟩
  | none => exact .inr ⟨rfl, rfl⟩

@[simp] theorem withOperand_some {α : Type} (v : α) (s : State) (next : α → StepResult) :
    withOperand (some v) s next = next v := rfl

@[simp] theorem withOperand_none {α : Type} (s : State) (next : α → StepResult) :
    withOperand none s next = modelFault .unwrittenRead s := rfl

section Checks
variable {s : State} {next : StepResult}

theorem requireKeySelect_pass {ksel : BitVec 2} (h : keySelectLegal ksel = true) :
    requireKeySelect ksel s next = next := if_pos h

theorem requireKeySelect_fail {ksel : BitVec 2} (h : keySelectLegal ksel = false) :
    requireKeySelect ksel s next = raise .illegalCommand s := by simp [requireKeySelect, h]

theorem requireKeyLength_pass (h : s.keyLen = 24) : requireKeyLength s next = next := if_pos h

theorem requireKeyLength_fail (h : s.keyLen ≠ 24) : requireKeyLength s next = raise .invalidKeyLength s := if_neg h

theorem requireInputFits_pass (h : s.inLen.toNat ≤ s.cfg.inCap) : requireInputFits s next = next := if_pos h

theorem requireInputFits_fail (h : s.cfg.inCap < s.inLen.toNat) :
    requireInputFits s next = raise .capacityExceeded s := if_neg (Nat.not_le.mpr h)

theorem requireOneBlock_pass (h : s.inLen = 8) : requireOneBlock s next = next := if_pos h

theorem requireOneBlock_fail (h : s.inLen ≠ 8) : requireOneBlock s next = raise .invalidBlockLength s := if_neg h

theorem requireWholeBlocks_pass (h : s.inLen.toNat ≠ 0) (h' : s.inLen.toNat % 8 = 0) :
    requireWholeBlocks s next = next := if_neg (by tauto)

theorem requireWholeBlocks_fail (h : s.inLen.toNat = 0 ∨ s.inLen.toNat % 8 ≠ 0) :
    requireWholeBlocks s next = raise .invalidCiphertextLength s := if_pos h

theorem requireLastByte_pass (h : s.inLen.toNat ≠ 0) : requireLastByte s next = next := if_neg h

theorem requireLastByte_fail (h : s.inLen.toNat = 0) : requireLastByte s next = raise .malformedPadding s := if_pos h

end Checks

section Operands
variable {s : State}

theorem rawKeyOf_some {ksel : BitVec 2} {K : List Byte} (hK : K.length = 8)
    (h : bufferHolds s.key (8 * ksel.toNat) K) : rawKeyOf s ksel = some (ofBytes 64 K) := by
  simp [rawKeyOf, readRange_of_bufferHolds hK h]

theorem rawKeyOf_none {ksel : BitVec 2} {j : Nat} (hj : j < 8)
    (h : Memory.read s.key (8 * ksel.toNat + j) = none) : rawKeyOf s ksel = none := by
  simp [rawKeyOf, (Memory.readRange_eq_none _ _ _).mpr ⟨j, hj, h⟩]

theorem tripleKeyOf_some {K : List Byte} (hK : K.length = 24) (h : bufferHolds s.key 0 K) :
    tripleKeyOf s = some (ofBytes 192 K) := by simp [tripleKeyOf, readRange_of_bufferHolds hK h]

theorem tripleKeyOf_none {a : Nat} (ha : a < 24) (h : Memory.read s.key a = none) : tripleKeyOf s = none := by
  simp [tripleKeyOf, (Memory.readRange_eq_none s.key 0 24).mpr ⟨a, ha, by simpa using h⟩]

theorem blockOf_some {B : List Byte} (hB : B.length = 8) (h : bufferHolds s.inBuf 0 B) :
    blockOf s = some (ofBytes 64 B) := by simp [blockOf, readRange_of_bufferHolds hB h]

theorem blockOf_none {a : Nat} (ha : a < 8) (h : Memory.read s.inBuf a = none) : blockOf s = none := by
  simp [blockOf, (Memory.readRange_eq_none s.inBuf 0 8).mpr ⟨a, ha, by simpa using h⟩]

theorem inputOf_some {D : List Byte} (hD : D.length = s.inLen.toNat) (h : bufferHolds s.inBuf 0 D) :
    inputOf s = some D := readRange_of_bufferHolds hD h

theorem inputOf_none {a : Nat} (ha : a < s.inLen.toNat) (h : Memory.read s.inBuf a = none) : inputOf s = none :=
  (Memory.readRange_eq_none s.inBuf 0 s.inLen.toNat).mpr ⟨a, ha, by simpa using h⟩

/-- The input read has the length IN_LEN. -/
theorem length_of_inputOf {D : List Byte} (h : inputOf s = some D) : D.length = s.inLen.toNat :=
  ((Memory.readRange_eq_some D s.inBuf 0 s.inLen.toNat).mp h).1

end Operands

theorem requireKeySelect_cases (ksel : BitVec 2) (s : State) (next : StepResult) :
    (keySelectLegal ksel = true ∧ requireKeySelect ksel s next = next) ∨
      keySelectLegal ksel = false ∧ requireKeySelect ksel s next = raise .illegalCommand s := by
  unfold requireKeySelect; cases keySelectLegal ksel <;> simp

theorem requireKeyLength_cases (s : State) (next : StepResult) :
    (s.keyLen = 24 ∧ requireKeyLength s next = next) ∨
      s.keyLen ≠ 24 ∧ requireKeyLength s next = raise .invalidKeyLength s := by
  unfold requireKeyLength
  by_cases h : s.keyLen = 24
  · exact .inl ⟨h, if_pos h⟩
  · exact .inr ⟨h, if_neg h⟩

theorem requireInputFits_cases (s : State) (next : StepResult) :
    (s.inLen.toNat ≤ s.cfg.inCap ∧ requireInputFits s next = next) ∨
      s.cfg.inCap < s.inLen.toNat ∧ requireInputFits s next = raise .capacityExceeded s := by
  unfold requireInputFits
  by_cases h : s.inLen.toNat ≤ s.cfg.inCap
  · exact .inl ⟨h, if_pos h⟩
  · exact .inr ⟨by omega, if_neg h⟩

theorem requireOneBlock_cases (s : State) (next : StepResult) :
    (s.inLen = 8 ∧ requireOneBlock s next = next) ∨
      s.inLen ≠ 8 ∧ requireOneBlock s next = raise .invalidBlockLength s := by
  unfold requireOneBlock
  by_cases h : s.inLen = 8
  · exact .inl ⟨h, if_pos h⟩
  · exact .inr ⟨h, if_neg h⟩

theorem requireWholeBlocks_cases (s : State) (next : StepResult) :
    (s.inLen.toNat ≠ 0 ∧ s.inLen.toNat % 8 = 0 ∧ requireWholeBlocks s next = next) ∨
      (s.inLen.toNat = 0 ∨ s.inLen.toNat % 8 ≠ 0) ∧
        requireWholeBlocks s next = raise .invalidCiphertextLength s := by
  unfold requireWholeBlocks
  by_cases h : s.inLen.toNat = 0 ∨ s.inLen.toNat % 8 ≠ 0
  · exact .inr ⟨h, if_pos h⟩
  · exact .inl ⟨by tauto, by tauto, if_neg h⟩

theorem requireLastByte_cases (s : State) (next : StepResult) :
    (s.inLen.toNat ≠ 0 ∧ requireLastByte s next = next) ∨
      s.inLen.toNat = 0 ∧ requireLastByte s next = raise .malformedPadding s := by
  unfold requireLastByte
  by_cases h : s.inLen.toNat = 0
  · exact .inr ⟨h, if_pos h⟩
  · exact .inl ⟨h, if_neg h⟩

/-- A turn of an agent in a running machine is the agent's move. -/
theorem agentTurn_running {s : State} (h : s.faultMark = none) (turn : State → StepResult) :
    agentTurn turn s = turn s := by simp [agentTurn, h]

/-- A marked state has no turn. -/
theorem agentTurn_marked {s : State} {r : Fault} (h : s.faultMark = some r) (turn : State → StepResult) :
    agentTurn turn s = .fault r := by simp [agentTurn, h]

/-- Everything a step can be: a reset, an agent's turn that the schedule names, or the default turn. -/
theorem step_cases (s : State) :
    (∃ rest, s.schedule = .reset :: rest ∧ step s = .next (resetInput { s with schedule := rest })) ∨
    (∃ rest, s.schedule = .engine :: rest ∧ step s = agentTurn engineTurn { s with schedule := rest }) ∨
    (∃ rest, s.schedule = .host :: rest ∧ step s = agentTurn hostTurn { s with schedule := rest }) ∨
    (s.schedule = [] ∧ s.pending = true ∧ step s = agentTurn engineTurn s) ∨
    (s.schedule = [] ∧ s.pending = false ∧ step s = agentTurn hostTurn s) := by
  have hd : s.schedule = [] → step s = agentTurn defaultTurn s := fun h => by unfold step; rw [h]
  cases h : s.schedule with
  | nil =>
    cases hp : s.pending with
    | true =>
      refine .inr (.inr (.inr (.inl ⟨rfl, rfl, ?_⟩)))
      rw [hd h]; unfold agentTurn; cases s.faultMark <;> simp [defaultTurn, hp]
    | false =>
      refine .inr (.inr (.inr (.inr ⟨rfl, rfl, ?_⟩)))
      rw [hd h]; unfold agentTurn; cases s.faultMark <;> simp [defaultTurn, hp]
  | cons t rest =>
    cases t with
    | host => exact .inr (.inr (.inl ⟨rest, rfl, by unfold step; rw [h]⟩))
    | engine => exact .inr (.inl ⟨rest, rfl, by unfold step; rw [h]⟩)
    | reset => exact .inl ⟨rest, rfl, by unfold step; rw [h]⟩

/-- A run goes on from the state its first step answers. -/
theorem run_of_step_next {s t : State} (h : step s = .next t) (k : Nat) :
    Sys2Proof.core.run (k + 1) s = Sys2Proof.core.run k t := by
  have hc : Sys2Proof.core.step s = .next t := h
  simp only [Host.Core.run, hc]

/-- Everything the engine's turn can be. -/
theorem engineTurn_cases (s : State) :
    (s.pending = false ∧ engineTurn s = .next s) ∨
    (s.pending = true ∧ ∃ i, decode s.cmd = .ok i ∧ engineTurn s = exec i s) ∨
    (s.pending = true ∧ ∃ e, decode s.cmd = .error e ∧ engineTurn s = raise .illegalCommand s) := by
  unfold engineTurn
  cases hp : s.pending with
  | false => simp
  | true => cases hd : decode s.cmd <;> simp

/-- Everything a successful host write can have done. -/
theorem hostWrite_ok {s t : State} {width : Width} {a : Nat} {v : Word} (h : hostWrite s width a v = .ok t) :
    isBusy s = false ∧
    ((width = .w32 ∧ targetOf s.cfg a = .cmd ∧ t = startCommand v s) ∨
     (width = .w32 ∧ targetOf s.cfg a = .keyLen ∧ t = { s with keyLen := v }) ∨
     (width = .w32 ∧ targetOf s.cfg a = .inLen ∧ t = { s with inLen := v }) ∨
     (∃ i, width = .w8 ∧ targetOf s.cfg a = .keyByte i ∧ t = { s with key := Memory.write s.key i (v.setWidth 8) }) ∨
     (∃ i, width = .w8 ∧ targetOf s.cfg a = .inByte i ∧ t = { s with inBuf := Memory.write s.inBuf i (v.setWidth 8) })) := by
  unfold hostWrite at h
  split at h
  · cases h
  · next hb =>
    refine ⟨by simpa using hb, ?_⟩
    split at h <;> cases h <;> simp_all

/-- An assigned temporary holds what was assigned last, and any other is as before. -/
theorem temporaryOf_assignTemporary (s : State) (t u : Nat) (v : Word) :
    temporaryOf (assignTemporary t v s).host u = if u = t then v else temporaryOf s.host u := by
  by_cases h : u = t <;> simp [temporaryOf, Memory.read_write, h]

/-- Going to another line leaves the temporaries. -/
@[simp] theorem temporaryOf_goToLine (s : State) (line u : Nat) :
    temporaryOf (goToLine line s).host u = temporaryOf s.host u := rfl

/-- Turning to the next counted read leaves the temporaries. -/
@[simp] theorem temporaryOf_nextIndex (s : State) (u : Nat) :
    temporaryOf (nextIndex s).host u = temporaryOf s.host u := rfl

/-- After a counted read the host is at the next line or at the next counted read. -/
theorem afterCountedRead_cases (n : Nat) (s : State) :
    (s.host.index + 1 < n ∧ afterCountedRead n s = nextIndex s) ∨
      n ≤ s.host.index + 1 ∧ afterCountedRead n s = goToLine (s.host.line + 1) s := by
  unfold afterCountedRead
  split
  · exact .inl ⟨‹_›, rfl⟩
  · exact .inr ⟨by omega, rfl⟩

/-- Everything the host's turn can be: nothing, a model fault, going to another line with no access, a read into a
temporary after which the host goes on to the next line or to the next counted read, or a write. -/
theorem hostTurn_cases (s : State) :
    hostTurn s = .next s ∨
    (∃ r, hostTurn s = modelFault r s) ∨
    (∃ line, hostTurn s = .next (goToLine line s)) ∨
    (∃ width a t v, hostRead s width a = .ok v ∧
      (hostTurn s = .next (goToLine (s.host.line + 1) (assignTemporary t v s)) ∨
        hostTurn s = .next (nextIndex (assignTemporary t v s)))) ∨
    (∃ width a v t, s.host.script[s.host.line]? = some (.write width a v) ∧
      hostWrite s width a (valueOf s.host v) = .ok t ∧ hostTurn s = .next (goToLine (s.host.line + 1) t)) := by
  unfold hostTurn
  cases ho : s.host.script[s.host.line]? with
  | none => exact .inl rfl
  | some op =>
    cases op with
    | write width a v =>
      cases hw : hostWrite s width a (valueOf s.host v) with
      | ok t => exact .inr (.inr (.inr (.inr ⟨width, a, v, t, rfl, hw, by simp [hostLine, hw]⟩)))
      | error r => exact .inr (.inl ⟨r, by simp [hostLine, hw]⟩)
    | read width t a =>
      cases hr : hostRead s width a with
      | ok v => exact .inr (.inr (.inr (.inl ⟨width, a, t, v, hr, .inl (by simp [hostLine, hr])⟩)))
      | error r => exact .inr (.inl ⟨r, by simp [hostLine, hr]⟩)
    | branchNotEqual t hi lo v target => exact .inr (.inr (.inl ⟨_, rfl⟩))
    | branch target => exact .inr (.inr (.inl ⟨_, rfl⟩))
    | readBytes count t a =>
      by_cases hi : s.host.index < (temporaryOf s.host count).toNat
      · cases hr : hostRead s .w8 (a + s.host.index) with
        | ok v =>
          refine .inr (.inr (.inr (.inl ⟨.w8, _, t + s.host.index, v, hr, ?_⟩)))
          rcases afterCountedRead_cases (temporaryOf s.host count).toNat (assignTemporary (t + s.host.index) v s) with
            ⟨-, h⟩ | ⟨-, h⟩
          · exact .inr (by simp [hostLine, hi, hr, h])
          · exact .inl (by simp [hostLine, hi, hr, h])
        | error r => exact .inr (.inl ⟨r, by simp [hostLine, hi, hr]⟩)
      · exact .inr (.inr (.inl ⟨s.host.line + 1, by simp [hostLine, hi]⟩))

end Sys2Proof.Machine
end

