-- ==== Sys2Proof/Laws/PerInstr.lean ====
section
/-! SUPPORT. The words of every command against its row of the opcode table: the operand-free bits of the encoding are
the row's `match` under its `mask` (30_encoding.md rules R70 to R73). -/

namespace Sys2Proof.Laws.Encoding

/-- The `mask` of a command's row of the opcode table: all bits but KSEL where the row has that operand. -/
def rowMask : Instr → Word
  | .nop => 0xFFFFFFFF
  | .encrypt => 0xFFFFFFFF
  | .decrypt => 0xFFFFFFFF
  | .tdesEnc => 0xFFFFFFFF
  | .tdesDec => 0xFFFFFFFF
  | .desEnc _ => 0xFFFFFFCF
  | .desDec _ => 0xFFFFFFCF
  | .pad => 0xFFFFFFFF
  | .unpad => 0xFFFFFFFF
  | .keysched _ => 0xFFFFFFCF

/-- The `match` of a command's row of the opcode table. -/
def rowMatch : Instr → Word
  | .nop => 0x00000000
  | .encrypt => 0x00000001
  | .decrypt => 0x00000002
  | .tdesEnc => 0x00000003
  | .tdesDec => 0x00000004
  | .desEnc _ => 0x00000005
  | .desDec _ => 0x00000006
  | .pad => 0x00000007
  | .unpad => 0x00000008
  | .keysched _ => 0x00000009

/-- The encoding matches the row, and its KSEL field `w[5:4]` is the operand (R70, R72). -/
def Statement (i : Instr) : Prop :=
  encode i &&& rowMask i = rowMatch i ∧ bitField (encode i) 5 4 = (keySelectOf i).toNat

theorem nop : Statement .nop := ⟨by decide, by decide⟩
theorem encrypt : Statement .encrypt := ⟨by decide, by decide⟩
theorem decrypt : Statement .decrypt := ⟨by decide, by decide⟩
theorem tdesEnc : Statement .tdesEnc := ⟨by decide, by decide⟩
theorem tdesDec : Statement .tdesDec := ⟨by decide, by decide⟩
theorem desEnc (ksel : BitVec 2) : Statement (.desEnc ksel) := ⟨by revert ksel; decide, by revert ksel; decide⟩
theorem desDec (ksel : BitVec 2) : Statement (.desDec ksel) := ⟨by revert ksel; decide, by revert ksel; decide⟩
theorem pad : Statement .pad := ⟨by decide, by decide⟩
theorem unpad : Statement .unpad := ⟨by decide, by decide⟩
theorem keysched (ksel : BitVec 2) : Statement (.keysched ksel) := ⟨by revert ksel; decide, by revert ksel; decide⟩

end Sys2Proof.Laws.Encoding
end

