-- ==== Sys2Proof/Tests/Slice0.lean ====
section
/-! SUPPORT. The model's own tests: words written out from the encoding of spec/30_encoding.md, the vectors of
spec/95_test_vectors.md on single steps of small machines, and a witness for the hypotheses of every statement. -/

open Sys2Proof Sys2Proof.Machine

namespace Sys2Proof.Tests

-- One theorem at a time: each waits for the kernel, and each waiting thread reserves its own stack.
set_option Elab.async false

/-- Small capacities: IN holds 16 bytes, OUT the 96 of `keysched`. -/
def smallConfig (policy : UnpadPolicy) : Config := { inCap := 16, outCap := 96, unpadPolicy := policy }

/-- A machine with the bytes of `key` and `input` loaded and their counts in KEY_LEN and IN_LEN. -/
def loaded (key input : List Byte) (policy : UnpadPolicy := .faithful) : State :=
  { State.powerOn (smallConfig policy) with
    key := Memory.writeRange [] 0 key
    keyLen := BitVec.ofNat 32 key.length
    inBuf := Memory.writeRange [] 0 input
    inLen := BitVec.ofNat 32 input.length }

/-- The bytes of a 64-bit number. -/
def bytes64 (v : Nat) : List Byte := toBytes 8 (BitVec.ofNat 64 v)

/-- The key `b"123456789012345678901234"` of the vectors. -/
def vectorKey : List Byte := bytes64 0x3132333435363738 ++ bytes64 0x3930313233343536 ++ bytes64 0x3738393031323334

/-- The key KT of the V-TDES vectors. -/
def keyKT : List Byte := bytes64 0x0123456789ABCDEF ++ bytes64 0x23456789ABCDEF01 ++ bytes64 0x456789ABCDEF0123

/-- What a test looks at: STATUS, OUT_LEN and the written bytes of OUT. -/
def shown (r : StepResult) : Option (Word × Word × List Byte) :=
  match r with
  | .next t => some (t.status, t.outLen, t.outBuf.map Prod.snd)
  | .fault _ => none
  | .refused _ => none

/-- Whether a step marks the state with this model fault. -/
def marks (reason : Fault) (r : StepResult) : Bool :=
  match r with
  | .next t => t.faultMark == some reason
  | .fault _ => false
  | .refused _ => false

/-- Whether decoding rejects a word by this rule. -/
def rejects (rule : IllegalWord) (w : Word) : Bool :=
  match decode w with
  | .ok _ => false
  | .error e => e == rule

/-! ### Ill-formed terms (R72, R75) -/

theorem test_wf_refuses_desEnc_ksel3 : (Instr.desEnc 3).wf = false := by decide
theorem test_wf_refuses_desDec_ksel3 : (Instr.desDec 3).wf = false := by decide
theorem test_wf_refuses_keysched_ksel3 : (Instr.keysched 3).wf = false := by decide
theorem test_wf_accepts_legal_commands : ∀ i ∈ legalCommands, i.wf = true := by decide

/-! ### Words written out field by field: RSV, KSEL, OP (R70 to R76, V-DEC-W1 to V-DEC-W11) -/

theorem test_decode_nop : decode 0b00000000000000000000000000_00_0000 = .ok .nop := by decide
theorem test_decode_encrypt : decode 0b00000000000000000000000000_00_0001 = .ok .encrypt := by decide
theorem test_decode_decrypt : decode 0b00000000000000000000000000_00_0010 = .ok .decrypt := by decide
theorem test_decode_tdesEnc : decode 0b00000000000000000000000000_00_0011 = .ok .tdesEnc := by decide
theorem test_decode_tdesDec : decode 0b00000000000000000000000000_00_0100 = .ok .tdesDec := by decide
theorem test_decode_desEnc_k1 : decode 0b00000000000000000000000000_00_0101 = .ok (.desEnc 0) := by decide
theorem test_decode_desEnc_k2 : decode 0b00000000000000000000000000_01_0101 = .ok (.desEnc 1) := by decide
theorem test_decode_desDec_k1 : decode 0b00000000000000000000000000_00_0110 = .ok (.desDec 0) := by decide
theorem test_decode_desDec_k3 : decode 0b00000000000000000000000000_10_0110 = .ok (.desDec 2) := by decide
theorem test_decode_pad : decode 0b00000000000000000000000000_00_0111 = .ok .pad := by decide
theorem test_decode_unpad : decode 0b00000000000000000000000000_00_1000 = .ok .unpad := by decide
theorem test_decode_keysched_k2 : decode 0b00000000000000000000000000_01_1001 = .ok (.keysched 1) := by decide
theorem test_decode_ksel3 : [0x00000035, 0x00000036, 0x00000039].all (rejects .badKeySelect) = true := by decide
theorem test_decode_stray_ksel : [0x00000011, 0x00000010, 0x00000027].all (rejects .badKeySelect) = true := by decide
theorem test_decode_reserved_op : [0x0000000A, 0x0000000B, 0x0000000C, 0x0000000D, 0x0000000E, 0x0000000F].all
    (rejects .reservedOp) = true := by decide
theorem test_decode_reserved_bits : [0x00000040, 0x80000001, 0xFFFFFFFF].all (rejects .reservedBits) = true := by decide
theorem test_encode_written : assemble "des.dec k3" = some 0x00000026 ∧ assemble "encrypt" = some 0x00000001 := by
  decide
theorem test_decodeTableWord : decodeTableWord 32 0x19 = some (.keysched 1) ∧ decodeTableWord 32 0x39 = none := by
  decide
theorem test_placed_command_runs : shown (step (State.reset.withFetchWord 32 0x00000000)) = some (0x2, 0, []) := by
  decide

/-! ### One command on a small machine (95_test_vectors.md) -/

/-- V-ERR-11. -/
theorem test_nop : shown (exec .nop (loaded [] [])) = some (0x00000002, 0, []) := by decide
/-- V-MSG-3. -/
theorem test_encrypt : shown (exec .encrypt (loaded vectorKey [0x41])) =
    some (0x00000002, 8, bytes64 0xC981FED17585F2AE) := by decide +kernel
/-- V-ERR-9. -/
theorem test_encrypt_without_key : shown (exec .encrypt (loaded [] [])) = some (0x00000013, 0, []) := by decide
/-- V-DEC-5. -/
theorem test_decrypt : shown (exec .decrypt (loaded vectorKey (bytes64 0xCE94A353881B1609))) =
    some (0x00000002, 7, List.replicate 7 0x41) := by decide +kernel
/-- V-DEC-2. -/
theorem test_decrypt_malformed : shown (exec .decrypt (loaded vectorKey (bytes64 0x7FE34FE6A1E61029))) =
    some (0x00000033, 0, []) := by decide +kernel
/-- V-TDES-2. -/
theorem test_tdesEnc : shown (exec .tdesEnc (loaded keyKT (bytes64 0x6B2062726F776E20))) =
    some (0x00000002, 8, bytes64 0xCCE21C8112256FE6) := by decide +kernel
/-- V-TDES-6. -/
theorem test_tdesDec : shown (exec .tdesDec (loaded keyKT (bytes64 0x68D5C05DD9B6B900))) =
    some (0x00000002, 8, bytes64 0x666F78206A756D70) := by decide +kernel
/-- V-ERR-6. -/
theorem test_tdesDec_no_block : shown (exec .tdesDec (loaded keyKT [])) = some (0x00000053, 0, []) := by decide
/-- V-DES-9, the key in the third of KEY that k3 selects. -/
theorem test_desEnc_k3 : shown (exec (.desEnc 2)
    (loaded (bytes64 0 ++ bytes64 0 ++ bytes64 0x0E329232EA6D0D73) (bytes64 0x8787878787878787))) =
    some (0x00000002, 8, bytes64 0) := by decide +kernel
/-- V-ERR-5. -/
theorem test_desEnc_two_blocks : shown (exec (.desEnc 0) (loaded keyKT (bytes64 0 ++ bytes64 0))) =
    some (0x00000053, 0, []) := by decide
/-- V-DES-2, the key in the third of KEY that k2 selects. -/
theorem test_desDec_k2 : shown (exec (.desDec 1)
    (loaded (bytes64 0 ++ bytes64 0x0123456789ABCDEF ++ bytes64 0) (bytes64 0x3FA40E8A984D4815))) =
    some (0x00000002, 8, bytes64 0x4E6F772069732074) := by decide +kernel
/-- V-PAD-2. -/
theorem test_pad : shown (exec .pad (loaded [] [0x41])) =
    some (0x00000002, 8, [0x41, 0x07, 0x07, 0x07, 0x07, 0x07, 0x07, 0x07]) := by decide
/-- V-PAD-5. -/
theorem test_pad_whole_block : shown (exec .pad (loaded [] (bytes64 0x3132333435363738))) =
    some (0x00000002, 16, bytes64 0x3132333435363738 ++ List.replicate 8 0x08) := by decide
/-- V-UNP-9. -/
theorem test_unpad_faithful : shown (exec .unpad (loaded [] (bytes64 0x0909090909090909 ++ bytes64 0x5555555555555509))) =
    some (0x00000002, 7, List.replicate 7 0x09) := by decide
/-- V-UNP-7 under STRICT. -/
theorem test_unpad_strict : shown (exec .unpad (loaded [] (bytes64 0x4141414141410302) .strict)) =
    some (0x00000033, 0, []) := by decide
/-- V-KS-1, KS[1] and KS[16]. -/
theorem test_keysched : (shown (exec (.keysched 0) (loaded (bytes64 0x133457799BBCDFF1 ++ List.replicate 16 0) []))).map
      (fun r => (r.2.1, r.2.2.take 6, r.2.2.drop 90)) =
    some (96, [0x1B, 0x02, 0xEF, 0xFC, 0x70, 0x72], [0xCB, 0x3D, 0x8B, 0x0E, 0x17, 0xF5]) := by decide +kernel
/-- V-ERR-12: only the selected third is read. -/
theorem test_keysched_reads_one_third : let s := { loaded (List.replicate 8 0x01) [] with keyLen := 24 }
    shown (exec (.keysched 0) s) = some (0x00000002, 96, List.replicate 96 0) ∧
      marks .unwrittenRead (exec (.keysched 1) s) = true := by decide +kernel

/-! ### Bits, the round function and the host (95_test_vectors.md) -/

/-- V-BIT-11. -/
theorem test_permuteBuffer : permuteBuffer [16, 15, 14, 13, 12, 11, 10, 9, 8, 7, 6, 5] [0xA5, 0x0F] =
    .ok [0xF0, 0xA0] := by rfl
/-- V-BIT-8. -/
theorem test_putBit : putBit [0xFF] 8 false = .ok [0xFE] := by rfl
/-- V-F-2. -/
theorem test_roundFunction : roundFunction 0xFFFFFFFF 0xFFFFFFFFFFFF = 0xD8D8DBBC := by decide +kernel
/-- V-ERR-1: a decoding error comes before every other. -/
theorem test_illegal_first : shown (engineTurn (startCommand 0x00000035 (loaded [] (List.replicate 7 0)))) =
    some (0x00000043, 0, []) := by decide
/-- V-ERR-10. -/
theorem test_unwritten_input : marks .unwrittenRead (exec .decrypt { loaded vectorKey [] with inLen := 16 }) = true := by
  decide +kernel
/-- R263: a KEY write while STATE = BUSY. -/
theorem test_busy_access : marks .busyAccess
    (hostLine (.write .w8 0x00040 (.literal 0)) (startCommand 0x00000000 (loaded [] []))) = true := by decide
/-- R243: a marked state has no further step. -/
theorem test_marked_stops : (match step { State.reset with faultMark := some .unmapped } with
    | .fault r => r == Fault.unmapped
    | .next _ => false
    | .refused _ => false) = true := by decide

/-! ### Witnesses: concrete states and operands that meet the hypotheses of each statement, one clause at a time, at the
boundaries of their ranges. A statement without a hypothesis has none here. -/

/-- Twenty-four key bytes and `n` input bytes. -/
def ready (n : Nat) (policy : UnpadPolicy := .faithful) : State :=
  loaded (List.replicate 24 0x01) (List.replicate n 0x01) policy

/-- `ready` with a length register that says otherwise. -/
def misdeclared (keyLen inLen : Word) : State := { ready 8 with keyLen := keyLen, inLen := inLen }

/-- A command in flight. -/
def busy (w : Word) : State := startCommand w (ready 8)

/-- A completed command with one output byte. -/
def done : State := { ready 8 with cmd := 0x00000008, status := statusDone, outBuf := [(0, 0x41)], outLen := 1 }

/-- A failed command. -/
def failed : State := afterError .malformedPadding (busy 0x00000008)

/-- A host at line 0 of a script, the machine otherwise as given. -/
def hosted (script : List HostOp) (schedule : List Turn) (s : State) : State :=
  { s with host := { script := script, line := 0, index := 0, temporaries := [] }, schedule := schedule }

/-- The step answers a next state. -/
def goesOn (r : StepResult) : Bool :=
  match r with
  | .next _ => true
  | .fault _ => false
  | .refused _ => false

theorem exists_next {r : StepResult} (h : goesOn r = true) : ∃ t, r = .next t := by
  cases r with
  | next t => exact ⟨t, rfl⟩
  | fault r => cases h
  | refused r => cases h

/-- A machine without output meets the invariant if its buffers are canonical and STATUS is in order. -/
theorem inv_without_output {s : State} (hc : s.cfg.wf) (hk : Memory.wf s.key ∧ Memory.within s.key 24)
    (hi : Memory.wf s.inBuf ∧ Memory.within s.inBuf s.cfg.inCap) (ho : s.outBuf = [] ∧ s.outLen = 0)
    (hs : s.status ∈ legalStatuses) (hp : s.pending = true ↔ s.status = statusBusy)
    (ht : Memory.wf s.host.temporaries) : s.Inv where
  parameters := hc
  keyCanonical := hk.1
  keyWithin := hk.2
  inCanonical := hi.1
  inWithin := hi.2
  outCanonical := by rw [ho.1]; exact Memory.wf_nil
  outWritten := by rw [ho.1, ho.2]; simp
  outFits := by rw [ho.2]; simp
  statusLegal := hs
  outputOnlyWhenDone := fun _ => ho.2
  pendingIffBusy := hp
  temporariesCanonical := ht

theorem witness_inv_idle : (ready 8).Inv :=
  inv_without_output (by decide +kernel) (by decide +kernel) (by decide +kernel) (by decide +kernel) (by decide +kernel) (by decide +kernel) (by decide +kernel)
theorem witness_inv_busy : (busy 0x00000007).Inv :=
  inv_without_output (by decide +kernel) (by decide +kernel) (by decide +kernel) (by decide +kernel) (by decide +kernel) (by decide +kernel) (by decide +kernel)
theorem witness_inv_error : failed.Inv :=
  inv_without_output (by decide +kernel) (by decide +kernel) (by decide +kernel) (by decide +kernel) (by decide +kernel) (by decide +kernel) (by decide +kernel)
theorem witness_inv_done : done.Inv where
  parameters := by decide +kernel
  keyCanonical := by decide +kernel
  keyWithin := by decide +kernel
  inCanonical := by decide +kernel
  inWithin := by decide +kernel
  outCanonical := by decide +kernel
  outWritten := fun a => by
    simp only [done, Memory.read, show (1 : Word).toNat = 1 from rfl]
    split
    · simp_all
    · simp; omega
  outFits := by decide +kernel
  statusLegal := by decide +kernel
  outputOnlyWhenDone := by decide +kernel
  pendingIffBusy := by decide +kernel
  temporariesCanonical := by decide +kernel

theorem witness_DecodeFollowsTheCommandTable :
    (64 ≤ (0x00000040 : Word).toNat ∧ 64 ≤ (0xFFFFFFFF : Word).toNat) ∧
    ((0x0000000A : Word).toNat < 64 ∧ 10 ≤ (0x0000000A : Word).toNat % 16) ∧
    ((0x0000003F : Word).toNat < 64 ∧ 10 ≤ (0x0000003F : Word).toNat % 16) ∧
    ((0x00000039 : Word).toNat < 64 ∧ (0x00000039 : Word).toNat % 16 ∈ [5, 6, 9] ∧ (0x00000039 : Word).toNat / 16 = 3) ∧
    ((0x00000038 : Word).toNat < 64 ∧ (0x00000038 : Word).toNat % 16 ∈ [0, 1, 2, 3, 4, 7, 8] ∧
      (0x00000038 : Word).toNat / 16 ≠ 0) ∧
    ((busy 0x00000029).pending = true ∧ decode (busy 0x00000029).cmd = .ok (.keysched 2)) ∧
    ((busy 0x00000039).pending = true ∧ decode (busy 0x00000039).cmd = .error .badKeySelect) := by decide +kernel

theorem witness_DecodeEncodeAgree : (Instr.keysched 2).wf = true ∧ decode 0x00000029 = .ok (.keysched 2) := by decide +kernel

theorem witness_StepRunsTheDecodedCommand :
    ((busy 0x00000007).running ∧ (busy 0x00000007).engineNext ∧ decode (busy 0x00000007).cmd = .ok .pad) ∧
    (hosted [] [.engine, .host] (busy 0x00000007)).engineNext ∧
    ((hosted [] [.engine, .host] (ready 8)).running ∧ (hosted [] [.engine, .host] (ready 8)).pending = false) :=
  ⟨⟨rfl, ⟨rfl, .inl rfl⟩, by decide +kernel⟩, ⟨rfl, .inr ⟨_, rfl⟩⟩, rfl, rfl⟩

theorem witness_PlacedCommandRunsNext : (ready 8).running ∧ (Instr.desEnc 2).wf = true := ⟨rfl, rfl⟩

theorem witness_HostTurnRunsItsLine :
    let s := hosted [rd32 0 0x00004] [.host] (ready 8)
    let u := hosted [rd32 0 0x00004] [] (ready 8)
    (s.running ∧ s.schedule = [.host] ∧ s.host.script[s.host.line]? = some (rd32 0 0x00004)) ∧
    (u.running ∧ u.schedule = [] ∧ u.pending = false ∧ u.host.script[u.host.line]? = some (rd32 0 0x00004)) ∧
    (hosted [] [.host] (ready 8)).host.script[(hosted [] [.host] (ready 8)).host.line]? = none :=
  ⟨⟨rfl, rfl, rfl⟩, ⟨rfl, rfl, rfl, rfl⟩, rfl⟩

theorem witness_ResetSetsTheStatedValues : (hosted [] [.reset] (busy 0x00000007)).schedule = [.reset] := rfl

theorem witness_InvariantHoldsAtPowerOn :
    Config.wf { inCap := 8, outCap := 96, unpadPolicy := .strict } ∧
    Config.wf { inCap := 65528, outCap := 65536, unpadPolicy := .faithful } := by decide +kernel

theorem witness_StepKeepsTheInvariant : (busy 0x00000007).Inv ∧ ∃ t, step (busy 0x00000007) = .next t :=
  ⟨witness_inv_busy, exists_next (by decide +kernel)⟩

theorem witness_StatusFieldsAgree : (done.Inv ∧ stateField done.status ≠ 3) ∧ failed.Inv ∧ stateField failed.status = 3 :=
  ⟨⟨witness_inv_done, by decide +kernel⟩, witness_inv_error, by decide +kernel⟩

theorem witness_FaultMarkIsForGood :
    let s := afterFault .unmapped (ready 8)
    (s.faultMark = some .unmapped ∧ s.schedule.head? ≠ some .reset) ∧
    ∃ t, step (hosted [] [.reset] s) = .next t := ⟨by decide +kernel, exists_next (by decide +kernel)⟩

theorem witness_StepsKeepParametersAndScript : ∃ t, step (hosted [rd32 0 0x00004] [.host] (ready 8)) = .next t :=
  exists_next (by decide +kernel)

theorem witness_CommandsChangeOnlyTheirOutput :
    (ready 8).cfg.wf ∧ (∃ t, exec .pad (ready 8) = .next t) ∧
    shown (exec .unpad (ready 0)) = some (0x00000033, 0, []) ∧
    marks .unwrittenRead (exec .pad { ready 8 with inBuf := [] }) = true :=
  ⟨by decide +kernel, exists_next (by decide +kernel), by decide +kernel, by decide +kernel⟩

theorem witness_ErrorsAreDetectedInOrder :
    (Instr.keysched 3).wf = false ∧
    (usesKey (.keysched 2) = true ∧ (misdeclared 23 8).keyLen ≠ 24 ∧ (misdeclared 25 8).keyLen ≠ 24) ∧
    (readsInput .pad = true ∧ (misdeclared 24 17).cfg.inCap < (misdeclared 24 17).inLen.toNat) ∧
    ((misdeclared 24 0).inLen.toNat = 0 ∧ (misdeclared 24 7).inLen.toNat % 8 ≠ 0 ∧
      (misdeclared 24 7).inLen.toNat ≤ (misdeclared 24 7).cfg.inCap) ∧
    (takesOneBlock .tdesDec = true ∧ (misdeclared 24 16).inLen ≠ 8 ∧
      (misdeclared 24 16).inLen.toNat ≤ (misdeclared 24 16).cfg.inCap) ∧
    (readsKeyByte (.desEnc 2) 23 ∧ Memory.read { ready 8 with key := [] }.key 23 = none) ∧
    (readsInByte .decrypt (misdeclared 24 16) 15 ∧ Memory.read (misdeclared 24 16).inBuf 15 = none) ∧
    (∀ a, readsKeyByte (.desEnc 2) a → Memory.read (ready 8).key a ≠ none) ∧
    (∀ a, readsInByte (.desEnc 2) (ready 8) a → Memory.read (ready 8).inBuf a ≠ none) := by
  refine ⟨by decide +kernel, by decide +kernel, by decide +kernel, by decide +kernel, by decide +kernel, ⟨⟨by decide +kernel, by decide +kernel⟩, rfl⟩,
    ⟨⟨rfl, by decide +kernel⟩, rfl⟩, fun a ⟨_, ha⟩ => ?_, fun a ⟨_, ha⟩ => ?_⟩
  · have hk : ∀ a, a < 24 → Memory.read (ready 8).key a ≠ none := by decide +kernel
    exact hk a ha
  · have hi : ∀ a, a < 8 → Memory.read (ready 8).inBuf a ≠ none := by decide +kernel
    exact hi a ha

theorem witness_KeyschedWritesTheSubkeys :
    ((2 : BitVec 2) ≠ 3 ∧ (misdeclared 23 8).keyLen ≠ 24) ∧
    (let s := { loaded (List.replicate 16 0x01) [] with keyLen := 24 };
      s.keyLen = 24 ∧ ∀ j ∈ [0, 7], Memory.read s.key (8 * (2 : BitVec 2).toNat + j) = none) ∧
    ((ready 8).keyLen = 24 ∧ (ready 8).cfg.wf ∧
      bufferHolds (ready 8).key (8 * (2 : BitVec 2).toNat) (List.replicate 8 0x01)) := by
  unfold bufferHolds; decide +kernel

theorem witness_DesCommandsTransformOneBlock :
    ((misdeclared 23 8).keyLen ≠ 24) ∧
    ((misdeclared 24 17).keyLen = 24 ∧ (misdeclared 24 17).cfg.inCap < (misdeclared 24 17).inLen.toNat) ∧
    (∀ n ∈ [0, 7, 9, 16], let s := misdeclared 24 (BitVec.ofNat 32 n)
      s.inLen.toNat ≤ s.cfg.inCap ∧ s.inLen.toNat ≠ 8) ∧
    (let s := { misdeclared 24 8 with inBuf := [] };
      s.inLen.toNat ≤ s.cfg.inCap ∧ s.inLen = 8 ∧ ∀ j ∈ [0, 7], Memory.read s.inBuf j = none) ∧
    ((ready 8).keyLen = 24 ∧ (ready 8).inLen = 8 ∧
      bufferHolds (ready 8).key (8 * (2 : BitVec 2).toNat) (List.replicate 8 0x01) ∧
      bufferHolds (ready 8).inBuf 0 (List.replicate 8 0x01)) := by
  unfold bufferHolds; decide +kernel

theorem witness_TdesCommandsTransformOneBlock :
    ((misdeclared 25 8).keyLen ≠ 24) ∧
    ((misdeclared 24 17).keyLen = 24 ∧ (misdeclared 24 17).cfg.inCap < (misdeclared 24 17).inLen.toNat) ∧
    ((misdeclared 24 7).inLen.toNat ≤ (misdeclared 24 7).cfg.inCap ∧ (misdeclared 24 7).inLen ≠ 8) ∧
    (let s := { loaded (List.replicate 23 0x01) (List.replicate 8 0x01) with keyLen := 24 };
      s.keyLen = 24 ∧ s.inLen = 8 ∧ Memory.read s.key 23 = none) ∧
    ((ready 8).keyLen = 24 ∧ (ready 8).inLen = 8 ∧ bufferHolds (ready 8).key 0 (List.replicate 24 0x01) ∧
      bufferHolds (ready 8).inBuf 0 (List.replicate 8 0x01)) := by
  unfold bufferHolds; decide +kernel

theorem witness_PadCommandPadsTheInput :
    ((misdeclared 0 17).cfg.inCap < (misdeclared 0 17).inLen.toNat) ∧
    ((misdeclared 0 16).inLen.toNat ≤ (misdeclared 0 16).cfg.inCap ∧ Memory.read (misdeclared 0 16).inBuf 15 = none) ∧
    (∀ n ∈ [0, 16], (List.replicate n (0x01 : Byte)).length = (ready n).inLen.toNat ∧
      bufferHolds (ready n).inBuf 0 (List.replicate n 0x01) ∧ (ready n).cfg.wf) := by
  unfold bufferHolds; decide +kernel

theorem witness_UnpadCommandRemovesThePadding :
    ((misdeclared 0 17).cfg.inCap < (misdeclared 0 17).inLen.toNat) ∧ ((misdeclared 0 0).inLen.toNat = 0) ∧
    ((misdeclared 0 9).inLen.toNat ≤ (misdeclared 0 9).cfg.inCap ∧ Memory.read (misdeclared 0 9).inBuf 8 = none) ∧
    (∀ policy ∈ [UnpadPolicy.faithful, .strict], ∀ last ∈ [(0x00 : Byte), 0x01, 0x02, 0x03],
      let s := loaded [] ([0x02] ++ [last]) policy
      s.cfg.unpadPolicy = policy ∧ ([0x02] ++ [last]).length = s.inLen.toNat ∧
        bufferHolds s.inBuf 0 ([0x02] ++ [last])) ∧
    (∀ policy ∈ [UnpadPolicy.faithful, .strict], ∀ last ∈ [(0x08 : Byte), 0x09], ∀ fill ∈ [last, (0x02 : Byte)],
      let s := loaded [] (List.replicate 8 fill ++ [last]) policy
      s.cfg.unpadPolicy = policy ∧ (List.replicate 8 fill ++ [last]).length = s.inLen.toNat ∧
        bufferHolds s.inBuf 0 (List.replicate 8 fill ++ [last]) ∧ last.toNat ≤ 9) ∧
    ((loaded [] [0x01] .strict).inLen.toNat = 1 ∧ bufferHolds (loaded [] [0x01] .strict).inBuf 0 ([] ++ [0x01])) := by
  unfold bufferHolds
  exact ⟨by decide +kernel, by decide +kernel, by decide +kernel, by decide +kernel, by decide +kernel,
    by decide +kernel⟩

theorem witness_EncryptCommandEncryptsThePaddedBlocks :
    ((misdeclared 23 8).keyLen ≠ 24) ∧
    ((misdeclared 24 17).keyLen = 24 ∧ (misdeclared 24 17).cfg.inCap < (misdeclared 24 17).inLen.toNat) ∧
    ((misdeclared 24 9).inLen.toNat ≤ (misdeclared 24 9).cfg.inCap ∧ Memory.read (misdeclared 24 9).inBuf 8 = none) ∧
    (∀ n ∈ [0, 16], (ready n).keyLen = 24 ∧ (List.replicate n (0x01 : Byte)).length = (ready n).inLen.toNat ∧
      bufferHolds (ready n).key 0 (List.replicate 24 0x01) ∧ bufferHolds (ready n).inBuf 0 (List.replicate n 0x01) ∧
      (ready n).cfg.wf) := by
  unfold bufferHolds; decide +kernel

theorem witness_DecryptCommandDecryptsAndUnpads :
    ((misdeclared 25 8).keyLen ≠ 24) ∧
    ((misdeclared 24 17).keyLen = 24 ∧ (misdeclared 24 17).cfg.inCap < (misdeclared 24 17).inLen.toNat) ∧
    ((misdeclared 24 0).inLen.toNat = 0 ∧ (misdeclared 24 15).inLen.toNat % 8 ≠ 0) ∧
    ((misdeclared 24 16).inLen.toNat % 8 = 0 ∧ Memory.read (misdeclared 24 16).inBuf 15 = none) ∧
    (∀ n ∈ [8, 16], (ready n).inLen.toNat ≠ 0 ∧ (List.replicate n (0x01 : Byte)).length = (ready n).inLen.toNat ∧
      bufferHolds (ready n).key 0 (List.replicate 24 0x01) ∧ bufferHolds (ready n).inBuf 0 (List.replicate n 0x01)) := by
  unfold bufferHolds; decide +kernel

theorem witness_PutBitSetsOneBit :
    (1 ≤ 8 ∧ 8 ≤ 8 * [(0xFF : Byte)].length) ∧ getBit [0xFF] 8 = .ok true ∧ 8 * [(0xFF : Byte)].length < 9 :=
  ⟨by decide +kernel, rfl, by decide +kernel⟩

theorem witness_PermuteBufferAgreesWithBitStrings : ∀ t ∈ [1, 8, 8], 1 ≤ t ∧ t ≤ 8 * [(0xA5 : Byte)].length := by decide +kernel

theorem witness_RotationsMoveBitsLeft : ∀ s ∈ [1, 2], (s = 1 ∨ s = 2) ∧ ∀ i ∈ [1, 28], 1 ≤ i ∧ i ≤ 28 := by decide +kernel

/-- The halves of the key schedule before and after each round. -/
def halfAfter (start : KeyHalf) (r : Nat) : KeyHalf := (shifts.take r).foldl rotl28 start

theorem witness_KeyScheduleFollowsItsRounds :
    let C := halfAfter (permute 28 tablePC1C (0x133457799BBCDFF1 : RawKey))
    C 0 = permute 28 tablePC1C (0x133457799BBCDFF1 : RawKey) ∧
    ∀ r, r < 16 → C (r + 1) = rotl28 (C r) (shifts.getD r 0) := by decide +kernel

theorem witness_ParityBitsAreIgnored :
    ∀ i, 1 ≤ i → i ≤ 64 → i % 8 ≠ 0 → bit (0x0101010101010101 : RawKey) i = bit (0x0000000000000000 : RawKey) i := by
  have h : ∀ i, i < 65 → 1 ≤ i → i % 8 ≠ 0 →
      bit (0x0101010101010101 : RawKey) i = bit (0x0000000000000000 : RawKey) i := by decide +kernel
  exact fun i h1 h2 h3 => h i (by omega) h1 h3

theorem witness_RoundFunctionBits : ∀ i ∈ [1, 32], 1 ≤ i ∧ i ≤ 32 := by decide +kernel

theorem witness_FaithfulUnpadTrustsTheLastByte :
    (1 ≤ (0x01 : Byte).toNat ∧ (0x01 : Byte).toNat ≤ [(0x41 : Byte)].length + 1) ∧
    ((0x02 : Byte).toNat ≤ [(0x41 : Byte)].length + 1) ∧ [(0x41 : Byte)].length + 1 < (0x03 : Byte).toNat := by decide +kernel

theorem witness_StrictUnpadAcceptsPaddedBlocks :
    (List.replicate 8 (0x08 : Byte)).length % 8 = 0 ∧ unpadStrict (List.replicate 8 0x00) = .error .malformedPadding := by
  decide +kernel

theorem witness_BlocksAreIndependent :
    (∀ j ∈ [0, 1], j < (List.replicate 8 (0x41 : Byte)).length / 8 + 1) ∧
    ∀ j ∈ [0, 1], j < (List.replicate 16 (0x41 : Byte)).length / 8 ∧ (j = 0 → j ≠ 15 / 8) ∧ (j = 1 → j ≠ 7 / 8) := by
  decide +kernel

theorem witness_EncryptThenDecryptReturnsThePlaintext :
    let K : List Byte := List.replicate 24 0x01
    let P : List Byte := List.replicate 8 0x01
    let C := encryptMessage P (ofBytes 192 K)
    ((ready 8).cfg.wf ∧ (ready 8).keyLen = 24 ∧ K.length = 24 ∧ bufferHolds (ready 8).key 0 K ∧
      P.length = (ready 8).inLen.toNat ∧ P.length ≤ (ready 8).cfg.inCap ∧ bufferHolds (ready 8).inBuf 0 P) ∧
    ((loaded K C).keyLen = 24 ∧ bufferHolds (loaded K C).key 0 K ∧ (loaded K C).inLen.toNat = C.length ∧
      C.length ≤ (loaded K C).cfg.inCap ∧ bufferHolds (loaded K C).inBuf 0 C) := by
  have hC : (encryptMessage (List.replicate 8 0x01) (ofBytes 192 (List.replicate 24 0x01))).length = 16 := by
    simp only [encryptMessage, length_mapBlocks, length_padBytes, List.length_replicate]
  refine ⟨⟨by decide +kernel, rfl, rfl, bufferHolds_writeRange _ _ _, rfl, by decide +kernel, bufferHolds_writeRange _ _ _⟩,
    rfl, bufferHolds_writeRange _ _ _, ?_, ?_, bufferHolds_writeRange _ _ _⟩
  · show (BitVec.ofNat 32 _).toNat = _
    rw [hC]; rfl
  · rw [hC]; decide

theorem witness_HostReadsFollowTheAddressMap :
    (done.cfg.wf ∧ stateField done.status ≠ 1) ∧ (∀ i ∈ [0, 23], i < 24) ∧
    (0 < done.cfg.inCap ∧ Memory.read done.inBuf 0 = some 0x01) ∧
    (15 < done.cfg.inCap ∧ Memory.read done.inBuf 15 = none) ∧
    (0 < done.cfg.outCap ∧ Memory.read done.outBuf 0 = some 0x41) ∧
    (95 < done.cfg.outCap ∧ Memory.read done.outBuf 95 = none) ∧
    (∀ a ∈ [0x00, 0x13], a < 0x14 ∧ (Width.w8 ≠ .w32 ∨ a % 4 ≠ 0)) ∧ (0x01 < 0x14 ∧ 0x01 % 4 ≠ 0) ∧
    (∀ a ∈ [0x40, 0x57], 0x40 ≤ a ∧ a < 0x58) ∧ (∀ a ∈ [0x10000, 0x1000F], 0x10000 ≤ a ∧ a < 0x10000 + done.cfg.inCap) ∧
    (∀ a ∈ [0x20000, 0x2005F], 0x20000 ≤ a ∧ a < 0x20000 + done.cfg.outCap) ∧
    (∀ a ∈ [0x14, 0x3F], 0x14 ≤ a ∧ a < 0x40) ∧ (∀ a ∈ [0x58, 0xFFFF], 0x58 ≤ a ∧ a < 0x10000) ∧
    (∀ a ∈ [0x10010, 0x1FFFF], 0x10000 + done.cfg.inCap ≤ a ∧ a < 0x20000) ∧
    (∀ a ∈ [0x20060, 0x30000], 0x20000 + done.cfg.outCap ≤ a) := by decide +kernel

theorem witness_HostWritesFollowTheAddressMap :
    (failed.cfg.wf ∧ stateField failed.status ≠ 1) ∧ (∀ i ∈ [0, 23], i < 24) ∧ (∀ i ∈ [0, 15], i < failed.cfg.inCap) ∧
    (∀ i ∈ [0, 95], i < failed.cfg.outCap) ∧ (∀ a ∈ [0x00, 0x13], a < 0x14 ∧ (Width.w16 ≠ .w32 ∨ a % 4 ≠ 0)) ∧
    (∀ a ∈ [0x10000, 0x1000F], 0x10000 ≤ a ∧ a < 0x10000 + failed.cfg.inCap) ∧
    (∀ a ∈ [0x58, 0xFFFF], 0x58 ≤ a ∧ a < 0x10000) ∧ 0x20000 + failed.cfg.outCap ≤ 0x20060 := by decide +kernel

/-- Whether a host write succeeds. -/
def writes (r : Except Fault State) : Bool :=
  match r with
  | .ok _ => true
  | .error _ => false

theorem exists_written {r : Except Fault State} (h : writes r = true) : ∃ t, r = .ok t := by
  cases r with
  | ok t => exact ⟨t, rfl⟩
  | error r => cases h

theorem witness_HostWriteThenRead :
    ((ready 8).cfg.wf ∧ 15 < (ready 8).cfg.inCap ∧ ∃ t, hostWrite (ready 8) .w8 (0x10000 + 15) 0x41 = .ok t) ∧
    (∀ a ∈ [0x00008, 0x0000C], ∃ t, hostWrite (ready 8) .w32 a 0xFFFFFFFF = .ok t) :=
  ⟨⟨by decide +kernel, by decide +kernel, exists_written (by decide +kernel)⟩, fun a ha => exists_written (by revert a; decide +kernel)⟩

theorem witness_HostReadsHaveNoSideEffect :
    (∃ t, hostLine (.read .w32 0 0x00004) (busy 0x00000007) = .next t ∧ t.faultMark = (busy 0x00000007).faultMark) ∧
    hostRead (busy 0x00000007) .w32 0x00004 = .ok 0x00000001 ∧
    (let s := assignTemporary 0 1 (hosted (readOut 0) [] done);
      (∃ t, hostLine (.readBytes 0 1 0x20000) s = .next t ∧ t.faultMark = s.faultMark) ∧
      s.host.index < (temporaryOf s.host 0).toNat ∧ hostRead s .w8 (0x20000 + s.host.index) = .ok 0x41) :=
  ⟨⟨_, rfl, rfl⟩, rfl, ⟨_, rfl, rfl⟩, by decide, by decide⟩

theorem witness_CmdWriteStartsTheCommand :
    stateField failed.status ≠ 1 ∧ stateField (busy 0x00000007).status = 1 ∧ (busy 0x00000007).Inv :=
  ⟨by decide +kernel, by decide +kernel, witness_inv_busy⟩

theorem witness_BusyAllowsOnlyStatusReads :
    stateField (busy 0x00000007).status = 1 ∧ ¬(Width.w32 = .w32 ∧ 0x00000 = 0x00004) ∧
    ¬(Width.w8 = .w32 ∧ 0x00004 = 0x00004) ∧
    (let s := assignTemporary 0 1 (busy 0x00000007);
      stateField s.status = 1 ∧ s.host.index < (temporaryOf s.host 0).toNat) := by decide +kernel

theorem witness_BusyFreezesTheInputs :
    (busy 0x00000007).Inv ∧ (busy 0x00000007).pending = true ∧ (busy 0x00000007).schedule.head? ≠ some .reset ∧
    ∃ t, step (busy 0x00000007) = .next t := ⟨witness_inv_busy, rfl, by decide +kernel, exists_next (by decide +kernel)⟩

theorem witness_OutputReadableOnlyWhenDone :
    (done.Inv ∧ 0 < done.cfg.outCap ∧ hostRead done .w8 (0x20000 + 0) = .ok 0x41) ∧
    (stateField done.status = 2 ∧ 0 < done.outLen.toNat) ∧
    (∀ i ∈ [1, 95], stateField done.status ≠ 1 ∧ done.outLen.toNat ≤ i ∧ i < done.cfg.outCap) ∧
    (failed.Inv ∧ ¬(stateField failed.status = 2 ∧ 0 < failed.outLen.toNat)) ∧
    (∃ t, hostWrite done .w32 0x00000 0 = .ok t) :=
  ⟨⟨witness_inv_done, by decide +kernel, by decide +kernel⟩, by decide +kernel, by decide +kernel, ⟨witness_inv_error, by decide +kernel⟩, exists_written (by decide +kernel)⟩

theorem witness_OutputStaysUntilTheNextCommand :
    let s := hosted [rd32 0 0x00010] [.host] done
    s.pending = false ∧ s.schedule.head? ≠ some .reset ∧
    (∀ v, s.host.script[s.host.line]? ≠ some (.write .w32 0x00000 v)) ∧ ∃ t, step s = .next t :=
  ⟨rfl, by decide +kernel, fun v h => (by cases h), exists_next (by decide +kernel)⟩

theorem witness_CommandsDependOnlyOnWhatTheyRead :
    (Instr.keysched 0).wf = true ∧
    ∀ a, readsKeyByte (.keysched 0) a →
      Memory.read (Memory.write (ready 8).key 8 0xFF) a = Memory.read (ready 8).key a := by
  refine ⟨rfl, fun a ⟨_, ha⟩ => Memory.read_write_other _ _ ?_⟩
  intro h; subst h; exact absurd ha (by decide +kernel)

theorem witness_PendingCommandEndsOrFaults :
    let s := hosted (wait 0 0) [.host, .host] (busy 0x00000007)
    s.running ∧ s.pending = true := ⟨rfl, rfl⟩

theorem witness_PollsDoNotChangeTheResult :
    let s := hosted (wait 0 0) [] (busy 0x00000007)
    s.running ∧ s.pending = true ∧ s.status = 0x00000001 ∧ s.host.line = 0 ∧
    ∀ j, j < 3 → s.host.script[0 + j]? = (wait 0 0)[j]? := ⟨rfl, rfl, rfl, rfl, by decide +kernel⟩

theorem witness_WaitLoopsWhileBusy :
    (let s := hosted (wait 0 0) [] (busy 0x00000007);
      s.running ∧ s.host.line = 0 ∧ (∀ j, j < 3 → s.host.script[0 + j]? = (wait 0 0)[j]?) ∧ stateField s.status = 1) ∧
    stateField (hosted (wait 0 0) [] done).status ≠ 1 := ⟨⟨rfl, rfl, by decide +kernel, by decide +kernel⟩, by decide +kernel⟩

theorem witness_LoadOperationsFillTheBuffers :
    (let s := hosted (loadIn (List.replicate 16 0x41)) [] (ready 0);
      s.running ∧ s.cfg.wf ∧ s.pending = false ∧ stateField s.status ≠ 1 ∧ s.schedule = [] ∧ s.host.line = 0 ∧
      (List.replicate 16 (0x41 : Byte)).length ≤ s.cfg.inCap ∧
      ∀ j, j < (loadIn (List.replicate 16 0x41)).length → s.host.script[0 + j]? = (loadIn (List.replicate 16 0x41))[j]?) ∧
    (let s := hosted (loadKey vectorKey) [] (ready 0);
      vectorKey.length = 24 ∧ ∀ j, j < (loadKey vectorKey).length → s.host.script[0 + j]? = (loadKey vectorKey)[j]?) :=
  ⟨⟨rfl, by decide +kernel, rfl, by decide +kernel, rfl, rfl, by decide +kernel, fun j _ => by simp [hosted]⟩, rfl, fun j _ => by simp [hosted]⟩

theorem witness_ReadoutReadsTheOutput :
    (let s := hosted (readOut 0) [] done;
      s.running ∧ s.cfg.wf ∧ s.pending = false ∧ stateField s.status ≠ 1 ∧ s.schedule = [] ∧ s.host.line = 0 ∧
      (∀ j, j < 2 → s.host.script[0 + j]? = (readOut 0)[j]?) ∧ s.outLen.toNat = [(0x41 : Byte)].length ∧
      [(0x41 : Byte)].length ≤ s.cfg.outCap ∧ bufferHolds s.outBuf 0 [0x41]) ∧
    (let s := hosted (readOut 0) [] failed;
      stateField s.status ≠ 1 ∧ s.outLen.toNat = ([] : List Byte).length ∧ bufferHolds s.outBuf 0 []) := by
  refine ⟨⟨rfl, by decide +kernel, rfl, by decide +kernel, rfl, rfl, by decide +kernel, by decide +kernel,
    by decide +kernel, ?_⟩, by decide +kernel, by decide +kernel, ?_⟩ <;> unfold bufferHolds <;> decide +kernel

end Sys2Proof.Tests
end

section
/-! The endings of a command: whatever it checks and reads first, it ends in one of the three ways of
60_exceptions.md rule R230. -/

namespace Sys2Proof.Machine

/-- How a command run in the state `s` can end (R230): with an output (R240), with an engine error (R241), or with
the model fault of an unwritten operand byte (R32). -/
inductive CommandEnding (s : State) : StepResult → Prop where
  | output (S : List Byte) : CommandEnding s (succeed S s)
  | error (e : EngineError) : CommandEnding s (raise e s)
  | unwritten : CommandEnding s (modelFault .unwrittenRead s)

namespace CommandEnding
variable {s : State} {next : StepResult}

theorem of_complete (result : Except EngineError (List Byte)) (s : State) : CommandEnding s (complete result s) := by
  obtain ⟨S, -, h⟩ | ⟨e, -, h⟩ := complete_cases result s
  · exact h ▸ .output S
  · exact h ▸ .error e

theorem of_withOperand {α : Type} {operand : Option α} {next : α → StepResult}
    (hnext : ∀ v, CommandEnding s (next v)) : CommandEnding s (withOperand operand s next) := by
  obtain ⟨v, -, h⟩ | ⟨-, h⟩ := withOperand_cases operand s next
  · exact h ▸ hnext v
  · exact h ▸ .unwritten

/-- A check passes on to what comes next or raises its error. -/
theorem of_check {r : StepResult} {e : EngineError} (hr : r = next ∨ r = raise e s) (hnext : CommandEnding s next) :
    CommandEnding s r := by
  obtain rfl | rfl := hr
  · exact hnext
  · exact .error e

theorem of_requireKeySelect {ksel : BitVec 2} (hnext : CommandEnding s next) :
    CommandEnding s (requireKeySelect ksel s next) :=
  of_check ((requireKeySelect_cases ksel s next).imp (·.2) (·.2)) hnext

theorem of_requireKeyLength (hnext : CommandEnding s next) : CommandEnding s (requireKeyLength s next) :=
  of_check ((requireKeyLength_cases s next).imp (·.2) (·.2)) hnext

theorem of_requireInputFits (hnext : CommandEnding s next) : CommandEnding s (requireInputFits s next) :=
  of_check ((requireInputFits_cases s next).imp (·.2) (·.2)) hnext

theorem of_requireOneBlock (hnext : CommandEnding s next) : CommandEnding s (requireOneBlock s next) :=
  of_check ((requireOneBlock_cases s next).imp (·.2) (·.2)) hnext

theorem of_requireWholeBlocks (hnext : CommandEnding s next) : CommandEnding s (requireWholeBlocks s next) :=
  of_check ((requireWholeBlocks_cases s next).imp (·.2.2) (·.2)) hnext

theorem of_requireLastByte (hnext : CommandEnding s next) : CommandEnding s (requireLastByte s next) :=
  of_check ((requireLastByte_cases s next).imp (·.2) (·.2)) hnext

/-- The block commands read the block after their key. -/
theorem of_oneBlock {α : Type} {key : Option α} {cipher : α → Block → List Byte} :
    CommandEnding s (requireKeyLength s <| requireInputFits s <| requireOneBlock s <| withOperand key s fun K =>
      withOperand (blockOf s) s fun B => succeed (cipher K B) s) :=
  of_requireKeyLength <| of_requireInputFits <| of_requireOneBlock <| of_withOperand fun _ =>
    of_withOperand fun _ => .output _

end CommandEnding

open CommandEnding in
/-- Every command ends in one of the three ways, its checks and operand reads taken in its own order. -/
theorem exec_commandEnding (i : Instr) (s : State) : CommandEnding s (exec i s) := by
  cases i with
  | nop => exact .output []
  | encrypt =>
    exact of_requireKeyLength <| of_requireInputFits <| of_withOperand fun _ => of_withOperand fun _ => .output _
  | decrypt =>
    exact of_requireKeyLength <| of_requireInputFits <| of_requireWholeBlocks <| of_withOperand fun _ =>
      of_withOperand fun _ => of_complete _ s
  | tdesEnc => exact of_oneBlock
  | tdesDec => exact of_oneBlock
  | desEnc ksel => exact of_requireKeySelect of_oneBlock
  | desDec ksel => exact of_requireKeySelect of_oneBlock
  | pad => exact of_requireInputFits <| of_withOperand fun _ => .output _
  | unpad =>
    exact of_requireInputFits <| of_requireLastByte <| of_withOperand fun _ => of_complete _ s
  | keysched ksel =>
    exact of_requireKeySelect <| of_requireKeyLength <| of_withOperand fun _ => .output _

end Sys2Proof.Machine
end

section
/-! What no turn of an agent changes: the parameters (00_scope.md rules R6 and R7), the host's script and the coming
turns (the model's own, log entries 3 and 16). -/

namespace Sys2Proof.Machine

/-- `t` has the parameters, the host's script and the schedule of `s`. -/
structure SameSetup (s t : State) : Prop where
  cfg : t.cfg = s.cfg
  script : t.host.script = s.host.script
  schedule : t.schedule = s.schedule

theorem SameSetup.refl (s : State) : SameSetup s s := ⟨rfl, rfl, rfl⟩

theorem CommandEnding.sameSetup {s t : State} {r : StepResult} (hr : CommandEnding s r) (h : r = .next t) :
    SameSetup s t := by
  cases hr with
  | output S => obtain rfl := succeed_next.mp h; exact ⟨rfl, rfl, rfl⟩
  | error e => obtain rfl := raise_next.mp h; exact ⟨rfl, rfl, rfl⟩
  | unwritten => obtain rfl := modelFault_next.mp h; exact ⟨rfl, rfl, rfl⟩

theorem engineTurn_sameSetup {s t : State} (h : engineTurn s = .next t) : SameSetup s t := by
  obtain ⟨-, hs⟩ | ⟨-, i, -, hi⟩ | ⟨-, e, -, he⟩ := engineTurn_cases s
  · cases hs.symm.trans h; exact .refl s
  · exact (exec_commandEnding i s).sameSetup (hi.symm.trans h)
  · exact (CommandEnding.error _).sameSetup (he.symm.trans h)

theorem hostWrite_sameSetup {s t : State} {width : Width} {a : Nat} {v : Word} (h : hostWrite s width a v = .ok t) :
    SameSetup s t := by
  obtain ⟨-, ⟨-, -, rfl⟩ | ⟨-, -, rfl⟩ | ⟨-, -, rfl⟩ | ⟨i, -, -, rfl⟩ | ⟨i, -, -, rfl⟩⟩ := hostWrite_ok h <;>
    exact ⟨rfl, rfl, rfl⟩

theorem SameSetup.goToLine {s t : State} (h : SameSetup s t) (line : Nat) : SameSetup s (goToLine line t) :=
  ⟨h.cfg, h.script, h.schedule⟩

theorem hostTurn_sameSetup {s t : State} (h : hostTurn s = .next t) : SameSetup s t := by
  obtain hs | ⟨r, hr⟩ | ⟨line, hl⟩ | ⟨_, _, _, _, -, hn | hi⟩ | ⟨_, _, _, u, -, hw, hu⟩ := hostTurn_cases s
  · cases hs.symm.trans h; exact .refl s
  · obtain rfl := modelFault_next.mp (hr.symm.trans h); exact ⟨rfl, rfl, rfl⟩
  · cases hl.symm.trans h; exact ⟨rfl, rfl, rfl⟩
  · cases hn.symm.trans h; exact ⟨rfl, rfl, rfl⟩
  · cases hi.symm.trans h; exact ⟨rfl, rfl, rfl⟩
  · cases hu.symm.trans h; exact (hostWrite_sameSetup hw).goToLine _

/-- An agent's turn that answers a next state is the agent's move. -/
theorem agentTurn_next {turn : State → StepResult} {s t : State} (h : agentTurn turn s = .next t) :
    s.faultMark = none ∧ turn s = .next t := by
  cases hf : s.faultMark with
  | none => exact ⟨rfl, (agentTurn_running hf turn).symm.trans h⟩
  | some r => cases (agentTurn_marked hf turn).symm.trans h

/-- A step of any kind acts on the state with its turn taken off the schedule, and changes no more of the setup. -/
theorem step_sameSetup {s t : State} (h : step s = .next t) : SameSetup { s with schedule := s.schedule.tail } t := by
  obtain ⟨rest, hs, hr⟩ | ⟨rest, hs, he⟩ | ⟨rest, hs, hh⟩ | ⟨hs, -, he⟩ | ⟨hs, -, hh⟩ := step_cases s
  · cases hr.symm.trans h; exact ⟨rfl, rfl, by simp [hs]⟩
  · simpa [hs] using engineTurn_sameSetup (agentTurn_next (he.symm.trans h)).2
  · simpa [hs] using hostTurn_sameSetup (agentTurn_next (hh.symm.trans h)).2
  · obtain ⟨hcfg, hscript, hschedule⟩ := engineTurn_sameSetup (agentTurn_next (he.symm.trans h)).2
    exact ⟨hcfg, hscript, by simpa [hs] using hschedule⟩
  · obtain ⟨hcfg, hscript, hschedule⟩ := hostTurn_sameSetup (agentTurn_next (hh.symm.trans h)).2
    exact ⟨hcfg, hscript, by simpa [hs] using hschedule⟩

/-- Settles O12: by the kinds of step, with one lemma about each agent's turn. -/
theorem stepsKeepParametersAndScript : Obligations.StepsKeepParametersAndScript := by
  unfold Obligations.StepsKeepParametersAndScript
  intro s t h
  obtain ⟨hcfg, hscript, hschedule⟩ := step_sameSetup h
  exact ⟨hcfg, hscript, hschedule⟩

end Sys2Proof.Machine
end

section
/-! The invariant at power-on (70_reset_and_hazards.md rule R260). -/

namespace Sys2Proof.Machine

theorem Config.thisHardware_wf : Config.thisHardware.wf := by decide

/-- Every buffer is empty and every register zero at power-on, so only the parameters need the bounds of R6. -/
theorem State.powerOn_inv {c : Config} (h : c.wf) : (State.powerOn c).Inv where
  parameters := h
  keyCanonical := Memory.wf_nil
  keyWithin := List.forall_mem_nil _
  inCanonical := Memory.wf_nil
  inWithin := List.forall_mem_nil _
  outCanonical := Memory.wf_nil
  outWritten := by simp [State.powerOn]
  outFits := Nat.zero_le _
  statusLegal := List.mem_cons_self
  outputOnlyWhenDone := fun _ => rfl
  pendingIffBusy := by simp [State.powerOn, statusBusy]
  temporariesCanonical := Memory.wf_nil

/-- Settles O8: `State.reset` is the power-on state of parameters within the bounds of R6. -/
theorem invariantHoldsAtPowerOn : Obligations.InvariantHoldsAtPowerOn := by
  unfold Obligations.InvariantHoldsAtPowerOn
  exact ⟨fun _ hc => State.powerOn_inv hc, State.powerOn_inv Config.thisHardware_wf⟩

end Sys2Proof.Machine
end

section
/-! Every command's output fits OUT under the bounds of R6 (45_padding.md rule R193, 46_message.md rules R210 and
R211). -/

namespace Sys2Proof.Machine

/-- The ending `r` of a command run in `s`, with an output of at most `n` bytes if it has one (R230). -/
inductive EndsWithin (n : Nat) (s : State) : StepResult → Prop where
  | output (S : List Byte) (hS : S.length ≤ n) : EndsWithin n s (succeed S s)
  | error (e : EngineError) : EndsWithin n s (raise e s)
  | unwritten : EndsWithin n s (modelFault .unwrittenRead s)

namespace EndsWithin
variable {n : Nat} {s : State} {r : StepResult}

/-- What follows a check may use what the check has established. -/
theorem of_check {next : StepResult} {e : EngineError} {passed failed : Prop}
    (hr : (passed ∧ r = next) ∨ (failed ∧ r = raise e s)) (hnext : passed → EndsWithin n s next) :
    EndsWithin n s r := by
  obtain ⟨hp, rfl⟩ | ⟨-, rfl⟩ := hr
  · exact hnext hp
  · exact .error e

/-- What follows an operand read may use that the operand was read. -/
theorem of_withOperand {α : Type} {operand : Option α} {next : α → StepResult}
    (hnext : ∀ v, operand = some v → EndsWithin n s (next v)) : EndsWithin n s (withOperand operand s next) := by
  obtain ⟨v, hv, h⟩ | ⟨-, h⟩ := withOperand_cases operand s next
  · exact h ▸ hnext v hv
  · exact h ▸ .unwritten

theorem of_complete {result : Except EngineError (List Byte)} (h : ∀ S, result = .ok S → S.length ≤ n) :
    EndsWithin n s (complete result s) := by
  obtain ⟨S, hS, hr⟩ | ⟨e, -, hr⟩ := complete_cases result s
  · exact hr ▸ .output S (h S hS)
  · exact hr ▸ .error e

/-- The block commands output the eight bytes of one block. -/
theorem of_oneBlock {α : Type} {key : Option α} {cipher : α → Block → Block} (hn : 8 ≤ n) :
    EndsWithin n s (requireKeyLength s <| requireInputFits s <| requireOneBlock s <| withOperand key s fun K =>
      withOperand (blockOf s) s fun B => succeed (toBytes 8 (cipher K B)) s) :=
  of_check (requireKeyLength_cases s _) fun _ => of_check (requireInputFits_cases s _) fun _ =>
    of_check (requireOneBlock_cases s _) fun _ => of_withOperand fun _ _ => of_withOperand fun _ _ =>
      .output _ (by simpa using hn)

/-- The next state of each ending (R240, R241, R243). -/
theorem next_cases (h : EndsWithin n s r) {t : State} (ht : r = .next t) :
    (∃ S : List Byte, S.length ≤ n ∧ t = afterSuccess S s) ∨ (∃ e, t = afterError e s) ∨
      t = afterFault .unwrittenRead s := by
  cases h with
  | output S hS => exact .inl ⟨S, hS, succeed_next.mp ht⟩
  | error e => exact .inr (.inl ⟨e, raise_next.mp ht⟩)
  | unwritten => exact .inr (.inr (modelFault_next.mp ht))

end EndsWithin

/-- The ciphertext of `P` is as long as the padded `P` (R210). -/
theorem length_encryptMessage (P : List Byte) (TK : TripleKey) :
    (encryptMessage P TK).length = 8 * (P.length / 8 + 1) := by
  rw [encryptMessage, length_mapBlocks, length_padBytes, Nat.mul_div_cancel_left _ (by decide)]

/-- Decryption never lengthens its input (R211). -/
theorem length_decryptMessage_le {policy : UnpadPolicy} {C P : List Byte} {TK : TripleKey}
    (h : decryptMessage policy C TK = .ok P) : P.length ≤ C.length := by
  have hP := length_unpadBytes_le h
  rw [decryptBlocks, length_mapBlocks] at hP
  omega

/-- OUT_LEN holds the length of an output that fits OUT (R28). -/
theorem toNat_ofNat_of_le_outCap {c : Config} (hc : c.wf) {n : Nat} (h : n ≤ c.outCap) :
    (BitVec.ofNat 32 n).toNat = n := by
  obtain ⟨-, -, -, hcap⟩ := hc
  rw [BitVec.toNat_ofNat, Nat.mod_eq_of_lt (by omega)]

open EndsWithin in
/-- Every output fits OUT: it is at most eight bytes longer than an input that fits IN, or 96 bytes long. -/
theorem exec_endsWithin_outCap (i : Instr) {s : State} (hc : s.cfg.wf) : EndsWithin s.cfg.outCap s (exec i s) := by
  obtain ⟨-, -, hcap, -⟩ := hc
  have hadd : s.cfg.inCap + 8 ≤ s.cfg.outCap := (le_max_left _ _).trans hcap
  have h96 : 96 ≤ s.cfg.outCap := (le_max_right _ _).trans hcap
  cases i with
  | nop => exact .output [] (Nat.zero_le _)
  | encrypt =>
    refine of_check (requireKeyLength_cases s _) fun _ => of_check (requireInputFits_cases s _) fun hfit =>
      of_withOperand fun TK _ => of_withOperand fun P hP => .output _ ?_
    rw [length_encryptMessage, length_of_inputOf hP]
    omega
  | decrypt =>
    refine of_check (requireKeyLength_cases s _) fun _ => of_check (requireInputFits_cases s _) fun hfit =>
      of_check ((requireWholeBlocks_cases s _).imp_left and_assoc.mpr) fun _ => of_withOperand fun TK _ =>
      of_withOperand fun C hC => of_complete fun P hP => ?_
    have := length_decryptMessage_le hP
    rw [length_of_inputOf hC] at this
    omega
  | tdesEnc => exact of_oneBlock (by omega)
  | tdesDec => exact of_oneBlock (by omega)
  | desEnc ksel => exact of_check (requireKeySelect_cases ksel s _) fun _ => of_oneBlock (by omega)
  | desDec ksel => exact of_check (requireKeySelect_cases ksel s _) fun _ => of_oneBlock (by omega)
  | pad =>
    refine of_check (requireInputFits_cases s _) fun hfit => of_withOperand fun D hD => .output _ ?_
    rw [length_padBytes, length_of_inputOf hD]
    omega
  | unpad =>
    refine of_check (requireInputFits_cases s _) fun hfit => of_check (requireLastByte_cases s _) fun _ =>
      of_withOperand fun D hD => of_complete fun P hP => ?_
    have := length_unpadBytes_le hP
    rw [length_of_inputOf hD] at this
    omega
  | keysched ksel =>
    refine of_check (requireKeySelect_cases ksel s _) fun _ => of_check (requireKeyLength_cases s _) fun _ =>
      of_withOperand fun K _ => .output _ ?_
    rw [length_subkeyBytes, length_keySchedule]
    omega

end Sys2Proof.Machine
end

section
/-! Every step keeps the invariant (10_state.md): one lemma for each kind of update, then the turns, then the step. -/

namespace Sys2Proof.Machine

/-- Everything a step that answers a next state can be: a reset or an agent's turn, in the state whose schedule no
longer names it. -/
theorem step_next_cases {s t : State} (h : step s = .next t) :
    (s.schedule.head? = some .reset ∧ t = resetInput { s with schedule := s.schedule.tail }) ∨
    engineTurn { s with schedule := s.schedule.tail } = .next t ∨
    hostTurn { s with schedule := s.schedule.tail } = .next t := by
  have hnil : s.schedule = [] → { s with schedule := s.schedule.tail } = s := fun hs => by
    rw [hs, List.tail_nil, ← hs]
  obtain ⟨rest, hs, hr⟩ | ⟨rest, hs, he⟩ | ⟨rest, hs, hh⟩ | ⟨hs, -, he⟩ | ⟨hs, -, hh⟩ := step_cases s
  · cases hr.symm.trans h; exact .inl (by simp [hs])
  · exact .inr (.inl (by simpa [hs] using (agentTurn_next (he.symm.trans h)).2))
  · exact .inr (.inr (by simpa [hs] using (agentTurn_next (hh.symm.trans h)).2))
  · exact .inr (.inl ((hnil hs).symm ▸ (agentTurn_next (he.symm.trans h)).2))
  · exact .inr (.inr ((hnil hs).symm ▸ (agentTurn_next (hh.symm.trans h)).2))

/-- STATE = ERROR in every STATUS word of an engine error (R241). -/
theorem statusError_ne_statusBusy (e : EngineError) : statusError e ≠ statusBusy := by cases e <;> decide

theorem statusError_mem_legalStatuses (e : EngineError) : statusError e ∈ legalStatuses := by
  cases e <;> simp [legalStatuses]

namespace State.Inv
variable {s : State}

/-- A running command has no output yet (R60). -/
theorem outLen_of_pending (h : s.Inv) (hp : s.pending = true) : s.outLen = 0 :=
  h.outputOnlyWhenDone (by rw [h.pendingIffBusy.mp hp]; decide)

/-- While a command runs every OUT byte is unwritten (R60). -/
theorem read_outBuf_of_pending (h : s.Inv) (hp : s.pending = true) (a : Nat) : Memory.read s.outBuf a = none := by
  simpa [h.outLen_of_pending hp] using h.outWritten a

theorem withSchedule (h : s.Inv) (schedule : List Turn) : State.Inv { s with schedule := schedule } := { h with }

theorem afterFault (h : s.Inv) (r : Fault) : (afterFault r s).Inv := { h with }

theorem goToLine (h : s.Inv) (line : Nat) : (goToLine line s).Inv := { h with }

theorem nextIndex (h : s.Inv) : (nextIndex s).Inv := { h with }

theorem assignTemporary (h : s.Inv) (t : Nat) (v : Word) : (assignTemporary t v s).Inv :=
  { h with temporariesCanonical := Memory.wf_write h.temporariesCanonical t v }

/-- A reset leaves the power-on values, with the parameters and the host as they were (R260). -/
theorem resetInput (h : s.Inv) : (resetInput s).Inv where
  parameters := h.parameters
  keyCanonical := Memory.wf_nil
  keyWithin := List.forall_mem_nil _
  inCanonical := Memory.wf_nil
  inWithin := List.forall_mem_nil _
  outCanonical := Memory.wf_nil
  outWritten := by simp
  outFits := Nat.zero_le _
  statusLegal := List.mem_cons_self
  outputOnlyWhenDone := fun _ => rfl
  pendingIffBusy := by simp [statusIdle, statusBusy]
  temporariesCanonical := h.temporariesCanonical

theorem startCommand (h : s.Inv) (w : Word) : (startCommand w s).Inv :=
  { h with
    outCanonical := Memory.wf_nil
    outWritten := by simp
    outFits := Nat.zero_le _
    statusLegal := by simp [legalStatuses]
    outputOnlyWhenDone := fun _ => rfl
    pendingIffBusy := by simp }

theorem withKeyByte (h : s.Inv) {i : Nat} (hi : i < 24) (b : Byte) :
    State.Inv { s with key := Memory.write s.key i b } :=
  { h with
    keyCanonical := Memory.wf_write h.keyCanonical i b
    keyWithin := Memory.within_write h.keyWithin hi b }

theorem withInByte (h : s.Inv) {i : Nat} (hi : i < s.cfg.inCap) (b : Byte) :
    State.Inv { s with inBuf := Memory.write s.inBuf i b } :=
  { h with
    inCanonical := Memory.wf_write h.inCanonical i b
    inWithin := Memory.within_write h.inWithin hi b }

/-- OUT is unwritten when a command completes, so the output written from its start is all it holds (R240). -/
theorem afterSuccess (h : s.Inv) (hp : s.pending = true) {S : List Byte} (hS : S.length ≤ s.cfg.outCap) :
    (afterSuccess S s).Inv := by
  have hlen := toNat_ofNat_of_le_outCap h.parameters hS
  refine { h with outCanonical := Memory.wf_writeRange S h.outCanonical 0, outWritten := fun a => ?_, outFits := ?_,
                  statusLegal := by simp [legalStatuses], outputOnlyWhenDone := fun hd => absurd rfl hd,
                  pendingIffBusy := by simp [statusDone, statusBusy] }
  · rw [afterSuccess_outBuf, afterSuccess_outLen, hlen, Memory.read_writeRange]
    by_cases ha : a < S.length
    · simp [ha]
    · simp [ha, h.read_outBuf_of_pending hp]
  · exact hlen ▸ hS

/-- An engine error leaves OUT unwritten, as the CMD write had made it (R241). -/
theorem afterError (h : s.Inv) (hp : s.pending = true) (e : EngineError) : (afterError e s).Inv :=
  { h with
    outWritten := fun a => by simp [h.read_outBuf_of_pending hp]
    outFits := Nat.zero_le _
    statusLegal := statusError_mem_legalStatuses e
    outputOnlyWhenDone := fun _ => rfl
    pendingIffBusy := by simp [statusError_ne_statusBusy] }

theorem of_ending (h : s.Inv) (hp : s.pending = true) {r : StepResult} (hr : EndsWithin s.cfg.outCap s r)
    {t : State} (ht : r = .next t) : t.Inv := by
  obtain ⟨S, hS, rfl⟩ | ⟨e, rfl⟩ | rfl := hr.next_cases ht
  · exact h.afterSuccess hp hS
  · exact h.afterError hp e
  · exact h.afterFault _

theorem engineTurn (h : s.Inv) {t : State} (ht : engineTurn s = .next t) : t.Inv := by
  obtain ⟨-, hs⟩ | ⟨hp, i, -, hi⟩ | ⟨hp, e, -, he⟩ := engineTurn_cases s
  · cases hs.symm.trans ht; exact h
  · exact h.of_ending hp (exec_endsWithin_outCap i h.parameters) (hi.symm.trans ht)
  · exact h.of_ending hp (.error .illegalCommand) (he.symm.trans ht)

theorem hostWrite (h : s.Inv) {t : State} {width : Width} {a : Nat} {v : Word} (ht : hostWrite s width a v = .ok t) :
    t.Inv := by
  obtain ⟨-, ⟨-, -, rfl⟩ | ⟨-, -, rfl⟩ | ⟨-, -, rfl⟩ | ⟨i, -, hi, rfl⟩ | ⟨i, -, hi, rfl⟩⟩ := hostWrite_ok ht
  · exact h.startCommand v
  · exact { h with }
  · exact { h with }
  · exact h.withKeyByte (eq_of_targetOf_key hi).1 _
  · exact h.withInByte (eq_of_targetOf_in hi).1 _

theorem hostTurn (h : s.Inv) {t : State} (ht : hostTurn s = .next t) : t.Inv := by
  obtain hs | ⟨r, hr⟩ | ⟨line, hl⟩ | ⟨_, _, temp, v, -, hn | hi⟩ | ⟨_, _, _, u, -, hw, hu⟩ := hostTurn_cases s
  · cases hs.symm.trans ht; exact h
  · obtain rfl := modelFault_next.mp (hr.symm.trans ht); exact h.afterFault r
  · cases hl.symm.trans ht; exact h.goToLine line
  · cases hn.symm.trans ht; exact (h.assignTemporary temp v).goToLine _
  · cases hi.symm.trans ht; exact (h.assignTemporary temp v).nextIndex
  · cases hu.symm.trans ht; exact (h.hostWrite hw).goToLine _

end State.Inv

/-- Settles O9: a reset gives power-on values, and each agent's turn keeps the invariant. -/
theorem stepKeepsTheInvariant : Obligations.StepKeepsTheInvariant := by
  unfold Obligations.StepKeepsTheInvariant
  intro s t h hst
  have h' : State.Inv { s with schedule := s.schedule.tail } := h.withSchedule _
  obtain ⟨-, rfl⟩ | he | hh := step_next_cases hst
  · exact h'.resetInput
  · exact h'.engineTurn he
  · exact h'.hostTurn hh

end Sys2Proof.Machine
end

section
/-! The frame of every command (60_exceptions.md rules R240, R241 and R243). -/

namespace Sys2Proof.Machine

/-- Settles O13: by the ending of the command; only an output writes OUT, and it writes OUT[0..OUT_LEN). -/
theorem commandsChangeOnlyTheirOutput : Obligations.CommandsChangeOnlyTheirOutput := by
  unfold Obligations.CommandsChangeOnlyTheirOutput
  intro i s t hc ht
  obtain ⟨S, hS, rfl⟩ | ⟨e, rfl⟩ | rfl := (exec_endsWithin_outCap i hc).next_cases ht
  · refine ⟨rfl, rfl, rfl, rfl, rfl, rfl, fun _ => rfl, fun _ => rfl, fun a ha => ?_, fun h => absurd rfl h,
      fun h => absurd rfl h⟩
    rw [afterSuccess_outLen, toNat_ofNat_of_le_outCap hc hS] at ha
    rw [afterSuccess_outBuf, Memory.read_writeRange, if_neg (by omega)]
  · exact ⟨rfl, rfl, rfl, rfl, rfl, rfl, fun _ => rfl, fun _ => rfl, fun _ _ => rfl, fun _ _ => rfl,
      fun h => absurd rfl h⟩
  · exact ⟨rfl, rfl, rfl, rfl, rfl, rfl, fun _ => rfl, fun _ => rfl, fun _ _ => rfl, fun _ _ => rfl, fun _ => rfl⟩

end Sys2Proof.Machine
end

section
/-! What a host read answers (20_memory.md rules R51 to R54): while STATE is not BUSY every access is admitted, and
the target and the width decide. -/

namespace Sys2Proof.Machine

section Reads
variable {s : State} {a : Nat}

theorem isBusy_eq_false (h : stateField s.status ≠ 1) : isBusy s = false := by simpa [isBusy] using h

theorem hostRead_cmd (hb : isBusy s = false) (ha : targetOf s.cfg a = .cmd) : hostRead s .w32 a = .ok s.cmd := by
  simp [hostRead, hostMayRead, hb, ha]

theorem hostRead_status (hb : isBusy s = false) (ha : targetOf s.cfg a = .status) :
    hostRead s .w32 a = .ok s.status := by simp [hostRead, hostMayRead, hb, ha]

theorem hostRead_keyLen (hb : isBusy s = false) (ha : targetOf s.cfg a = .keyLen) :
    hostRead s .w32 a = .ok s.keyLen := by simp [hostRead, hostMayRead, hb, ha]

theorem hostRead_inLen (hb : isBusy s = false) (ha : targetOf s.cfg a = .inLen) :
    hostRead s .w32 a = .ok s.inLen := by simp [hostRead, hostMayRead, hb, ha]

theorem hostRead_outLen (hb : isBusy s = false) (ha : targetOf s.cfg a = .outLen) :
    hostRead s .w32 a = .ok s.outLen := by simp [hostRead, hostMayRead, hb, ha]

theorem hostRead_keyByte {i : Nat} (hb : isBusy s = false) (ha : targetOf s.cfg a = .keyByte i) :
    hostRead s .w8 a = .error .readWriteOnly := by simp [hostRead, hostMayRead, hb, ha]

theorem hostRead_inByte {i : Nat} (hb : isBusy s = false) (ha : targetOf s.cfg a = .inByte i) :
    hostRead s .w8 a = readByte s.inBuf i := by simp [hostRead, hostMayRead, hb, ha]

theorem hostRead_outByte {i : Nat} (hb : isBusy s = false) (ha : targetOf s.cfg a = .outByte i) :
    hostRead s .w8 a = readByte s.outBuf i := by simp [hostRead, hostMayRead, hb, ha]

theorem hostRead_reserved (hb : isBusy s = false) (width : Width) (ha : targetOf s.cfg a = .reserved) :
    hostRead s width a = .error .unmapped := by simp [hostRead, hostMayRead, hb, ha]

/-- The width at which a target is accessed (R52, R53); an address inside a register and a reserved one have none. -/
def accessWidth : Target → Option Width
  | .cmd => some .w32
  | .status => some .w32
  | .keyLen => some .w32
  | .inLen => some .w32
  | .outLen => some .w32
  | .keyByte _ => some .w8
  | .inByte _ => some .w8
  | .outByte _ => some .w8
  | .insideRegister => none
  | .reserved => none

/-- Any other width than the target's own is BadAccessWidth, unless the address is reserved (R52, R53). -/
theorem hostRead_badAccessWidth (hb : isBusy s = false) {width : Width} (hr : targetOf s.cfg a ≠ .reserved)
    (hw : accessWidth (targetOf s.cfg a) ≠ some width) : hostRead s width a = .error .badAccessWidth := by
  unfold hostRead hostMayRead
  cases ht : targetOf s.cfg a <;> rw [ht] at hr hw <;> cases width <;> simp_all [accessWidth]

end Reads

theorem readByte_of_read {m : Memory} {i : Nat} {b : Byte} (h : Memory.read m i = some b) :
    readByte m i = .ok (b.setWidth 32) := by simp [readByte, h]

theorem readByte_of_unwritten {m : Memory} {i : Nat} (h : Memory.read m i = none) :
    readByte m i = .error .unwrittenRead := by simp [readByte, h]

/-- Inside the registers an address is a register's first byte, accessed at 32 bits, or has no width (R52). -/
theorem accessWidth_of_lt (c : Config) {a : Nat} (ha : a < 0x14) :
    targetOf c a ≠ .reserved ∧ ∀ width, accessWidth (targetOf c a) = some width → width = .w32 ∧ a % 4 = 0 := by
  have ht : targetOf c a = registerTarget a := if_pos (by omega)
  rw [ht]
  rcases registerTarget_cases a with ⟨rfl, e⟩ | ⟨rfl, e⟩ | ⟨rfl, e⟩ | ⟨rfl, e⟩ | ⟨rfl, e⟩ | ⟨-, -, e⟩ | ⟨h, -⟩
  case inr.inr.inr.inr.inr.inr => omega
  all_goals simp [e, accessWidth, eq_comm]

/-- A buffer byte is accessed at 8 bits (R53). -/
theorem accessWidth_of_buffer {c : Config} (hc : c.wf) {a : Nat}
    (ha : (0x40 ≤ a ∧ a < 0x58) ∨ (0x10000 ≤ a ∧ a < 0x10000 + c.inCap) ∨
      (0x20000 ≤ a ∧ a < 0x20000 + c.outCap)) :
    targetOf c a ≠ .reserved ∧ accessWidth (targetOf c a) = some .w8 := by
  obtain ⟨-, hin, -, -⟩ := hc
  rcases ha with ⟨hlo, hhi⟩ | ⟨hlo, hhi⟩ | ⟨hlo, hhi⟩ <;> obtain ⟨i, rfl⟩ := Nat.exists_eq_add_of_le hlo
  · simp [targetOf_key c (show i < 24 by omega), accessWidth]
  · simp [targetOf_in (show i < c.inCap by omega) (by omega), accessWidth]
  · simp [targetOf_out (show i < c.outCap by omega), accessWidth]

/-- The rest of each region is reserved, and so is what lies beyond the window (R51, log entry 9). -/
theorem targetOf_reserved {c : Config} (hc : c.wf) {a : Nat}
    (ha : (0x14 ≤ a ∧ a < 0x40) ∨ (0x58 ≤ a ∧ a < 0x10000) ∨ (0x10000 + c.inCap ≤ a ∧ a < 0x20000) ∨
      0x20000 + c.outCap ≤ a) : targetOf c a = .reserved := by
  obtain ⟨-, hin, -, -⟩ := hc
  rcases targetOf_cases c a with ⟨hlt, e⟩ | ⟨i, hi, rfl, -⟩ | ⟨i, hi, hi', rfl, -⟩ | ⟨i, hi, rfl, -⟩ | ⟨-, e⟩
  · rw [e]
    rcases registerTarget_cases a with ⟨rfl, -⟩ | ⟨rfl, -⟩ | ⟨rfl, -⟩ | ⟨rfl, -⟩ | ⟨rfl, -⟩ | ⟨h, -⟩ | ⟨-, h⟩
    case inr.inr.inr.inr.inr.inr => exact h
    all_goals omega
  · omega
  · omega
  · omega
  · exact e

/-- Settles O42: each clause is the address map's answer and the read of that target. -/
theorem hostReadsFollowTheAddressMap : Obligations.HostReadsFollowTheAddressMap := by
  unfold Obligations.HostReadsFollowTheAddressMap
  intro s hc hs
  have hb := isBusy_eq_false hs
  have hin : ∀ {i}, i < s.cfg.inCap → targetOf s.cfg (0x10000 + i) = .inByte i := fun hi =>
    targetOf_in hi (by obtain ⟨-, hcap, -, -⟩ := hc; omega)
  refine ⟨⟨hostRead_cmd hb rfl, hostRead_status hb rfl, hostRead_keyLen hb rfl, hostRead_inLen hb rfl,
    hostRead_outLen hb rfl⟩, ?_, ?_, ?_, ?_, ?_, ?_, ?_, ?_⟩
  · exact fun i hi => hostRead_keyByte hb (targetOf_key s.cfg hi)
  · exact fun i b hi h => (hostRead_inByte hb (hin hi)).trans (readByte_of_read h)
  · exact fun i hi h => (hostRead_inByte hb (hin hi)).trans (readByte_of_unwritten h)
  · exact fun i b hi h => (hostRead_outByte hb (targetOf_out hi)).trans (readByte_of_read h)
  · exact fun i hi h => (hostRead_outByte hb (targetOf_out hi)).trans (readByte_of_unwritten h)
  · intro a width ha hw
    obtain ⟨hr, hwidth⟩ := accessWidth_of_lt s.cfg ha
    exact hostRead_badAccessWidth hb hr fun h => by
      obtain ⟨h32, h4⟩ := hwidth width h
      exact hw.elim (absurd h32) (absurd h4)
  · intro a width hw ha
    obtain ⟨hr, hwidth⟩ := accessWidth_of_buffer hc ha
    exact hostRead_badAccessWidth hb hr fun h => hw (Option.some.inj (h.symm.trans hwidth))
  · exact fun a width ha => hostRead_reserved hb width (targetOf_reserved hc ha)

end Sys2Proof.Machine
end

section
/-! Without a pending command only a reset or a CMD write touches CMD, STATUS and the output (20_memory.md rule R62). -/

namespace Sys2Proof.Machine

/-- `t` has the command, the status and the output of `s`. -/
structure SameOutput (s t : State) : Prop where
  cmd : t.cmd = s.cmd
  status : t.status = s.status
  outLen : t.outLen = s.outLen
  outBuf : t.outBuf = s.outBuf
  pending : t.pending = s.pending

/-- CMD has one address. -/
theorem eq_zero_of_targetOf_cmd {c : Config} {a : Nat} (h : targetOf c a = .cmd) : a = 0x00000 :=
  eq_of_targetOf_eq (c := c) (b := 0x00000) (h.trans rfl) (by simp [h]) (by simp [h])

theorem hostWrite_sameOutput {s t : State} {width : Width} {a : Nat} {v : Word} (h : hostWrite s width a v = .ok t)
    (hcmd : ¬(width = .w32 ∧ a = 0x00000)) : SameOutput s t := by
  obtain ⟨-, ⟨hw, ha, rfl⟩ | ⟨-, -, rfl⟩ | ⟨-, -, rfl⟩ | ⟨i, -, -, rfl⟩ | ⟨i, -, -, rfl⟩⟩ := hostWrite_ok h
  · exact absurd ⟨hw, eq_zero_of_targetOf_cmd ha⟩ hcmd
  all_goals exact ⟨rfl, rfl, rfl, rfl, rfl⟩

theorem hostTurn_sameOutput {s t : State} (h : hostTurn s = .next t)
    (hcmd : ∀ v, s.host.script[s.host.line]? ≠ some (.write .w32 0x00000 v)) : SameOutput s t := by
  obtain hs | ⟨r, hr⟩ | ⟨line, hl⟩ | ⟨_, _, _, _, -, hn | hi⟩ | ⟨width, a, v, u, ho, hw, hu⟩ := hostTurn_cases s
  · cases hs.symm.trans h; exact ⟨rfl, rfl, rfl, rfl, rfl⟩
  · obtain rfl := modelFault_next.mp (hr.symm.trans h); exact ⟨rfl, rfl, rfl, rfl, rfl⟩
  · cases hl.symm.trans h; exact ⟨rfl, rfl, rfl, rfl, rfl⟩
  · cases hn.symm.trans h; exact ⟨rfl, rfl, rfl, rfl, rfl⟩
  · cases hi.symm.trans h; exact ⟨rfl, rfl, rfl, rfl, rfl⟩
  · cases hu.symm.trans h
    have hne : ¬(width = .w32 ∧ a = 0x00000) := by rintro ⟨rfl, rfl⟩; exact hcmd v ho
    obtain ⟨hcmd, hstatus, houtLen, houtBuf, hpending⟩ := hostWrite_sameOutput hw hne
    exact ⟨hcmd, hstatus, houtLen, houtBuf, hpending⟩

/-- Without a pending command the engine has no step (R240). -/
theorem engineTurn_of_not_pending {s : State} (h : s.pending = false) : engineTurn s = .next s := by
  simp [engineTurn, h]

theorem engineTurn_sameOutput {s t : State} (h : engineTurn s = .next t) (hp : s.pending = false) :
    SameOutput s t := by
  cases (engineTurn_of_not_pending hp).symm.trans h
  exact ⟨rfl, rfl, rfl, rfl, rfl⟩

theorem step_sameOutput {s t : State} (h : step s = .next t) (hp : s.pending = false)
    (hreset : s.schedule.head? ≠ some .reset)
    (hcmd : ∀ v, s.host.script[s.host.line]? ≠ some (.write .w32 0x00000 v)) : SameOutput s t := by
  obtain ⟨hr, -⟩ | he | hh := step_next_cases h
  · exact absurd hr hreset
  · obtain ⟨hcmd, hstatus, houtLen, houtBuf, hpending⟩ := engineTurn_sameOutput he hp
    exact ⟨hcmd, hstatus, houtLen, houtBuf, hpending⟩
  · obtain ⟨hcmd, hstatus, houtLen, houtBuf, hpending⟩ := hostTurn_sameOutput hh hcmd
    exact ⟨hcmd, hstatus, houtLen, houtBuf, hpending⟩

/-- Settles O50: the engine has no step, and of the host's lines only the CMD write reaches these fields. -/
theorem outputStaysUntilTheNextCommand : Obligations.OutputStaysUntilTheNextCommand := by
  unfold Obligations.OutputStaysUntilTheNextCommand
  intro s t hp hreset hcmd h
  obtain ⟨hcmd, hstatus, houtLen, houtBuf, hpending⟩ := step_sameOutput h hp hreset hcmd
  exact ⟨hcmd, hstatus, houtLen, hpending.trans hp, fun a => by rw [houtBuf]⟩

end Sys2Proof.Machine
end


section
/-! Noninterference: a command's checks and operand reads commute with a change of the KEY and IN bytes it does not
read (10_state.md rule R34, 30_encoding.md rule R72). -/

namespace Sys2Proof.Machine

/-- The machine with other contents of KEY and IN. -/
def State.withInputs (key inBuf : Memory) (s : State) : State := { s with key := key, inBuf := inBuf }

/-- The result with its next state changed. -/
def mapNext (f : State → State) : StepResult → StepResult
  | .next t => .next (f t)
  | .fault r => .fault r
  | .refused r => .refused r

/-- The check does not look at KEY or IN. -/
abbrev IgnoresInputs (check : State → StepResult → StepResult) : Prop :=
  ∀ (key inBuf : Memory) (s : State) (next : StepResult),
    check (s.withInputs key inBuf) (mapNext (.withInputs key inBuf) next) =
      mapNext (.withInputs key inBuf) (check s next)

theorem requireKeySelect_ignoresInputs (ksel : BitVec 2) : IgnoresInputs (requireKeySelect ksel) :=
  fun _ _ s next => (apply_ite (mapNext _) _ next (raise _ s)).symm

theorem requireKeyLength_ignoresInputs : IgnoresInputs requireKeyLength :=
  fun _ _ s next => (apply_ite (mapNext _) _ next (raise _ s)).symm

theorem requireInputFits_ignoresInputs : IgnoresInputs requireInputFits :=
  fun _ _ s next => (apply_ite (mapNext _) _ next (raise _ s)).symm

theorem requireOneBlock_ignoresInputs : IgnoresInputs requireOneBlock :=
  fun _ _ s next => (apply_ite (mapNext _) _ next (raise _ s)).symm

theorem requireWholeBlocks_ignoresInputs : IgnoresInputs requireWholeBlocks :=
  fun _ _ s next => (apply_ite (mapNext _) _ (raise _ s) next).symm

theorem requireLastByte_ignoresInputs : IgnoresInputs requireLastByte :=
  fun _ _ s next => (apply_ite (mapNext _) _ (raise _ s) next).symm

/-- Buffers that read alike over a range have the same range. -/
theorem Memory.readRange_congr {α : Type} {m m' : List (Nat × α)} {a n : Nat}
    (h : ∀ j, j < n → Memory.read m (a + j) = Memory.read m' (a + j)) :
    Memory.readRange m a n = Memory.readRange m' a n := by
  refine Option.ext fun S => ?_
  rw [Memory.readRange_eq_some, Memory.readRange_eq_some]
  exact and_congr_right fun _ => forall₂_congr fun j hj => by rw [h j hj]

section Commute
variable {key inBuf : Memory} {s : State}

theorem succeed_withInputs (S : List Byte) :
    succeed S (s.withInputs key inBuf) = mapNext (.withInputs key inBuf) (succeed S s) := rfl

theorem complete_withInputs (result : Except EngineError (List Byte)) :
    complete result (s.withInputs key inBuf) = mapNext (.withInputs key inBuf) (complete result s) := by
  cases result <;> rfl

/-- An operand that both machines read alike gives the same continuation. -/
theorem withOperand_withInputs {α : Type} {operand operand' : Option α} (h : operand' = operand)
    {next next' : α → StepResult} (hnext : ∀ v, next' v = mapNext (.withInputs key inBuf) (next v)) :
    withOperand operand' (s.withInputs key inBuf) next' =
      mapNext (.withInputs key inBuf) (withOperand operand s next) := by
  subst h
  cases operand' with
  | none => rfl
  | some v => exact hnext v

theorem check_withInputs {check : State → StepResult → StepResult} (hcheck : IgnoresInputs check)
    {next next' : StepResult} (hnext : next' = mapNext (.withInputs key inBuf) next) :
    check (s.withInputs key inBuf) next' = mapNext (.withInputs key inBuf) (check s next) :=
  hnext ▸ hcheck key inBuf s next

/-- The block commands read `IN[0..8)` only once IN_LEN is 8. -/
theorem requireOneBlock_withInputs {next next' : StepResult}
    (hnext : s.inLen = 8 → next' = mapNext (.withInputs key inBuf) next) :
    requireOneBlock (s.withInputs key inBuf) next' =
      mapNext (.withInputs key inBuf) (requireOneBlock s next) := by
  by_cases h : s.inLen = 8
  · exact check_withInputs requireOneBlock_ignoresInputs (hnext h)
  · rw [requireOneBlock_fail h]
    exact requireOneBlock_fail (s := s.withInputs key inBuf) h

theorem oneBlock_withInputs {α : Type} {operand operand' : Option α} {cipher : α → Block → List Byte}
    (hop : operand' = operand)
    (hin : ∀ a, a < s.inLen.toNat → Memory.read inBuf a = Memory.read s.inBuf a) :
    (requireKeyLength (s.withInputs key inBuf) <| requireInputFits (s.withInputs key inBuf) <|
      requireOneBlock (s.withInputs key inBuf) <| withOperand operand' (s.withInputs key inBuf) fun K =>
      withOperand (blockOf (s.withInputs key inBuf)) (s.withInputs key inBuf) fun B =>
      succeed (cipher K B) (s.withInputs key inBuf)) =
    mapNext (.withInputs key inBuf) (requireKeyLength s <| requireInputFits s <| requireOneBlock s <|
      withOperand operand s fun K => withOperand (blockOf s) s fun B => succeed (cipher K B) s) := by
  refine check_withInputs requireKeyLength_ignoresInputs <| check_withInputs requireInputFits_ignoresInputs <|
    requireOneBlock_withInputs fun h8 => withOperand_withInputs hop fun K =>
    withOperand_withInputs ?_ fun B => succeed_withInputs _
  exact congrArg (Option.map (ofBytes 64)) (Memory.readRange_congr fun j hj =>
    hin _ (by rw [h8, Nat.zero_add]; exact hj))

theorem rawKeyOf_withInputs {ksel : BitVec 2}
    (h : ∀ a, 8 * ksel.toNat ≤ a ∧ a < 8 * ksel.toNat + 8 → Memory.read key a = Memory.read s.key a) :
    rawKeyOf (s.withInputs key inBuf) ksel = rawKeyOf s ksel :=
  congrArg (Option.map (ofBytes 64)) (Memory.readRange_congr fun _ _ => h _ (by omega))

theorem tripleKeyOf_withInputs (h : ∀ a, a < 24 → Memory.read key a = Memory.read s.key a) :
    tripleKeyOf (s.withInputs key inBuf) = tripleKeyOf s :=
  congrArg (Option.map (ofBytes 192)) (Memory.readRange_congr fun _ _ => h _ (by omega))

theorem inputOf_withInputs (h : ∀ a, a < s.inLen.toNat → Memory.read inBuf a = Memory.read s.inBuf a) :
    inputOf (s.withInputs key inBuf) = inputOf s :=
  Memory.readRange_congr fun j hj => h _ (by rw [Nat.zero_add]; exact hj)

/-- A command acts alike on two machines that agree on the bytes it reads. -/
theorem exec_withInputs (i : Instr) (hkey : ∀ a, readsKeyByte i a → Memory.read key a = Memory.read s.key a)
    (hin : ∀ a, readsInByte i s a → Memory.read inBuf a = Memory.read s.inBuf a) :
    exec i (s.withInputs key inBuf) = mapNext (.withInputs key inBuf) (exec i s) := by
  have hin' (hr : readsInput i = true) (a : Nat) (ha : a < s.inLen.toNat) :
      Memory.read inBuf a = Memory.read s.inBuf a := hin a ⟨hr, ha⟩
  cases i with
  | nop => exact succeed_withInputs _
  | encrypt =>
    exact check_withInputs requireKeyLength_ignoresInputs <| check_withInputs requireInputFits_ignoresInputs <|
      withOperand_withInputs (tripleKeyOf_withInputs hkey) fun TK =>
      withOperand_withInputs (inputOf_withInputs (hin' rfl)) fun P => succeed_withInputs _
  | decrypt =>
    exact check_withInputs requireKeyLength_ignoresInputs <| check_withInputs requireInputFits_ignoresInputs <|
      check_withInputs requireWholeBlocks_ignoresInputs <|
      withOperand_withInputs (tripleKeyOf_withInputs hkey) fun TK =>
      withOperand_withInputs (inputOf_withInputs (hin' rfl)) fun C => complete_withInputs _
  | tdesEnc => exact oneBlock_withInputs (tripleKeyOf_withInputs hkey) (hin' rfl)
  | tdesDec => exact oneBlock_withInputs (tripleKeyOf_withInputs hkey) (hin' rfl)
  | desEnc ksel =>
    exact check_withInputs (requireKeySelect_ignoresInputs ksel) <|
      oneBlock_withInputs (rawKeyOf_withInputs hkey) (hin' rfl)
  | desDec ksel =>
    exact check_withInputs (requireKeySelect_ignoresInputs ksel) <|
      oneBlock_withInputs (rawKeyOf_withInputs hkey) (hin' rfl)
  | pad =>
    exact check_withInputs requireInputFits_ignoresInputs <|
      withOperand_withInputs (inputOf_withInputs (hin' rfl)) fun D => succeed_withInputs _
  | unpad =>
    exact check_withInputs requireInputFits_ignoresInputs <| check_withInputs requireLastByte_ignoresInputs <|
      withOperand_withInputs (inputOf_withInputs (hin' rfl)) fun D => complete_withInputs _
  | keysched ksel =>
    exact check_withInputs (requireKeySelect_ignoresInputs ksel) <|
      check_withInputs requireKeyLength_ignoresInputs <|
      withOperand_withInputs (rawKeyOf_withInputs hkey) fun K => succeed_withInputs _

end Commute

/-- Each ending of a command is a next state. -/
theorem CommandEnding.exists_next {s : State} {r : StepResult} (h : CommandEnding s r) : ∃ t, r = .next t := by
  cases h with
  | output S => exact ⟨_, rfl⟩
  | error e => exact ⟨_, rfl⟩
  | unwritten => exact ⟨_, rfl⟩

/-- Settles O52: a command answers a next state, and the other machine's is that state with its own KEY and IN. -/
theorem commandsDependOnlyOnWhatTheyRead : Obligations.CommandsDependOnlyOnWhatTheyRead := by
  unfold Obligations.CommandsDependOnlyOnWhatTheyRead
  intro i s key inBuf _ hkey hin
  obtain ⟨t, ht⟩ := (exec_commandEnding i s).exists_next
  exact ⟨t, ht, (exec_withInputs i hkey hin).trans (congrArg (mapNext (.withInputs key inBuf)) ht)⟩

end Sys2Proof.Machine
end

section
/-! The host's turn in a step (20_memory.md rule R61; log entries 3, 16 and 17). -/

namespace Sys2Proof.Machine

theorem step_of_host_scheduled {s : State} {rest : List Turn} (hr : s.running) (hs : s.schedule = .host :: rest) :
    step s = hostTurn { s with schedule := rest } := by
  unfold step
  rw [hs]
  exact agentTurn_running (s := { s with schedule := rest }) hr hostTurn

theorem step_of_host_default {s : State} (hr : s.running) (hs : s.schedule = []) (hp : s.pending = false) :
    step s = hostTurn s := by
  unfold step
  rw [hs]
  simp [agentTurn_running hr, defaultTurn, hp]

theorem hostTurn_of_line {s : State} {op : HostOp} (h : s.host.script[s.host.line]? = some op) :
    hostTurn s = hostLine op s := by simp [hostTurn, h]

theorem hostTurn_of_end {s : State} (h : s.host.script[s.host.line]? = none) : hostTurn s = .next s := by
  simp [hostTurn, h]

/-- Settles O6: a step of the host's is its turn, which is the line its script is at. -/
theorem hostTurnRunsItsLine : Obligations.HostTurnRunsItsLine := by
  unfold Obligations.HostTurnRunsItsLine
  refine ⟨fun s rest op hr hs ho => ?_, fun s op hr hs hp ho => ?_, fun s rest hr hs ho => ?_⟩
  · exact (step_of_host_scheduled hr hs).trans (hostTurn_of_line ho)
  · exact (step_of_host_default hr hs hp).trans (hostTurn_of_line ho)
  · exact (step_of_host_scheduled hr hs).trans (hostTurn_of_end ho)

end Sys2Proof.Machine
end

section
/-! The fields of the legal STATUS words (10_state.md rules R23 to R25). -/

namespace Sys2Proof.Machine

/-- In a STATUS word the reserved bits are zero, and ERR is 0 but in STATE = ERROR, where it is 1 to 6. -/
abbrev statusFieldsLegal (w : Word) : Prop :=
  bitField w 3 2 = 0 ∧ bitField w 31 8 = 0 ∧ (stateField w ≠ 3 → errField w = 0) ∧
    (stateField w = 3 → 1 ≤ errField w ∧ errField w ≤ 6)

theorem statusFieldsLegal_of_mem : ∀ w ∈ legalStatuses, statusFieldsLegal w :=
  List.forall_iff_forall_mem.mp (by decide)

/-- Settles O10: the invariant leaves nine STATUS words, and OUT_LEN's bound is a part of it. -/
theorem statusFieldsAgree : Obligations.StatusFieldsAgree := by
  unfold Obligations.StatusFieldsAgree
  intro s h
  obtain ⟨h32, h318, herr, hcode⟩ := statusFieldsLegal_of_mem s.status h.statusLegal
  exact ⟨h32, h318, herr, hcode, h.outFits⟩

end Sys2Proof.Machine
end

section
/-! What a host write does (20_memory.md rules R51 to R54, R60): while STATE is not BUSY the target and the width
decide, as for a read. -/

namespace Sys2Proof.Machine

section Writes
variable {s : State} {a : Nat} (v : Word)

theorem hostWrite_busy (hb : isBusy s = true) (width : Width) (a : Nat) :
    hostWrite s width a v = .error .busyAccess := by simp [hostWrite, hb]

theorem hostWrite_cmd (hb : isBusy s = false) (ha : targetOf s.cfg a = .cmd) :
    hostWrite s .w32 a v = .ok (startCommand v s) := by simp [hostWrite, hb, ha]

theorem hostWrite_status (hb : isBusy s = false) (ha : targetOf s.cfg a = .status) :
    hostWrite s .w32 a v = .error .writeReadOnly := by simp [hostWrite, hb, ha]

theorem hostWrite_keyLen (hb : isBusy s = false) (ha : targetOf s.cfg a = .keyLen) :
    hostWrite s .w32 a v = .ok { s with keyLen := v } := by simp [hostWrite, hb, ha]

theorem hostWrite_inLen (hb : isBusy s = false) (ha : targetOf s.cfg a = .inLen) :
    hostWrite s .w32 a v = .ok { s with inLen := v } := by simp [hostWrite, hb, ha]

theorem hostWrite_outLen (hb : isBusy s = false) (ha : targetOf s.cfg a = .outLen) :
    hostWrite s .w32 a v = .error .writeReadOnly := by simp [hostWrite, hb, ha]

theorem hostWrite_keyByte {i : Nat} (hb : isBusy s = false) (ha : targetOf s.cfg a = .keyByte i) :
    hostWrite s .w8 a v = .ok { s with key := Memory.write s.key i (v.setWidth 8) } := by simp [hostWrite, hb, ha]

theorem hostWrite_inByte {i : Nat} (hb : isBusy s = false) (ha : targetOf s.cfg a = .inByte i) :
    hostWrite s .w8 a v = .ok { s with inBuf := Memory.write s.inBuf i (v.setWidth 8) } := by
  simp [hostWrite, hb, ha]

theorem hostWrite_outByte {i : Nat} (hb : isBusy s = false) (ha : targetOf s.cfg a = .outByte i) :
    hostWrite s .w8 a v = .error .writeReadOnly := by simp [hostWrite, hb, ha]

theorem hostWrite_reserved (hb : isBusy s = false) (width : Width) (ha : targetOf s.cfg a = .reserved) :
    hostWrite s width a v = .error .unmapped := by simp [hostWrite, hb, ha]

/-- Any other width than the target's own is BadAccessWidth, unless the address is reserved (R52, R53). -/
theorem hostWrite_badAccessWidth (hb : isBusy s = false) {width : Width} (hr : targetOf s.cfg a ≠ .reserved)
    (hw : accessWidth (targetOf s.cfg a) ≠ some width) : hostWrite s width a v = .error .badAccessWidth := by
  unfold hostWrite
  cases ht : targetOf s.cfg a <;> rw [ht] at hr hw <;> cases width <;> simp_all [accessWidth]

end Writes

/-- The IN bytes' addresses: a capacity in the bounds of R6 fills at most its region (R51). -/
theorem targetOf_in_of_wf {c : Config} (hc : c.wf) {i : Nat} (h : i < c.inCap) :
    targetOf c (0x10000 + i) = .inByte i :=
  targetOf_in h (by obtain ⟨-, hcap, -, -⟩ := hc; omega)

/-- Inside the registers no access but a 32-bit one at a register's first byte has the target's width (R52). -/
theorem accessWidth_ne_of_lt (c : Config) {a : Nat} {width : Width} (ha : a < 0x14)
    (hw : width ≠ .w32 ∨ a % 4 ≠ 0) : accessWidth (targetOf c a) ≠ some width := fun h => by
  obtain ⟨h32, h4⟩ := (accessWidth_of_lt c ha).2 width h
  exact hw.elim (absurd h32) (absurd h4)

/-- Settles O43: each clause is the address map's answer and the write of that target. -/
theorem hostWritesFollowTheAddressMap : Obligations.HostWritesFollowTheAddressMap := by
  unfold Obligations.HostWritesFollowTheAddressMap
  intro s v hc hs
  have hb := isBusy_eq_false hs
  refine ⟨⟨hostWrite_keyLen v hb rfl, hostWrite_inLen v hb rfl⟩,
    ⟨hostWrite_status v hb rfl, hostWrite_outLen v hb rfl⟩, ?_, ?_, ?_, ?_, ?_, ?_⟩
  · exact fun i hi => hostWrite_keyByte v hb (targetOf_key s.cfg hi)
  · exact fun i hi => hostWrite_inByte v hb (targetOf_in_of_wf hc hi)
  · exact fun i hi => hostWrite_outByte v hb (targetOf_out hi)
  · intro a width ha hw
    obtain ⟨hr, -⟩ := accessWidth_of_lt s.cfg ha
    exact hostWrite_badAccessWidth v hb hr (accessWidth_ne_of_lt s.cfg ha hw)
  · intro a width hw ha
    obtain ⟨hr, hwidth⟩ := accessWidth_of_buffer hc ha
    exact hostWrite_badAccessWidth v hb hr fun h => hw (Option.some.inj (h.symm.trans hwidth))
  · exact fun a width ha => hostWrite_reserved v hb width (targetOf_reserved hc ha)

end Sys2Proof.Machine
end

section
/-! Reading after a host write (20_memory.md rules R54 and R61): a read looks at the STATUS word and at its own target
only, and no two addresses share a register or a buffer byte. -/

namespace Sys2Proof.Machine

/-- What a read of the target at its own width answers; a target with no width has its fault (R51, R52, R54). -/
def valueAt (s : State) : Target → Except Fault Word
  | .cmd => .ok s.cmd
  | .status => .ok s.status
  | .keyLen => .ok s.keyLen
  | .inLen => .ok s.inLen
  | .outLen => .ok s.outLen
  | .insideRegister => .error .badAccessWidth
  | .keyByte _ => .error .readWriteOnly
  | .inByte i => readByte s.inBuf i
  | .outByte i => readByte s.outBuf i
  | .reserved => .error .unmapped

/-- An admitted read at the target's own width answers the target's value; a target without a width answers its fault
at every width. -/
theorem hostRead_eq_valueAt (s : State) (width : Width) (a : Nat) :
    hostRead s width a =
      if hostMayRead s width a then
        if accessWidth (targetOf s.cfg a) ∈ [none, some width] then valueAt s (targetOf s.cfg a)
        else .error .badAccessWidth
      else .error .busyAccess := by
  unfold hostRead
  cases targetOf s.cfg a <;> cases width <;> rfl

/-- A read looks at the address map, at STATUS and at the value of its target. -/
theorem hostRead_congr_valueAt {s t : State} {b : Nat} (hcfg : t.cfg = s.cfg) (hstatus : t.status = s.status)
    (hvalue : valueAt t (targetOf s.cfg b) = valueAt s (targetOf s.cfg b)) (width : Width) :
    hostRead t width b = hostRead s width b := by
  have hmay : hostMayRead t width b = hostMayRead s width b := by
    simp only [hostMayRead, isBusy, hcfg, hstatus]
  rw [hostRead_eq_valueAt, hostRead_eq_valueAt, hmay, hcfg, hvalue]

section OtherTargets
variable {s : State} {target : Target}

theorem valueAt_withKeyLen (h : target ≠ .keyLen) (v : Word) :
    valueAt { s with keyLen := v } target = valueAt s target := by
  cases target with
  | keyLen => exact absurd rfl h
  | _ => rfl

theorem valueAt_withInLen (h : target ≠ .inLen) (v : Word) :
    valueAt { s with inLen := v } target = valueAt s target := by
  cases target with
  | inLen => exact absurd rfl h
  | _ => rfl

/-- KEY is write-only, so no read sees what it holds (R54). -/
theorem valueAt_withKey (key : Memory) : valueAt { s with key := key } target = valueAt s target := by
  cases target <;> rfl

theorem valueAt_withInByte {i : Nat} (h : target ≠ .inByte i) (b : Byte) :
    valueAt { s with inBuf := Memory.write s.inBuf i b } target = valueAt s target := by
  cases target with
  | inByte j =>
    have hj : j ≠ i := fun e => h (congrArg Target.inByte e)
    simp only [valueAt, readByte, Memory.read_write_other s.inBuf b hj]
  | _ => rfl

end OtherTargets

/-- A host write that is not the CMD write leaves the value at every other address. -/
theorem valueAt_of_hostWrite_other {s t : State} {width : Width} {a b : Nat} {v : Word} (ha : a ≠ 0x00000)
    (hba : b ≠ a) (h : hostWrite s width a v = .ok t) :
    valueAt t (targetOf s.cfg b) = valueAt s (targetOf s.cfg b) := by
  have hne {target : Target} (ht : targetOf s.cfg a = target) (hr : target ≠ .reserved)
      (hi : target ≠ .insideRegister) : targetOf s.cfg b ≠ target := fun hb =>
    hba (eq_of_targetOf_eq (hb.trans ht.symm) (hb ▸ hr) (hb ▸ hi))
  obtain ⟨-, ⟨-, ht, -⟩ | ⟨-, ht, rfl⟩ | ⟨-, ht, rfl⟩ | ⟨i, -, -, rfl⟩ | ⟨i, -, ht, rfl⟩⟩ := hostWrite_ok h
  · exact absurd (eq_zero_of_targetOf_cmd ht) ha
  · exact valueAt_withKeyLen (hne ht nofun nofun) v
  · exact valueAt_withInLen (hne ht nofun nofun) v
  · exact valueAt_withKey _
  · exact valueAt_withInByte (hne ht nofun nofun) _

/-- A host write that is not the CMD write is not seen by a read of any other address (R61). -/
theorem hostRead_of_hostWrite_other {s t : State} {width : Width} {a b : Nat} {v : Word} (ha : a ≠ 0x00000)
    (hba : b ≠ a) (h : hostWrite s width a v = .ok t) (width' : Width) :
    hostRead t width' b = hostRead s width' b :=
  hostRead_congr_valueAt (hostWrite_sameSetup h).cfg (hostWrite_sameOutput h fun hcmd => ha hcmd.2).status
    (valueAt_of_hostWrite_other ha hba h) width'

/-- Settles O44: the write has set its target, which the read answers; no other address has that target. -/
theorem hostWriteThenRead : Obligations.HostWriteThenRead := by
  unfold Obligations.HostWriteThenRead
  refine ⟨fun s t v i hc hi h => ?_, fun s t v a ha h => ?_, fun s t width width' v a b ha hba h => ?_⟩
  · obtain ⟨hb, -⟩ := hostWrite_ok h
    have ht := targetOf_in_of_wf hc hi
    cases (hostWrite_inByte v hb ht).symm.trans h
    exact (hostRead_inByte (s := { s with inBuf := Memory.write s.inBuf i (v.setWidth 8) }) hb ht).trans
      (readByte_of_read (Memory.read_write_same ..))
  · obtain ⟨hb, -⟩ := hostWrite_ok h
    obtain rfl | rfl := ha
    · cases (hostWrite_keyLen v hb rfl).symm.trans h
      exact hostRead_keyLen hb rfl
    · cases (hostWrite_inLen v hb rfl).symm.trans h
      exact hostRead_inLen hb rfl
  · exact hostRead_of_hostWrite_other ha hba h width'

end Sys2Proof.Machine
end

section
/-! A host read has no side effect (20_memory.md rule R59): a line that reads moves the host alone, and a line that
faults sets the mark alone, which no read looks at. -/

namespace Sys2Proof.Machine

/-- Everything a read line can do. -/
theorem hostLine_read_cases (s : State) (width : Width) (temp a : Nat) :
    (∃ v, hostRead s width a = .ok v ∧
      hostLine (.read width temp a) s = .next (goToLine (s.host.line + 1) (assignTemporary temp v s))) ∨
    ∃ r, hostRead s width a = .error r ∧ hostLine (.read width temp a) s = modelFault r s := by
  cases hr : hostRead s width a with
  | ok v => exact .inl ⟨v, rfl, by simp [hostLine, hr]⟩
  | error r => exact .inr ⟨r, rfl, by simp [hostLine, hr]⟩

/-- Everything a turn at a line of counted reads can do: the next of them, or going on to the next line. -/
theorem hostLine_readBytes_cases (s : State) (count temp a : Nat) :
    (∃ v, hostRead s .w8 (a + s.host.index) = .ok v ∧ hostLine (.readBytes count temp a) s =
      .next (afterCountedRead (temporaryOf s.host count).toNat (assignTemporary (temp + s.host.index) v s))) ∨
    (∃ r, hostRead s .w8 (a + s.host.index) = .error r ∧ hostLine (.readBytes count temp a) s = modelFault r s) ∨
    ((temporaryOf s.host count).toNat ≤ s.host.index ∧
      hostLine (.readBytes count temp a) s = .next (goToLine (s.host.line + 1) s)) := by
  by_cases hi : s.host.index < (temporaryOf s.host count).toNat
  · cases hr : hostRead s .w8 (a + s.host.index) with
    | ok v => exact .inl ⟨v, rfl, by simp [hostLine, hi, hr]⟩
    | error r => exact .inr (.inl ⟨r, rfl, by simp [hostLine, hi, hr]⟩)
  · exact .inr (.inr ⟨by omega, by simp [hostLine, hi]⟩)

/-- `t` is `s` but for the host and, where a model fault has happened, its mark. -/
structure OnlyHostOrMark (s t : State) : Prop where
  device : t.faultMark = s.faultMark → deviceOf t = deviceOf s ∧ t.schedule = s.schedule
  read : ∀ width a, hostRead t width a = hostRead s width a

namespace OnlyHostOrMark
variable {s t : State}

theorem of_device (hd : deviceOf t = deviceOf s) (hs : t.schedule = s.schedule) : OnlyHostOrMark s t :=
  ⟨fun _ => ⟨hd, hs⟩, hostRead_congr hd⟩

theorem of_fault (r : Fault) (s : State) : OnlyHostOrMark s (afterFault r s) where
  device h := by
    have hs : afterFault r s = s := congrArg (fun m => { s with faultMark := m }) h
    exact ⟨congrArg deviceOf hs, rfl⟩
  read _ _ := rfl

end OnlyHostOrMark

theorem deviceOf_afterCountedRead (n : Nat) (s : State) : deviceOf (afterCountedRead n s) = deviceOf s := by
  obtain ⟨-, h⟩ | ⟨-, h⟩ := afterCountedRead_cases n s <;> rw [h] <;> rfl

@[simp] theorem afterCountedRead_schedule (n : Nat) (s : State) : (afterCountedRead n s).schedule = s.schedule := by
  obtain ⟨-, h⟩ | ⟨-, h⟩ := afterCountedRead_cases n s <;> rw [h] <;> rfl

@[simp] theorem temporaryOf_afterCountedRead (n : Nat) (s : State) (u : Nat) :
    temporaryOf (afterCountedRead n s).host u = temporaryOf s.host u := by
  obtain ⟨-, h⟩ | ⟨-, h⟩ := afterCountedRead_cases n s <;> rw [h] <;> rfl

theorem hostLine_read_onlyHostOrMark {s t : State} {width : Width} {temp a : Nat}
    (h : hostLine (.read width temp a) s = .next t) : OnlyHostOrMark s t := by
  obtain ⟨v, -, hv⟩ | ⟨r, -, hr⟩ := hostLine_read_cases s width temp a
  · cases hv.symm.trans h; exact .of_device rfl rfl
  · obtain rfl := modelFault_next.mp (hr.symm.trans h); exact .of_fault r s

theorem hostLine_readBytes_onlyHostOrMark {s t : State} {count temp a : Nat}
    (h : hostLine (.readBytes count temp a) s = .next t) : OnlyHostOrMark s t := by
  obtain ⟨v, -, hv⟩ | ⟨r, -, hr⟩ | ⟨-, hl⟩ := hostLine_readBytes_cases s count temp a
  · cases hv.symm.trans h; exact .of_device (deviceOf_afterCountedRead ..) (afterCountedRead_schedule ..)
  · obtain rfl := modelFault_next.mp (hr.symm.trans h); exact .of_fault r s
  · cases hl.symm.trans h; exact .of_device rfl rfl

/-- The value a read answers is in the temporary it is assigned to. -/
theorem temporaryOf_hostLine_read {s t : State} {width : Width} {temp a : Nat} {v : Word}
    (h : hostLine (.read width temp a) s = .next t) (hv : hostRead s width a = .ok v) :
    temporaryOf t.host temp = v := by
  obtain ⟨w, hw, hn⟩ | ⟨r, hr, -⟩ := hostLine_read_cases s width temp a
  · cases hw.symm.trans hv
    cases hn.symm.trans h
    rw [temporaryOf_goToLine, temporaryOf_assignTemporary, if_pos rfl]
  · cases hr.symm.trans hv

/-- The value a counted read answers is in the temporary it is assigned to. -/
theorem temporaryOf_hostLine_readBytes {s t : State} {count temp a : Nat} {v : Word}
    (h : hostLine (.readBytes count temp a) s = .next t) (hi : s.host.index < (temporaryOf s.host count).toNat)
    (hv : hostRead s .w8 (a + s.host.index) = .ok v) : temporaryOf t.host (temp + s.host.index) = v := by
  obtain ⟨w, hw, hn⟩ | ⟨r, hr, -⟩ | ⟨hge, -⟩ := hostLine_readBytes_cases s count temp a
  · cases hw.symm.trans hv
    cases hn.symm.trans h
    rw [temporaryOf_afterCountedRead, temporaryOf_assignTemporary, if_pos rfl]
  · cases hr.symm.trans hv
  · omega

/-- Settles O45: by what a line of either kind can do. -/
theorem hostReadsHaveNoSideEffect : Obligations.HostReadsHaveNoSideEffect := by
  unfold Obligations.HostReadsHaveNoSideEffect
  refine ⟨fun s t width temp a h => ?_, fun s t count temp a h => ?_⟩
  · obtain ⟨hdevice, hread⟩ := hostLine_read_onlyHostOrMark h
    exact ⟨hdevice, hread width a, fun _ => temporaryOf_hostLine_read h⟩
  · obtain ⟨hdevice, hread⟩ := hostLine_readBytes_onlyHostOrMark h
    exact ⟨hdevice, hread, fun _ => temporaryOf_hostLine_readBytes h⟩

end Sys2Proof.Machine
end

section
/-! The CMD write (20_memory.md rule R60): `pending` is STATE = BUSY, while BUSY there is no host write, and the write
of a command's word runs that command. -/

namespace Sys2Proof.Machine

theorem isBusy_eq_true {s : State} (h : stateField s.status = 1) : isBusy s = true := by simpa [isBusy] using h

/-- Among the legal STATUS words only that of a command in flight has STATE = BUSY (R23). -/
theorem stateField_eq_busy_iff : ∀ w ∈ legalStatuses, stateField w = 1 ↔ w = statusBusy :=
  List.forall_iff_forall_mem.mp (by decide)

theorem State.Inv.pending_iff_stateField {s : State} (h : s.Inv) : s.pending = true ↔ stateField s.status = 1 :=
  h.pendingIffBusy.trans (stateField_eq_busy_iff s.status h.statusLegal).symm

/-- Settles O46: the write of the target CMD, the refusal of every write while BUSY, and the invariant. -/
theorem cmdWriteStartsTheCommand : Obligations.CmdWriteStartsTheCommand := by
  unfold Obligations.CmdWriteStartsTheCommand
  refine ⟨fun s w hs => ?_, fun s w hs => ?_, fun s h => h.pending_iff_stateField⟩
  · exact hostWrite_cmd w (isBusy_eq_false hs) rfl
  · exact hostWrite_busy w (isBusy_eq_true hs) .w32 0x00000

/-- Decoding the word of a well-formed command gives it back (R76, R77). -/
theorem decode_encode_of_wf {i : Instr} (h : i.wf = true) : decode (encode i) = .ok i := by
  cases i with
  | nop => decide
  | encrypt => decide
  | decrypt => decide
  | tdesEnc => decide
  | tdesDec => decide
  | desEnc ksel => revert ksel; decide
  | desDec ksel => revert ksel; decide
  | pad => decide
  | unpad => decide
  | keysched ksel => revert ksel; decide

/-- A placed word is the CMD write of that word, with the engine to move next (log entry 11). -/
theorem withFetchWord_toNat (s : State) (w : Word) :
    s.withFetchWord 32 w.toNat = { startCommand w s with schedule := .engine :: s.schedule } := by
  rw [State.withFetchWord, Nat.mod_eq_of_lt w.isLt, BitVec.ofNat_toNat, BitVec.setWidth_eq]

theorem step_of_engine_scheduled {s : State} {rest : List Turn} (hr : s.running) (hs : s.schedule = .engine :: rest) :
    step s = engineTurn { s with schedule := rest } := by
  unfold step
  rw [hs]
  exact agentTurn_running (s := { s with schedule := rest }) hr engineTurn

theorem engineTurn_of_decode {s : State} {i : Instr} (hp : s.pending = true) (hd : decode s.cmd = .ok i) :
    engineTurn s = exec i s := by simp [engineTurn, hp, hd]

/-- Settles O5: the step is the engine's turn, which decodes the placed word. -/
theorem placedCommandRunsNext : Obligations.PlacedCommandRunsNext := by
  unfold Obligations.PlacedCommandRunsNext
  intro s i hr hi
  have hstep := step_of_engine_scheduled (s := s.withFetchWord 32 (encode i).toNat) hr rfl
  rw [hstep, withFetchWord_toNat]
  exact engineTurn_of_decode (s := startCommand (encode i) s) rfl (decode_encode_of_wf hi)

end Sys2Proof.Machine
end

section
/-! A pending command's inputs are frozen (20_memory.md rule R64, 70_reset_and_hazards.md rule R263): the engine only
reads them, and the host's writes fault. -/

namespace Sys2Proof.Machine

/-- `t` has the command and its inputs as in `s`. -/
structure SameInputs (s t : State) : Prop where
  cmd : t.cmd = s.cmd
  key : t.key = s.key
  keyLen : t.keyLen = s.keyLen
  inBuf : t.inBuf = s.inBuf
  inLen : t.inLen = s.inLen

theorem CommandEnding.sameInputs {s t : State} {r : StepResult} (hr : CommandEnding s r) (h : r = .next t) :
    SameInputs s t := by
  cases hr with
  | output S => obtain rfl := succeed_next.mp h; exact ⟨rfl, rfl, rfl, rfl, rfl⟩
  | error e => obtain rfl := raise_next.mp h; exact ⟨rfl, rfl, rfl, rfl, rfl⟩
  | unwritten => obtain rfl := modelFault_next.mp h; exact ⟨rfl, rfl, rfl, rfl, rfl⟩

theorem engineTurn_sameInputs {s t : State} (h : engineTurn s = .next t) : SameInputs s t := by
  obtain ⟨-, hs⟩ | ⟨-, i, -, hi⟩ | ⟨-, e, -, he⟩ := engineTurn_cases s
  · cases hs.symm.trans h; exact ⟨rfl, rfl, rfl, rfl, rfl⟩
  · exact (exec_commandEnding i s).sameInputs (hi.symm.trans h)
  · exact (CommandEnding.error _).sameInputs (he.symm.trans h)

theorem hostTurn_sameInputs {s t : State} (h : hostTurn s = .next t) (hb : isBusy s = true) : SameInputs s t := by
  obtain hs | ⟨r, hr⟩ | ⟨line, hl⟩ | ⟨_, _, _, _, -, hn | hi⟩ | ⟨_, _, _, u, -, hw, -⟩ := hostTurn_cases s
  · cases hs.symm.trans h; exact ⟨rfl, rfl, rfl, rfl, rfl⟩
  · obtain rfl := modelFault_next.mp (hr.symm.trans h); exact ⟨rfl, rfl, rfl, rfl, rfl⟩
  · cases hl.symm.trans h; exact ⟨rfl, rfl, rfl, rfl, rfl⟩
  · cases hn.symm.trans h; exact ⟨rfl, rfl, rfl, rfl, rfl⟩
  · cases hi.symm.trans h; exact ⟨rfl, rfl, rfl, rfl, rfl⟩
  · cases (hostWrite_busy _ hb _ _).symm.trans hw

/-- Settles O48: a pending command is one with STATE = BUSY, where the host cannot write. -/
theorem busyFreezesTheInputs : Obligations.BusyFreezesTheInputs := by
  unfold Obligations.BusyFreezesTheInputs
  intro s t hinv hp hreset h
  have hb : isBusy s = true := isBusy_eq_true (hinv.pending_iff_stateField.mp hp)
  obtain ⟨hcmd, hkey, hkeyLen, hinBuf, hinLen⟩ : SameInputs { s with schedule := s.schedule.tail } t := by
    obtain ⟨hr, -⟩ | he | hh := step_next_cases h
    · exact absurd hr hreset
    · exact engineTurn_sameInputs he
    · exact hostTurn_sameInputs hh hb
  exact ⟨hcmd, hkey, hkeyLen, hinBuf, hinLen⟩

end Sys2Proof.Machine
end

section
/-! The decoder by the fields of the command word (30_encoding.md rules R70 to R77): a word that decodes has the OP and
the KSEL of its command and no reserved bit, which leaves one word for each well-formed command. -/

namespace Sys2Proof.Machine

section Fields
variable {w : Word} {i j : Instr} {ksel : Nat}

theorem bitField_rsv (w : Word) : bitField w 31 6 = w.toNat / 64 := by
  have hw := w.isLt
  rw [bitField, Nat.shiftRight_eq_div_pow]
  omega

theorem bitField_op (w : Word) : bitField w 3 0 = w.toNat % 16 := rfl

theorem bitField_ksel (w : Word) : bitField w 5 4 = w.toNat / 16 % 4 := by
  simp [bitField, Nat.shiftRight_eq_div_pow]

theorem decodePlain_ok : decodePlain ksel i = .ok j ↔ ksel = 0 ∧ i = j := by
  unfold decodePlain
  split <;> simp_all

theorem decodeKeyed_ok {f : BitVec 2 → Instr} :
    decodeKeyed ksel f = .ok j ↔ ksel ≤ 2 ∧ f (BitVec.ofNat 2 ksel) = j := by
  unfold decodeKeyed
  split <;> simp_all

theorem decodePlain_badKeySelect (h : ksel ≠ 0) : decodePlain ksel i = .error .badKeySelect := if_neg h

theorem decodeKeyed_badKeySelect {f : BitVec 2 → Instr} (h : 2 < ksel) :
    decodeKeyed ksel f = .error .badKeySelect := if_neg (by omega)

/-- The fields of the word are those of the well-formed command (R70 to R72). -/
structure HasFieldsOf (w : Word) (i : Instr) : Prop where
  wf : i.wf = true
  rsv : bitField w 31 6 = 0
  op : bitField w 3 0 = (opCode i).toNat
  ksel : bitField w 5 4 = (keySelectOf i).toNat

theorem HasFieldsOf.of_decodePlain (h : decodePlain (bitField w 5 4) i = .ok j) (hrsv : bitField w 31 6 = 0)
    (hop : bitField w 3 0 = (opCode i).toNat) (hwf : i.wf = true) (hksel : keySelectOf i = 0) : HasFieldsOf w j := by
  obtain ⟨hk, rfl⟩ := decodePlain_ok.mp h
  exact ⟨hwf, hrsv, hop, by simp [hk, hksel]⟩

theorem HasFieldsOf.of_decodeKeyed {f : BitVec 2 → Instr} (h : decodeKeyed (bitField w 5 4) f = .ok j)
    (hrsv : bitField w 31 6 = 0) (hop : ∀ k, bitField w 3 0 = (opCode (f k)).toNat)
    (hwf : ∀ k, (f k).wf = keySelectLegal k) (hksel : ∀ k, keySelectOf (f k) = k) : HasFieldsOf w j := by
  obtain ⟨hk, rfl⟩ := decodeKeyed_ok.mp h
  have hto : (BitVec.ofNat 2 (bitField w 5 4)).toNat = bitField w 5 4 := by simp; omega
  exact ⟨by simpa [hwf, keySelectLegal, hto] using hk, hrsv, hop _, by rw [hksel, hto]⟩

theorem hasFieldsOf_of_decode (h : decode w = .ok i) : HasFieldsOf w i := by
  unfold decode at h
  split at h
  · cases h
  next hrsv =>
    have hrsv : bitField w 31 6 = 0 := not_not.mp hrsv
    simp only at h
    split at h
    -- OP 5, 6 and 9 take a key select, OP 0xA and above is reserved, the others take none
    case h_6 hop | h_7 hop | h_10 hop => exact .of_decodeKeyed h hrsv (fun _ => hop) (fun _ => rfl) fun _ => rfl
    case h_11 => cases h
    all_goals next hop => exact .of_decodePlain h hrsv hop rfl rfl

/-- OP in the low four bits, KSEL above them (R77). -/
theorem toNat_encode (i : Instr) : (encode i).toNat = (opCode i).toNat + 16 * (keySelectOf i).toNat := by
  cases i with
  | desEnc ksel => revert ksel; decide
  | desDec ksel => revert ksel; decide
  | keysched ksel => revert ksel; decide
  | _ => decide

theorem HasFieldsOf.encode_eq (h : HasFieldsOf w i) : encode i = w := by
  obtain ⟨-, hrsv, hop, hksel⟩ := h
  rw [bitField_rsv] at hrsv
  rw [bitField_op] at hop
  rw [bitField_ksel] at hksel
  apply BitVec.eq_of_toNat_eq
  rw [toNat_encode]
  omega

/-- The words that decode are the encodings of the well-formed commands (R76). -/
theorem decode_eq_ok_iff : decode w = .ok i ↔ i.wf = true ∧ encode i = w := by
  constructor
  · intro h
    have hf := hasFieldsOf_of_decode h
    exact ⟨hf.wf, hf.encode_eq⟩
  · rintro ⟨hi, rfl⟩
    exact decode_encode_of_wf hi

end Fields

/-- Settles O3: decoding reads back the fields that the encoding writes, and they are the whole word. -/
theorem decodeEncodeAgree : Obligations.DecodeEncodeAgree := by
  unfold Obligations.DecodeEncodeAgree
  exact ⟨fun i => decode_encode_of_wf, fun w i => decode_eq_ok_iff.mp⟩

section IllegalWords
variable {w : Word}

theorem decode_reservedBits (h : 64 ≤ w.toNat) : decode w = .error .reservedBits :=
  if_pos (by rw [bitField_rsv]; omega)

theorem decode_reservedOp (h : w.toNat < 64) (hop : 10 ≤ w.toNat % 16) : decode w = .error .reservedOp := by
  simp only [decode, bitField_rsv, bitField_op]
  rw [if_neg (by omega)]
  split
  case h_11 => rfl
  all_goals omega

theorem decode_badKeySelect_keyed (hop : w.toNat % 16 ∈ [5, 6, 9]) (hk : w.toNat / 16 = 3) :
    decode w = .error .badKeySelect := by
  simp only [decode, bitField_rsv, bitField_op, bitField_ksel]
  rw [if_neg (by omega)]
  simp only [List.mem_cons, List.not_mem_nil, or_false] at hop
  obtain hop | hop | hop := hop <;> rw [hop] <;> exact decodeKeyed_badKeySelect (by omega)

theorem decode_badKeySelect_plain (h : w.toNat < 64) (hop : w.toNat % 16 ∈ [0, 1, 2, 3, 4, 7, 8])
    (hk : w.toNat / 16 ≠ 0) : decode w = .error .badKeySelect := by
  simp only [decode, bitField_rsv, bitField_op, bitField_ksel]
  rw [if_neg (by omega)]
  simp only [List.mem_cons, List.not_mem_nil, or_false] at hop
  obtain hop | hop | hop | hop | hop | hop | hop := hop <;> rw [hop] <;> exact decodePlain_badKeySelect (by omega)

end IllegalWords

/-- The well-formed commands are sixteen. -/
theorem mem_legalCommands_iff (i : Instr) : i ∈ legalCommands ↔ i.wf = true := by
  cases i with
  | desEnc ksel => revert ksel; decide
  | desDec ksel => revert ksel; decide
  | keysched ksel => revert ksel; decide
  | _ => decide

/-- A word decodes exactly if it encodes one of the sixteen legal commands (R76). -/
theorem exists_decode_iff (w : Word) : (∃ i, decode w = .ok i) ↔ w ∈ legalCommands.map encode := by
  simp only [decode_eq_ok_iff, ← mem_legalCommands_iff, List.mem_map]

theorem encode_keyed_of_le {k : Nat} (hk : k ≤ 2) :
    encode (.desEnc (BitVec.ofNat 2 k)) = BitVec.ofNat 32 (0x5 + 16 * k) ∧
      encode (.desDec (BitVec.ofNat 2 k)) = BitVec.ofNat 32 (0x6 + 16 * k) ∧
      encode (.keysched (BitVec.ofNat 2 k)) = BitVec.ofNat 32 (0x9 + 16 * k) := by
  interval_cases k <;> decide

/-- An undecodable CMD is the engine error IllegalCommand, whatever rule the word breaks (R76, R235). -/
theorem engineTurn_of_illegal {s : State} {e : IllegalWord} (hp : s.pending = true) (hd : decode s.cmd = .error e) :
    engineTurn s = raise .illegalCommand s := by simp [engineTurn, hp, hd]

/-- Settles O2: the illegal words by their fields, the legal ones by their encodings, and the engine's turn. -/
theorem decodeFollowsTheCommandTable : Obligations.DecodeFollowsTheCommandTable := by
  unfold Obligations.DecodeFollowsTheCommandTable
  refine ⟨fun w => decode_reservedBits, fun w => decode_reservedOp, fun w _ => decode_badKeySelect_keyed,
    fun w => decode_badKeySelect_plain, fun w => exists_decode_iff w, ?_, fun k hk => ?_,
    fun s i => engineTurn_of_decode, fun s e => engineTurn_of_illegal⟩
  · exact ⟨decode_encode_of_wf (i := .nop) rfl, decode_encode_of_wf (i := .encrypt) rfl,
      decode_encode_of_wf (i := .decrypt) rfl, decode_encode_of_wf (i := .tdesEnc) rfl,
      decode_encode_of_wf (i := .tdesDec) rfl, decode_encode_of_wf (i := .pad) rfl,
      decode_encode_of_wf (i := .unpad) rfl⟩
  · obtain ⟨henc, hdec, hkeysched⟩ := encode_keyed_of_le hk
    have hwf : keySelectLegal (BitVec.ofNat 2 k) = true := by simp [keySelectLegal]; omega
    exact ⟨henc ▸ decode_encode_of_wf hwf, hdec ▸ decode_encode_of_wf hwf, hkeysched ▸ decode_encode_of_wf hwf⟩

/-- Settles O1: each of the words is its command's encoding. -/
theorem commandWordsReadAsWritten : Obligations.CommandWordsReadAsWritten := by
  unfold Obligations.CommandWordsReadAsWritten
  exact ⟨decode_encode_of_wf (i := .nop) rfl, decode_encode_of_wf (i := .encrypt) rfl,
    decode_encode_of_wf (i := .tdesEnc) rfl, decode_encode_of_wf (i := .desEnc 1) rfl,
    decode_encode_of_wf (i := .desDec 2) rfl, decode_encode_of_wf (i := .pad) rfl,
    decode_encode_of_wf (i := .keysched 0) rfl⟩

end Sys2Proof.Machine
end

section
/-! The engine's turn in a step (30_encoding.md rule R76; log entries 3 and 17). -/

namespace Sys2Proof.Machine

theorem step_of_engine_default {s : State} (hr : s.running) (hs : s.schedule = []) (hp : s.pending = true) :
    step s = engineTurn s := by
  unfold step
  rw [hs]
  simp [agentTurn_running hr, defaultTurn, hp]

/-- Settles O4: the engine's turn in a step, by the two ways the schedule gives it. -/
theorem stepRunsTheDecodedCommand : Obligations.StepRunsTheDecodedCommand := by
  unfold Obligations.StepRunsTheDecodedCommand
  refine ⟨fun s i hr hnext hd => ?_, fun s rest hr hp hs => ?_⟩
  · obtain ⟨hp, hs | ⟨rest, hs⟩⟩ := hnext
    · have hself : { s with schedule := s.schedule.tail } = s := by rw [hs, List.tail_nil, ← hs]
      rw [hself, step_of_engine_default hr hs hp, engineTurn_of_decode hp hd]
    · rw [step_of_engine_scheduled hr hs, hs, List.tail_cons]
      exact engineTurn_of_decode (s := { s with schedule := rest }) hp hd
  · exact (step_of_engine_scheduled hr hs).trans (engineTurn_of_not_pending (s := { s with schedule := rest }) hp)

end Sys2Proof.Machine
end

section
/-! The lines of a host script (30_encoding.md rules R78 and R79): where a pseudo-operation stands in the script, and
what one line does when its access is admitted. -/

namespace Sys2Proof.Machine

/-- The operations `ops` stand in the script from `line` on. -/
def LinesAt (script : List HostOp) (line : Nat) (ops : List HostOp) : Prop :=
  ∀ j, j < ops.length → script[line + j]? = ops[j]?

theorem linesAt_cons {script : List HostOp} {line : Nat} {op : HostOp} {ops : List HostOp} :
    LinesAt script line (op :: ops) ↔ script[line]? = some op ∧ LinesAt script (line + 1) ops := by
  constructor
  · intro h
    refine ⟨h 0 (Nat.succ_pos _), fun j hj => ?_⟩
    simpa [Nat.add_assoc, Nat.add_comm 1] using h (j + 1) (Nat.succ_lt_succ hj)
  · rintro ⟨h0, h⟩ j hj
    cases j with
    | zero => exact h0
    | succ j => simpa [Nat.add_assoc, Nat.add_comm 1] using h j (Nat.lt_of_succ_lt_succ hj)

@[simp] theorem deviceOf_goToLine (line : Nat) (s : State) : deviceOf (goToLine line s) = deviceOf s := rfl

@[simp] theorem deviceOf_assignTemporary (temp : Nat) (v : Word) (s : State) :
    deviceOf (assignTemporary temp v s) = deviceOf s := rfl

/-- After a read the temporary holds what was read. -/
theorem temporaryOf_read (line temp : Nat) (v : Word) (s : State) :
    temporaryOf (goToLine line (assignTemporary temp v s)).host temp = v := by
  rw [temporaryOf_goToLine, temporaryOf_assignTemporary, if_pos rfl]

section Lines
variable {s : State}

/-- STATUS can be read in every state (R263). -/
theorem hostRead_statusRegister (s : State) : hostRead s .w32 0x00004 = .ok s.status := by
  have ht : targetOf s.cfg 0x00004 = .status := rfl
  simp [hostRead, hostMayRead, ht]

theorem hostLine_write {t : State} {width : Width} {a : Nat} {v : HostValue}
    (h : hostWrite s width a (valueOf s.host v) = .ok t) :
    hostLine (.write width a v) s = .next (goToLine (s.host.line + 1) t) := by simp [hostLine, h]

theorem hostLine_read {width : Width} {temp a : Nat} {v : Word} (h : hostRead s width a = .ok v) :
    hostLine (.read width temp a) s = .next (goToLine (s.host.line + 1) (assignTemporary temp v s)) := by
  simp [hostLine, h]

/-- A counted read that is not the last of its line. -/
theorem hostLine_readBytes_more {count temp a : Nat} {v : Word}
    (hi : s.host.index + 1 < (temporaryOf s.host count).toNat) (h : hostRead s .w8 (a + s.host.index) = .ok v) :
    hostLine (.readBytes count temp a) s = .next (nextIndex (assignTemporary (temp + s.host.index) v s)) := by
  simp [hostLine, Nat.lt_of_succ_lt hi, h, afterCountedRead, hi]

/-- The last counted read of its line. -/
theorem hostLine_readBytes_last {count temp a : Nat} {v : Word}
    (hi : s.host.index + 1 = (temporaryOf s.host count).toNat) (h : hostRead s .w8 (a + s.host.index) = .ok v) :
    hostLine (.readBytes count temp a) s =
      .next (goToLine (s.host.line + 1) (assignTemporary (temp + s.host.index) v s)) := by
  simp [hostLine, h, afterCountedRead, ← hi]

/-- A line of counted reads with none left. -/
theorem hostLine_readBytes_none {count temp a : Nat} (hi : (temporaryOf s.host count).toNat ≤ s.host.index) :
    hostLine (.readBytes count temp a) s = .next (goToLine (s.host.line + 1) s) := by
  simp [hostLine, hi]

end Lines

end Sys2Proof.Machine
end

section
/-! The `wait` loop (30_encoding.md rule R79): its three lines, and that no poll reaches the device. -/

namespace Sys2Proof.Machine

/-- The state after the poll at line `w` of a `wait` loop. -/
def polled (w temp : Nat) (s : State) : State := goToLine (w + 1) (assignTemporary temp s.status s)

/-- After a poll the temporary holds STATUS. -/
theorem temporaryOf_polled (w temp : Nat) (s : State) : temporaryOf (polled w temp s).host temp = s.status :=
  temporaryOf_read ..

theorem deviceOf_polled (w temp : Nat) (s : State) : deviceOf (polled w temp s) = deviceOf s := rfl

section WaitLines
variable {s : State} {w temp : Nat} (hw : LinesAt s.host.script w (wait w temp))
include hw

theorem hostTurn_poll (hl : s.host.line = w) : hostTurn s = .next (polled w temp s) := by
  obtain ⟨hpoll, -⟩ := linesAt_cons.mp hw
  rw [hostTurn_of_line (by rw [hl]; exact hpoll), ← hl]
  exact hostLine_read (hostRead_statusRegister s)

theorem hostTurn_test (hl : s.host.line = w + 1) :
    hostTurn s = .next (goToLine (if stateField (temporaryOf s.host temp) ≠ 1 then w + 3 else w + 2) s) := by
  obtain ⟨-, hw⟩ := linesAt_cons.mp hw
  obtain ⟨htest, -⟩ := linesAt_cons.mp hw
  rw [hostTurn_of_line (by rw [hl]; exact htest), hostLine, hl]
  rfl

theorem hostTurn_test_busy (hl : s.host.line = w + 1) (ht : stateField (temporaryOf s.host temp) = 1) :
    hostTurn s = .next (goToLine (w + 2) s) := by
  rw [hostTurn_test hw hl, if_neg (not_not.mpr ht)]

theorem hostTurn_test_notBusy (hl : s.host.line = w + 1) (ht : stateField (temporaryOf s.host temp) ≠ 1) :
    hostTurn s = .next (goToLine (w + 3) s) := by
  rw [hostTurn_test hw hl, if_pos ht]

theorem hostTurn_back (hl : s.host.line = w + 2) : hostTurn s = .next (goToLine w s) := by
  obtain ⟨-, hw⟩ := linesAt_cons.mp hw
  obtain ⟨-, hw⟩ := linesAt_cons.mp hw
  obtain ⟨hback, -⟩ := linesAt_cons.mp hw
  exact hostTurn_of_line (by rw [hl]; exact hback)

end WaitLines

/-- A turn of the host at the head of a run whose schedule names it. -/
theorem run_host_turn {s t : State} (h : hostTurn s = .next t) (hr : s.running) (k : Nat) :
    core.run (k + 1) { s with schedule := .host :: s.schedule } = core.run k t :=
  run_of_step_next ((step_of_host_scheduled (s := { s with schedule := .host :: s.schedule }) hr rfl).trans h) k

/-- Settles O55: the turns are a poll, its test and, while BUSY, the branch back. -/
theorem waitLoopsWhileBusy : Obligations.WaitLoopsWhileBusy := by
  unfold Obligations.WaitLoopsWhileBusy
  intro s w temp hr hl hw
  refine ⟨fun hbusy => ?_, fun hnot => ?_⟩
  · have hpoll := hostTurn_poll (s := { s with schedule := [.host, .host] }) hw hl
    have htest := hostTurn_test_busy (s := polled w temp { s with schedule := [.host] }) hw rfl
      ((congrArg stateField (temporaryOf_polled ..)).trans hbusy)
    have hback := hostTurn_back (s := goToLine (w + 2) (polled w temp { s with schedule := [] })) hw rfl
    exact ⟨_, (run_host_turn hpoll hr 2).trans <| (run_host_turn htest hr 1).trans <|
      run_host_turn hback hr 0, rfl,
      (deviceOf_goToLine ..).trans <| (deviceOf_goToLine ..).trans (deviceOf_polled ..)⟩
  · have hpoll := hostTurn_poll (s := { s with schedule := [.host] }) hw hl
    have htest := hostTurn_test_notBusy (s := polled w temp { s with schedule := [] }) hw rfl
      ((congrArg stateField (temporaryOf_polled ..)).trans_ne hnot)
    exact ⟨_, (run_host_turn hpoll hr 1).trans <| run_host_turn htest hr 0, rfl,
      (deviceOf_goToLine ..).trans (deviceOf_polled ..)⟩

/-- The host is in its `wait` loop, having seen BUSY at the last poll, and the device is `d`. -/
structure Waiting (w temp : Nat) (d s : State) : Prop where
  device : deviceOf s = d
  lines : LinesAt s.host.script w (wait w temp)
  position : s.host.line = w ∨ (s.host.line = w + 1 ∧ stateField (temporaryOf s.host temp) = 1) ∨
    s.host.line = w + 2

namespace Waiting
variable {w temp : Nat} {d s : State}

theorem withSchedule (h : Waiting w temp d s) (schedule : List Turn) :
    Waiting w temp d { s with schedule := schedule } := ⟨h.device, h.lines, h.position⟩

/-- While BUSY a turn of the host keeps it in the loop, and the device as it is. -/
theorem hostTurn_next (h : Waiting w temp d s) (hb : stateField d.status = 1) :
    ∃ t, hostTurn s = .next t ∧ Waiting w temp d t := by
  obtain ⟨rfl, hw, hl | ⟨hl, ht⟩ | hl⟩ := h
  · have ht := (congrArg stateField (temporaryOf_polled w temp s)).trans hb
    exact ⟨_, hostTurn_poll hw hl, rfl, hw, .inr (.inl ⟨rfl, ht⟩)⟩
  · exact ⟨_, hostTurn_test_busy hw hl ht, rfl, hw, .inr (.inr rfl)⟩
  · exact ⟨_, hostTurn_back hw hl, rfl, hw, .inl rfl⟩

end Waiting

end Sys2Proof.Machine
end

section
/-! The engine does not look at the host or at the schedule (10_state.md rules R20 and R21), so what the host does
meanwhile does not change its result (70_reset_and_hazards.md rule R267). -/

namespace Sys2Proof.Machine

section Commute
variable {s : State}

/-- A check that passes on to `next` where `p` holds, of a device apart from its host. -/
theorem check_deviceOf {p : Prop} [Decidable p] (e : EngineError) {next next' : StepResult}
    (h : next' = mapNext deviceOf next) :
    (if p then next' else raise e (deviceOf s)) = mapNext deviceOf (if p then next else raise e s) := by
  subst h
  exact (apply_ite (mapNext deviceOf) p next (raise e s)).symm

/-- A check that raises its error where `p` holds, of a device apart from its host. -/
theorem reject_deviceOf {p : Prop} [Decidable p] (e : EngineError) {next next' : StepResult}
    (h : next' = mapNext deviceOf next) :
    (if p then raise e (deviceOf s) else next') = mapNext deviceOf (if p then raise e s else next) := by
  subst h
  exact (apply_ite (mapNext deviceOf) p (raise e s) next).symm

theorem withOperand_deviceOf {α : Type} {operand : Option α} {next next' : α → StepResult}
    (h : ∀ v, next' v = mapNext deviceOf (next v)) :
    withOperand operand (deviceOf s) next' = mapNext deviceOf (withOperand operand s next) := by
  cases operand with
  | none => rfl
  | some v => exact h v

theorem succeed_deviceOf (S : List Byte) : succeed S (deviceOf s) = mapNext deviceOf (succeed S s) := rfl

theorem complete_deviceOf (result : Except EngineError (List Byte)) :
    complete result (deviceOf s) = mapNext deviceOf (complete result s) := by
  cases result <;> rfl

theorem oneBlock_deviceOf {α : Type} {key : Option α} {cipher : α → Block → List Byte} :
    (requireKeyLength (deviceOf s) <| requireInputFits (deviceOf s) <| requireOneBlock (deviceOf s) <|
      withOperand key (deviceOf s) fun K => withOperand (blockOf s) (deviceOf s) fun B =>
      succeed (cipher K B) (deviceOf s)) =
    mapNext deviceOf (requireKeyLength s <| requireInputFits s <| requireOneBlock s <|
      withOperand key s fun K => withOperand (blockOf s) s fun B => succeed (cipher K B) s) :=
  check_deviceOf _ <| check_deviceOf _ <| check_deviceOf _ <| withOperand_deviceOf fun _ =>
    withOperand_deviceOf fun _ => succeed_deviceOf _

/-- A command does to the device what it does to the device apart from its host. -/
theorem exec_deviceOf (i : Instr) (s : State) : exec i (deviceOf s) = mapNext deviceOf (exec i s) := by
  cases i with
  | nop => exact succeed_deviceOf []
  | encrypt =>
    exact check_deviceOf _ <| check_deviceOf _ <| withOperand_deviceOf fun _ =>
      withOperand_deviceOf fun _ => succeed_deviceOf _
  | decrypt =>
    exact check_deviceOf _ <| check_deviceOf _ <| reject_deviceOf _ <| withOperand_deviceOf fun _ =>
      withOperand_deviceOf fun _ => complete_deviceOf _
  | tdesEnc => exact oneBlock_deviceOf
  | tdesDec => exact oneBlock_deviceOf
  | desEnc ksel => exact check_deviceOf _ oneBlock_deviceOf
  | desDec ksel => exact check_deviceOf _ oneBlock_deviceOf
  | pad => exact check_deviceOf _ <| withOperand_deviceOf fun _ => succeed_deviceOf _
  | unpad => exact check_deviceOf _ <| reject_deviceOf _ <| withOperand_deviceOf fun _ => complete_deviceOf _
  | keysched ksel => exact check_deviceOf _ <| check_deviceOf _ <| withOperand_deviceOf fun _ => succeed_deviceOf _

end Commute

theorem engineTurn_deviceOf (s : State) : engineTurn (deviceOf s) = mapNext deviceOf (engineTurn s) := by
  obtain ⟨hp, h⟩ | ⟨hp, i, hd, h⟩ | ⟨hp, e, hd, h⟩ := engineTurn_cases s <;> rw [h]
  · exact engineTurn_of_not_pending (s := deviceOf s) hp
  · exact (engineTurn_of_decode (s := deviceOf s) hp hd).trans (exec_deviceOf i s)
  · exact engineTurn_of_illegal (s := deviceOf s) hp hd

theorem engineTurn_exists_next (s : State) : ∃ t, engineTurn s = .next t := by
  obtain ⟨-, h⟩ | ⟨-, i, -, h⟩ | ⟨-, e, -, h⟩ := engineTurn_cases s
  · exact ⟨s, h⟩
  · exact h ▸ (exec_commandEnding i s).exists_next
  · exact ⟨_, h⟩

/-- After any number of turns in the `wait` loop the engine's turn leaves the device that it makes of `d`. -/
theorem Waiting.run_engine {w temp : Nat} {d : State} (hr : d.running) (hb : stateField d.status = 1) (polls : Nat) :
    ∀ s, Waiting w temp d s → s.schedule = List.replicate polls .host ++ [.engine] →
      ∃ u, core.run (polls + 1) s = .next u ∧ engineTurn d = .next (deviceOf u) := by
  induction polls with
  | zero =>
    intro s h hs
    obtain ⟨u, hu⟩ := engineTurn_exists_next { s with schedule := [] }
    have hrun : s.running := (congrArg State.faultMark h.device).trans hr
    refine ⟨u, run_of_step_next ((step_of_engine_scheduled hrun hs).trans hu) 0, ?_⟩
    rw [← (h.withSchedule []).device, engineTurn_deviceOf, hu]
    rfl
  | succ polls ih =>
    intro s h hs
    obtain ⟨t, ht, hwait⟩ := (h.withSchedule (List.replicate polls .host ++ [.engine])).hostTurn_next hb
    obtain ⟨u, hu, hd⟩ := ih t hwait (hostTurn_sameSetup ht).schedule
    have hrun : s.running := (congrArg State.faultMark h.device).trans hr
    exact ⟨u, (run_of_step_next ((step_of_host_scheduled hrun hs).trans ht) (polls + 1)).trans hu, hd⟩

/-- Settles O54: with or without polls the device is what the engine's turn makes of it. -/
theorem pollsDoNotChangeTheResult : Obligations.PollsDoNotChangeTheResult := by
  unfold Obligations.PollsDoNotChangeTheResult
  intro s w temp polls hr _ hstatus hl hw
  have hb : stateField (deviceOf s).status = 1 := congrArg stateField hstatus
  have hwait : Waiting w temp (deviceOf s) s := ⟨rfl, hw, .inl hl⟩
  obtain ⟨u, hu, hdu⟩ := Waiting.run_engine (d := deviceOf s) hr hb polls
    { s with schedule := List.replicate polls .host ++ [.engine] } (hwait.withSchedule _) rfl
  obtain ⟨v, hv, hdv⟩ := Waiting.run_engine (d := deviceOf s) hr hb 0
    { s with schedule := [.engine] } (hwait.withSchedule _) rfl
  exact ⟨u, v, hu, hv, Host.Outcome.next.inj (hdu.symm.trans hdv)⟩

end Sys2Proof.Machine
end

section
/-! The host alone (20_memory.md rule R62): with no command pending, STATE not BUSY and no turn named by the schedule
every step is the host's. -/

namespace Sys2Proof.Machine

/-- The host moves next, and its accesses are admitted. -/
structure HostAlone (s : State) : Prop where
  running : s.running
  pending : s.pending = false
  schedule : s.schedule = []
  notBusy : isBusy s = false

namespace HostAlone
variable {s t : State}

theorem run_line (h : HostAlone s) {op : HostOp} (ho : s.host.script[s.host.line]? = some op)
    (hop : hostLine op s = .next t) (k : Nat) : core.run (k + 1) s = core.run k t :=
  run_of_step_next (((step_of_host_default h.running h.schedule h.pending).trans (hostTurn_of_line ho)).trans hop) k

theorem goToLine_assignTemporary (h : HostAlone s) (line temp : Nat) (v : Word) :
    HostAlone (goToLine line (assignTemporary temp v s)) := ⟨h.running, h.pending, h.schedule, h.notBusy⟩

theorem nextIndex_assignTemporary (h : HostAlone s) (temp : Nat) (v : Word) :
    HostAlone (nextIndex (assignTemporary temp v s)) := ⟨h.running, h.pending, h.schedule, h.notBusy⟩

end HostAlone

end Sys2Proof.Machine
end

section
/-! `loadin` and `loadkey` (30_encoding.md rule R79): one argument for the two buffers the host can write. -/

namespace Sys2Proof.Machine

/-- The buffers the host can write, with their length registers (R51). -/
inductive InputBuffer where
  | key
  | input

namespace InputBuffer

/-- The window address of byte 0. -/
def address : InputBuffer → Nat
  | key => keyAddress 0
  | input => inAddress 0

/-- The window address of the length register. -/
def lengthAddress : InputBuffer → Nat
  | key => 0x00008
  | input => 0x0000C

/-- The bytes the buffer holds. -/
def capacity (c : Config) : InputBuffer → Nat
  | key => 24
  | input => c.inCap

/-- What the buffer holds. -/
def contents (s : State) : InputBuffer → Memory
  | key => s.key
  | input => s.inBuf

/-- The machine with other contents of the buffer. -/
def withContents (m : Memory) (s : State) : InputBuffer → State
  | key => { s with key := m }
  | input => { s with inBuf := m }

/-- The machine with another value of the length register. -/
def withLength (n : Word) (s : State) : InputBuffer → State
  | key => { s with keyLen := n }
  | input => { s with inLen := n }

variable {s : State} (b : InputBuffer)

theorem hostWrite_byte (hb : isBusy s = false) (hc : s.cfg.wf) {i : Nat} (hi : i < b.capacity s.cfg) (v : Word) :
    hostWrite s .w8 (b.address + i) v =
      .ok (b.withContents (Memory.write (b.contents s) i (v.setWidth 8)) s) := by
  cases b with
  | key => exact hostWrite_keyByte v hb (targetOf_key s.cfg hi)
  | input => exact hostWrite_inByte v hb (targetOf_in_of_wf hc hi)

theorem hostWrite_length (hb : isBusy s = false) (n : Word) :
    hostWrite s .w32 b.lengthAddress n = .ok (b.withLength n s) := by
  cases b with
  | key => exact hostWrite_keyLen n hb rfl
  | input => exact hostWrite_inLen n hb rfl

theorem withContents_contents : b.withContents (b.contents s) s = s := by cases b <;> rfl

/-- A load is the buffer's bytes from index `i` on and then its length register. -/
def loadFrom (i : Nat) (bytes : List Byte) (n : Word) : List HostOp :=
  writeBytes (b.address + i) bytes ++ [wr32 b.lengthAddress n]

/-- The state after a load. -/
def afterLoad (i : Nat) (bytes : List Byte) (n : Word) (s : State) : State :=
  b.withLength n (b.withContents (Memory.writeRange (b.contents s) i bytes) s)

theorem afterLoad_cons (i line : Nat) (byte : Byte) (bytes : List Byte) (n : Word) :
    goToLine line (b.afterLoad i (byte :: bytes) n s) =
      goToLine line (b.afterLoad (i + 1) bytes n
        (goToLine (s.host.line + 1) (b.withContents (Memory.write (b.contents s) i byte) s))) := by
  cases b <;> rfl

theorem hostAlone_afterByte (h : HostAlone s) (line : Nat) (m : Memory) :
    HostAlone (goToLine line (b.withContents m s)) := by
  obtain ⟨hr, hp, hs, hb⟩ := h
  cases b <;> exact ⟨hr, hp, hs, hb⟩

/-- The lines of a load fill the buffer from index `i` on and set its length register, one line a step. -/
theorem run_loadFrom (n : Word) (bytes : List Byte) :
    ∀ {s : State} {i : Nat}, HostAlone s → s.cfg.wf → i + bytes.length ≤ b.capacity s.cfg →
      LinesAt s.host.script s.host.line (b.loadFrom i bytes n) →
      core.run (bytes.length + 1) s =
        .next (goToLine (s.host.line + bytes.length + 1) (b.afterLoad i bytes n s)) := by
  induction bytes with
  | nil =>
    intro s i h _ _ hl
    obtain ⟨ho, -⟩ := linesAt_cons.mp hl
    rw [afterLoad, Memory.writeRange, withContents_contents]
    exact h.run_line ho (hostLine_write (b.hostWrite_length h.notBusy n)) 0
  | cons byte bytes ih =>
    intro s i h hc hi hl
    rw [List.length_cons] at hi
    obtain ⟨ho, hl⟩ := linesAt_cons.mp hl
    have hline := hostLine_write (v := .literal (byte.setWidth 32))
      (b.hostWrite_byte h.notBusy hc (i := i) (by omega) (byte.setWidth 32))
    rw [BitVec.setWidth_setWidth_of_le byte (by decide), BitVec.setWidth_eq] at hline
    rw [afterLoad_cons, List.length_cons,
      show s.host.line + (bytes.length + 1) + 1 = s.host.line + 1 + bytes.length + 1 by omega]
    refine (h.run_line ho hline (bytes.length + 1)).trans ?_
    have hnext := b.hostAlone_afterByte h (s.host.line + 1) (Memory.write (b.contents s) i byte)
    have hi' : i + 1 + bytes.length ≤ b.capacity s.cfg := by omega
    cases b <;> exact ih hnext hc hi' hl

end InputBuffer

/-- Settles O56: both loads are that of an input buffer, and what they write is what the buffer then holds. -/
theorem loadOperationsFillTheBuffers : Obligations.LoadOperationsFillTheBuffers := by
  unfold Obligations.LoadOperationsFillTheBuffers
  intro s w hr hc hp hstate hs hw
  subst hw
  have h : HostAlone s := ⟨hr, hp, hs, isBusy_eq_false hstate⟩
  refine ⟨fun d hd hl => ?_, fun k hk hl => ?_⟩
  · have hrun := InputBuffer.input.run_loadFrom (BitVec.ofNat 32 d.length) d (i := 0) h hc
      (by rw [Nat.zero_add]; exact hd) hl
    refine ⟨_, hrun, bufferHolds_writeRange s.inBuf 0 d, ?_, rfl, rfl, rfl⟩
    obtain ⟨-, hcap, -, -⟩ := hc
    exact Nat.mod_eq_of_lt (by omega)
  · have hrun := InputBuffer.key.run_loadFrom 24 k (i := 0) h hc (by rw [Nat.zero_add, hk]; exact Nat.le_refl 24) hl
    rw [hk] at hrun
    exact ⟨_, hrun, bufferHolds_writeRange s.key 0 k, rfl, rfl, rfl, rfl⟩

end Sys2Proof.Machine
end

section
/-! `readout` (30_encoding.md rule R79, log entry 16): the counted reads of one line, and what they leave. -/

namespace Sys2Proof.Machine

/-- The temporaries from `temp` on assigned, one after the other. -/
def assignTemporaries (temp : Nat) (vs : List Word) (s : State) : State :=
  { s with host := { s.host with temporaries := Memory.writeRange s.host.temporaries temp vs } }

@[simp] theorem deviceOf_assignTemporaries (temp : Nat) (vs : List Word) (s : State) :
    deviceOf (assignTemporaries temp vs s) = deviceOf s := rfl

theorem temporaryOf_assignTemporaries_below (s : State) {temp u : Nat} (vs : List Word) (h : u < temp) :
    temporaryOf (assignTemporaries temp vs s).host u = temporaryOf s.host u := by
  have hread : Memory.read (Memory.writeRange s.host.temporaries temp vs) u = Memory.read s.host.temporaries u := by
    rw [Memory.read_writeRange, if_neg (by omega)]
  simp only [temporaryOf, assignTemporaries, hread]

theorem temporaryOf_assignTemporaries_at (s : State) (temp : Nat) {vs : List Word} {j : Nat} {v : Word}
    (h : vs[j]? = some v) : temporaryOf (assignTemporaries temp vs s).host (temp + j) = v := by
  obtain ⟨hj, -⟩ := List.getElem?_eq_some_iff.mp h
  have hread : Memory.read (Memory.writeRange s.host.temporaries temp vs) (temp + j) = some v := by
    rw [Memory.read_writeRange, if_pos (by omega), Nat.add_sub_cancel_left, h]
  simp only [temporaryOf, assignTemporaries, hread]

/-- A line of counted reads with the values `vs` left to read assigns them to the temporaries, a turn for each; where
there is none it takes one turn. -/
theorem HostAlone.run_readBytes {count temp a : Nat} (hcount : count < temp) (vs : List Word) :
    ∀ {s : State}, HostAlone s → s.host.script[s.host.line]? = some (.readBytes count temp a) →
      (temporaryOf s.host count).toNat = s.host.index + vs.length →
      (∀ j v, vs[j]? = some v → hostRead s .w8 (a + (s.host.index + j)) = .ok v) →
      core.run (max 1 vs.length) s =
        .next (goToLine (s.host.line + 1) (assignTemporaries (temp + s.host.index) vs s)) := by
  induction vs with
  | nil =>
    intro s h ho hn _
    exact h.run_line ho (hostLine_readBytes_none hn.le) 0
  | cons v vs ih =>
    intro s h ho hn hread
    have hv := hread 0 v rfl
    cases vs with
    | nil => exact h.run_line ho (hostLine_readBytes_last hn.symm hv) 0
    | cons v' vs =>
      have hmore : s.host.index + 1 < (temporaryOf s.host count).toNat := by
        rw [hn, List.length_cons, List.length_cons]; omega
      have hleft : temporaryOf (nextIndex (assignTemporary (temp + s.host.index) v s)).host count =
          temporaryOf s.host count := by
        rw [temporaryOf_nextIndex, temporaryOf_assignTemporary, if_neg (by omega)]
      refine (h.run_line ho (hostLine_readBytes_more hmore hv) (vs.length + 1)).trans ?_
      refine ih (h.nextIndex_assignTemporary _ v) ho ?_ fun j u hu => ?_
      · rw [hleft, hn]
        exact (Nat.add_right_comm s.host.index 1 (vs.length + 1)).symm
      · have hu := hread (j + 1) u hu
        rw [show s.host.index + (j + 1) = s.host.index + 1 + j by omega] at hu
        exact (hostRead_congr rfl .w8 _).trans hu

/-- An OUT byte as the host reads it (R53). -/
theorem hostRead_outAddress {s : State} {S : List Byte} (hb : isBusy s = false) (hcap : S.length ≤ s.cfg.outCap)
    (hout : bufferHolds s.outBuf 0 S) {j : Nat} {b : Byte} (hj : S[j]? = some b) :
    hostRead s .w8 (outAddress j) = .ok (b.setWidth 32) := by
  obtain ⟨hlt, -⟩ := List.getElem?_eq_some_iff.mp hj
  have hread : Memory.read s.outBuf j = some b := by rw [← hj, ← hout j hlt, Nat.zero_add]
  exact (hostRead_outByte hb (targetOf_out (hlt.trans_le hcap))).trans (readByte_of_read hread)

/-- The bytes as the host's temporaries hold them. -/
def wordsOf (S : List Byte) : List Word := S.map (·.setWidth 32)

theorem length_wordsOf (S : List Byte) : (wordsOf S).length = S.length := List.length_map _

theorem getElem?_wordsOf {S : List Byte} {j : Nat} {v : Word} :
    (wordsOf S)[j]? = some v ↔ ∃ b, S[j]? = some b ∧ b.setWidth 32 = v := by
  rw [wordsOf, List.getElem?_map, Option.map_eq_some_iff]

/-- Settles O57: a read of OUT_LEN, and then the counted reads of OUT's bytes. -/
theorem readoutReadsTheOutput : Obligations.ReadoutReadsTheOutput := by
  unfold Obligations.ReadoutReadsTheOutput
  intro s w temp S hr hc hp hstate hs hw hl hlen hcap hout
  subst hw
  have h : HostAlone s := ⟨hr, hp, hs, isBusy_eq_false hstate⟩
  have hlines : LinesAt s.host.script s.host.line (readOut temp) := hl
  obtain ⟨hfirst, hlines⟩ := linesAt_cons.mp hlines
  obtain ⟨hsecond, -⟩ := linesAt_cons.mp hlines
  have hcount := temporaryOf_read (s.host.line + 1) temp s.outLen s
  have hfirstRun := h.run_line hfirst (hostLine_read (hostRead_outLen h.notBusy rfl)) (max 1 S.length)
  have hread (j : Nat) (v : Word) (hv : (wordsOf S)[j]? = some v) :
      hostRead (goToLine (s.host.line + 1) (assignTemporary temp s.outLen s)) .w8 (outAddress 0 + (0 + j)) = .ok v := by
    obtain ⟨b, hb, rfl⟩ := getElem?_wordsOf.mp hv
    rw [Nat.zero_add]
    exact (hostRead_congr rfl .w8 _).trans (hostRead_outAddress h.notBusy hcap hout hb)
  have hsecondRun := (h.goToLine_assignTemporary (s.host.line + 1) temp s.outLen).run_readBytes
    (Nat.lt_succ_self temp) (wordsOf S) hsecond
    (by rw [hcount, hlen, length_wordsOf]; exact (Nat.zero_add _).symm) hread
  rw [length_wordsOf] at hsecondRun
  refine ⟨_, (congrArg (core.run · s) (Nat.add_comm 1 _)).trans (hfirstRun.trans hsecondRun), ?_, ?_, rfl, by simp⟩
  · exact (temporaryOf_assignTemporaries_below _ _ (Nat.lt_succ_self temp)).trans hcount
  · exact fun j b hb => temporaryOf_assignTemporaries_at _ _ (getElem?_wordsOf.mpr ⟨b, hb, rfl⟩)

end Sys2Proof.Machine
end

section
/-! Bit addressing (40_bit_addressing.md rules R100, R101, R103): a buffer's bits are those of the bit-string it stands
for, and a put bit reads back, leaves every other bit and, where it was there already, the whole buffer. -/

namespace Sys2Proof.Machine

/-- In range, `getBit` reads the bit of the bit-string the buffer stands for (R55, R100). -/
theorem getBit_of_inRange {S : List Byte} {i : Nat} (h : bitInRange S i) :
    getBit S i = .ok (bit (ofBytes (8 * S.length) S) i) := by
  rw [getBit, if_pos h, bit_ofBytes rfl h.1 h.2]

theorem getBit_of_not_inRange {S : List Byte} {i : Nat} (h : ¬bitInRange S i) :
    getBit S i = .error .indexOutOfRange := if_neg h

theorem putBit_of_not_inRange {S : List Byte} {i : Nat} (v : Bool) (h : ¬bitInRange S i) :
    putBit S i v = .error .indexOutOfRange := if_neg h

theorem bitInRange_of_getBit {S : List Byte} {i : Nat} {v : Bool} (h : getBit S i = .ok v) : bitInRange S i := by
  by_contra hn
  rw [getBit_of_not_inRange hn] at h
  cases h

theorem bitInRange_congr {S S' : List Byte} (hlen : S'.length = S.length) (i : Nat) :
    bitInRange S' i ↔ bitInRange S i := by rw [bitInRange, bitInRange, hlen]

/-- Buffers of one length with the same bits are equal. -/
theorem eq_of_getBit {S S' : List Byte} (hlen : S'.length = S.length) (h : ∀ j, getBit S' j = getBit S j) : S' = S := by
  have hbits : ofBytes (8 * S.length) S' = ofBytes (8 * S.length) S := by
    refine eq_of_bits fun j h1 hn => ?_
    have hj := h j
    rw [getBit_of_inRange ⟨h1, hn⟩, getBit_of_inRange ((bitInRange_congr hlen j).mpr ⟨h1, hn⟩), hlen] at hj
    exact Except.ok.inj hj
  calc S' = toBytes S.length (ofBytes (8 * S.length) S') := by rw [← hlen, toBytes_ofBytes]
    _ = toBytes S.length (ofBytes (8 * S.length) S) := by rw [hbits]
    _ = S := toBytes_ofBytes S

/-- The byte that `putBit` stores for bit `i` (R101). -/
def byteWithBit (b : Byte) (i : Nat) (v : Bool) : Byte := if v then b ||| bitMask i else b &&& ~~~bitMask i

theorem putBit_of_inRange {S : List Byte} {i : Nat} (v : Bool) (h : bitInRange S i) :
    putBit S i v = .ok (S.set ((i - 1) / 8) (byteWithBit (S.getD ((i - 1) / 8) 0) i v)) := if_pos h

/-- The mask of bit `i` has this one bit set (R101). -/
theorem getLsbD_bitMask (i k : Nat) : (bitMask i).getLsbD k = decide (k = 7 - (i - 1) % 8) := by
  have hpow : bitMask i = BitVec.twoPow 8 (7 - (i - 1) % 8) := rfl
  rw [hpow, BitVec.getLsbD_twoPow, decide_eq_true (by omega), Bool.true_and]
  exact decide_eq_decide.mpr eq_comm

/-- The stored byte differs from the old one at most in the bit that is put (R101). -/
theorem getLsbD_byteWithBit (b : Byte) (i : Nat) (v : Bool) {k : Nat} (hk : k < 8) :
    (byteWithBit b i v).getLsbD k = if k = 7 - (i - 1) % 8 then v else b.getLsbD k := by
  have hmask := getLsbD_bitMask i k
  unfold byteWithBit
  cases v
  · rw [if_neg Bool.false_ne_true, BitVec.getLsbD_and, BitVec.getLsbD_not, hmask, decide_eq_true hk]
    split <;> simp [*]
  · rw [if_pos rfl, BitVec.getLsbD_or, hmask]
    split <;> simp [*]

/-- Storing that byte makes bit `i` read `v` and leaves every other bit (R101). -/
theorem getBit_set_byteWithBit {S : List Byte} {i : Nat} (v : Bool) (h : bitInRange S i) (j : Nat) :
    getBit (S.set ((i - 1) / 8) (byteWithBit (S.getD ((i - 1) / 8) 0) i v)) j =
      if j = i then .ok v else getBit S j := by
  obtain ⟨h1, hn⟩ := h
  have hrange := bitInRange_congr (List.length_set (as := S) (i := (i - 1) / 8)
    (a := byteWithBit (S.getD ((i - 1) / 8) 0) i v)) j
  by_cases hj : bitInRange S j
  · rw [getBit, if_pos (hrange.mpr hj), getBit, if_pos hj, List.getD_eq_getElem?_getD]
    by_cases hbyte : (i - 1) / 8 = (j - 1) / 8
    · have hpos : 7 - (j - 1) % 8 = 7 - (i - 1) % 8 ↔ j = i := by have := hj.1; omega
      rw [hbyte, List.getElem?_set_self (by omega), Option.getD_some, getLsbD_byteWithBit _ _ _ (by omega)]
      simp only [hpos]
      split <;> rfl
    · have hji : j ≠ i := by rintro rfl; exact hbyte rfl
      rw [List.getElem?_set_ne hbyte, if_neg hji, List.getD_eq_getElem?_getD]
  · have hji : j ≠ i := by rintro rfl; exact hj ⟨h1, hn⟩
    rw [if_neg hji, getBit_of_not_inRange hj, getBit_of_not_inRange (mt hrange.mp hj)]

/-- Read after write: in range, `putBit` answers a buffer of the same length in which bit `i` is `v` and each other bit
is as before (R101). -/
theorem exists_putBit {S : List Byte} {i : Nat} (v : Bool) (h : bitInRange S i) :
    ∃ S', putBit S i v = .ok S' ∧ S'.length = S.length ∧
      ∀ j, getBit S' j = if j = i then .ok v else getBit S j :=
  ⟨_, putBit_of_inRange v h, List.length_set, getBit_set_byteWithBit v h⟩

/-- Putting the bit that is there changes nothing (R101). -/
theorem putBit_getBit {S : List Byte} {i : Nat} {v : Bool} (h : getBit S i = .ok v) : putBit S i v = .ok S := by
  obtain ⟨S', hput, hlen, hget⟩ := exists_putBit v (bitInRange_of_getBit h)
  have hsame (j : Nat) : getBit S' j = getBit S j := by
    rw [hget]
    split
    · next hj => rw [hj, h]
    · rfl
  rw [hput, eq_of_getBit hlen hsame]

/-- Settles O25: read after write, the bits of a buffer determining it, and the range check. -/
theorem putBitSetsOneBit : Obligations.PutBitSetsOneBit := by
  unfold Obligations.PutBitSetsOneBit
  refine ⟨fun S i v h1 hn => ?_, fun S i v h => putBit_getBit h, fun S i v h => ?_⟩
  · obtain ⟨S', hput, hlen, hget⟩ := exists_putBit v ⟨h1, hn⟩
    exact ⟨S', hput, hlen, by rw [hget, if_pos rfl], fun j hj => by rw [hget, if_neg hj]⟩
  · have hout : ¬bitInRange S i := by rw [bitInRange]; omega
    exact ⟨getBit_of_not_inRange hout, putBit_of_not_inRange v hout⟩

end Sys2Proof.Machine
end

section
/-! The buffer form of `permute` (40_bit_addressing.md rule R102): what the loop leaves in each bit, by induction over
the table. -/

namespace Sys2Proof.Machine

/-- The loop in which no index faults: entry `T[j]` goes to bit `i + j`, every other bit stays (R102). -/
theorem exists_permuteLoop {X : List Byte} (T : List Nat) : ∀ {i : Nat} {Y : List Byte}, (∀ t ∈ T, bitInRange X t) →
    1 ≤ i → i + T.length ≤ 8 * Y.length + 1 →
    ∃ Y', permuteLoop X T i Y = .ok Y' ∧ Y'.length = Y.length ∧
      ∀ j, getBit Y' j = if i ≤ j ∧ j < i + T.length then getBit X (T.getD (j - i) 0) else getBit Y j := by
  induction T with
  | nil =>
    intro i Y _ _ _
    exact ⟨Y, rfl, rfl, fun j => by rw [if_neg (by rw [List.length_nil]; omega)]⟩
  | cons t T ih =>
    intro i Y hT hi hn
    rw [List.length_cons] at hn
    obtain ⟨ht, hT⟩ := List.forall_mem_cons.mp hT
    have hread := getBit_of_inRange ht
    obtain ⟨Y₁, hput, hlen₁, hget₁⟩ :=
      exists_putBit (S := Y) (i := i) (bit (ofBytes (8 * X.length) X) t) ⟨hi, by omega⟩
    obtain ⟨Y', hloop, hlen, hget⟩ := ih (i := i + 1) (Y := Y₁) hT (by omega) (by omega)
    refine ⟨Y', by simp only [permuteLoop, hread, hput, hloop], hlen.trans hlen₁, fun j => ?_⟩
    rw [hget, hget₁, List.length_cons]
    by_cases hj : j = i
    · subst hj
      rw [if_neg (by omega), if_pos rfl, if_pos (by omega), Nat.sub_self, List.getD_cons_zero, hread]
    · by_cases hin : i + 1 ≤ j ∧ j < i + 1 + T.length
      · rw [if_pos hin, if_pos (by omega), show j - i = j - (i + 1) + 1 by omega, List.getD_cons_succ]
      · rw [if_neg hin, if_neg hj, if_neg (by omega)]

/-- The zero bytes `permute` starts from (R102). -/
theorem getBit_replicate_zero {n i : Nat} (h1 : 1 ≤ i) (hn : i ≤ 8 * n) :
    getBit (List.replicate n 0) i = .ok false := by
  have hr : bitInRange (List.replicate n 0) i := ⟨h1, by rwa [List.length_replicate]⟩
  rw [getBit, if_pos hr]
  simp

/-- Settles O26: the loop over the whole table fills bits 1 to n of zero bytes. -/
theorem permuteBufferAgreesWithBitStrings : Obligations.PermuteBufferAgreesWithBitStrings := by
  unfold Obligations.PermuteBufferAgreesWithBitStrings
  intro T X hT
  obtain ⟨Y, hloop, hlen, hget⟩ := exists_permuteLoop (X := X) T (i := 1) (Y := List.replicate ((T.length + 7) / 8) 0)
    hT le_rfl (by rw [List.length_replicate]; omega)
  rw [List.length_replicate] at hlen
  refine ⟨Y, hloop, hlen, fun i h1 hn => ?_, fun i hn hY => ?_⟩
  · have hin : getBit Y i = getBit X (T.getD (i - 1) 0) := by rw [hget, if_pos (by omega)]
    have ht : bitInRange X (T.getD (i - 1) 0) := by
      rw [List.getD_eq_getElem _ _ (by omega)]
      exact hT _ (List.getElem_mem _)
    exact ⟨hin, by rw [hin, getBit_of_inRange ht, bit_permute T _ rfl h1 hn]⟩
  · rw [hget, if_neg (by omega), getBit_replicate_zero (by omega) (by omega)]

end Sys2Proof.Machine
end

section
/-! The shapes of the constant tables (41_key_schedule.md rules R110 to R114, 42_round_function.md rules R130 to R140,
43_block_cipher.md rules R150 to R152): finite facts about literal lists, each checked once. -/

namespace Sys2Proof.Machine

/-- PC-1 selects the bits that are not parity bits (R110, R111). -/
theorem mem_tablePC1_iff : ∀ i ∈ List.range 65, i ∈ tablePC1C ++ tablePC1D ↔ i % 8 ≠ 0 := by decide

theorem le_of_mem_tablePC1 : ∀ t ∈ tablePC1C ++ tablePC1D, t ≤ 64 := by decide

/-- Sixteen rotations, by 28 bits in all (R113). -/
theorem sum_shifts : shifts.sum = 28 := rfl

theorem mem_shifts : ∀ x ∈ shifts, x = 1 ∨ x = 2 := by decide

/-- PC-2 selects 24 distinct bits of either half (R114). -/
theorem tablePC2_shape :
    tablePC2.length = 48 ∧ tablePC2.Nodup ∧ (∀ x ∈ tablePC2.take 24, 1 ≤ x ∧ x ≤ 28) ∧
      ∀ x ∈ tablePC2.drop 24, 29 ≤ x ∧ x ≤ 56 := by decide

theorem mem_tableE : ∀ x ∈ tableE, 1 ≤ x ∧ x ≤ 32 := by decide

/-- Every row of an S-box holds 0 to 15 (R131 to R138). -/
theorem sboxes_rows : ∀ box ∈ sboxes, box.length = 4 ∧
    ∀ row ∈ box, row.length = 16 ∧ ∀ v ∈ List.range 16, v ∈ row := by decide

theorem mem_tableP : ∀ i ∈ List.range 32, i + 1 ∈ tableP := by decide

/-- The two selections of the initial permutation as one table (R150, R151). -/
def tableIP : List Nat := tableIPL ++ tableIPR

/-- FP has the entry `i + 1` where IP sends the bit `i + 1` (R152). -/
theorem tableFP_tableIP : ∀ i ∈ List.range 64, tableFP.getD (tableIP.getD i 0 - 1) 0 = i + 1 := by decide

theorem tableIP_tableFP : ∀ i ∈ List.range 64, tableIP.getD (tableFP.getD i 0 - 1) 0 = i + 1 := by decide

/-- Settles O27: the tables' finite facts, one lemma each. -/
theorem tablesHaveTheirShapes : Obligations.TablesHaveTheirShapes := by
  unfold Obligations.TablesHaveTheirShapes
  exact ⟨⟨rfl, rfl, mem_tablePC1_iff⟩, ⟨rfl, sum_shifts, mem_shifts⟩, tablePC2_shape, ⟨rfl, mem_tableE⟩,
    ⟨rfl, sboxes_rows⟩, ⟨rfl, mem_tableP⟩, rfl, rfl, tableFP_tableIP⟩

end Sys2Proof.Machine
end

section
/-! Rotations of a key half (41_key_schedule.md rules R112 and R113): amounts add up, and 28 is a full turn. -/

namespace Sys2Proof.Machine

/-- Output bit i of a rotation, for any amount (R112). -/
theorem bit_rotl28 (X : KeyHalf) (s : Nat) {i : Nat} (h1 : 1 ≤ i) (hn : i ≤ 28) :
    bit (rotl28 X s) i = bit X ((i - 1 + s) % 28 + 1) := by
  rw [rotl28, bit, bit, BitVec.getMsbD_rotateLeft, decide_eq_true (by omega : i - 1 < 28), Bool.true_and,
    Nat.add_sub_cancel, Nat.add_comm]

/-- The bits after the first `s`, and then those `s` (R112). -/
theorem bit_slice_append_slice (X : KeyHalf) {s len i : Nat} (hlen : len + s = 28) (h1 : 1 ≤ i) (hn : i ≤ 28) :
    bit (slice X (s + 1) len ++ slice X 1 s) i = bit X ((i - 1 + s) % 28 + 1) := by
  rw [bit_append _ _ h1]
  split
  · rw [bit_slice X (by omega) (by omega) h1 (by omega)]; congr 1; omega
  · rw [bit_slice X (by omega) (by omega) (by omega) (by omega)]; congr 1; omega

theorem rotl28_rotl28 (X : KeyHalf) (a b : Nat) : rotl28 (rotl28 X a) b = rotl28 X (a + b) := by
  refine eq_of_bits fun i h1 hn => ?_
  rw [bit_rotl28 _ b h1 hn, bit_rotl28 X a (by omega) (by omega), bit_rotl28 X (a + b) h1 hn]
  congr 1
  omega

/-- A rotation by whole turns changes nothing. -/
theorem rotl28_of_dvd (X : KeyHalf) {s : Nat} (hs : 28 ∣ s) : rotl28 X s = X := by
  refine eq_of_bits fun i h1 hn => ?_
  rw [bit_rotl28 X s h1 hn]
  congr 1
  omega

/-- Rotations one after the other are one rotation by the sum of their amounts. -/
theorem foldl_rotl28 (ss : List Nat) (X : KeyHalf) : ss.foldl rotl28 X = rotl28 X ss.sum := by
  induction ss generalizing X with
  | nil => exact (rotl28_of_dvd X (dvd_zero 28)).symm
  | cons s ss ih => rw [List.foldl_cons, ih, rotl28_rotl28, List.sum_cons]

/-- The sixteen rotations of the schedule are a full turn (R113). -/
theorem foldl_shifts (X : KeyHalf) : shifts.foldl rotl28 X = X := by
  rw [foldl_rotl28, sum_shifts, rotl28_of_dvd X (dvd_refl 28)]

/-- Settles O29: the bits of a rotation, which are those of the two slices, and the sum of the amounts. -/
theorem rotationsMoveBitsLeft : Obligations.RotationsMoveBitsLeft := by
  unfold Obligations.RotationsMoveBitsLeft
  refine ⟨fun X s i _ h1 hn => bit_rotl28 X s h1 hn, fun X => eq_of_bits fun i h1 hn => ?_,
    fun X => eq_of_bits fun i h1 hn => ?_, foldl_shifts⟩
  · exact (bit_rotl28 X 1 h1 hn).trans (bit_slice_append_slice X (len := 27) rfl h1 hn).symm
  · exact (bit_rotl28 X 2 h1 hn).trans (bit_slice_append_slice X (len := 26) rfl h1 hn).symm

end Sys2Proof.Machine
end

section
/-! The rounds of the key schedule (41_key_schedule.md rule R115): the two halves go through the rotations each on its
own, and every round selects from where they are. -/

namespace Sys2Proof.Machine

/-- The half goes through the rotations: `H r` is where it is after the first `r` (R115). -/
def FollowsRotations (ss : List Nat) (H : Nat → KeyHalf) : Prop :=
  ∀ r, r < ss.length → H (r + 1) = rotl28 (H r) (ss.getD r 0)

namespace FollowsRotations
variable {s : Nat} {ss : List Nat} {H C D : Nat → KeyHalf}

theorem head (h : FollowsRotations (s :: ss) H) : rotl28 (H 0) s = H 1 := (h 0 (Nat.succ_pos _)).symm

theorem tail (h : FollowsRotations (s :: ss) H) : FollowsRotations ss fun r => H (r + 1) :=
  fun r hr => h (r + 1) (Nat.succ_lt_succ hr)

/-- Where the half is after the last rotation. -/
theorem last (h : FollowsRotations ss H) : H ss.length = ss.foldl rotl28 (H 0) := by
  induction ss generalizing H with
  | nil => rfl
  | cons s ss ih => rw [List.foldl_cons, h.head]; exact ih h.tail

/-- Subkey r is the selection from the two halves after rotation r + 1. -/
theorem getD_keyRounds (hC : FollowsRotations ss C) (hD : FollowsRotations ss D) {r : Nat} (hr : r < ss.length) :
    (keyRounds ss (C 0) (D 0)).getD r 0 = permute 48 tablePC2 (C (r + 1) ++ D (r + 1)) := by
  induction ss generalizing C D r with
  | nil => cases hr
  | cons s ss ih =>
    rw [keyRounds, hC.head, hD.head]
    cases r with
    | zero => rfl
    | succ r => exact ih hC.tail hD.tail (Nat.lt_of_succ_lt_succ hr)

end FollowsRotations

/-- Settles O30: the halves follow the rotations, each round selects from them, and the rotations are a full turn. -/
theorem keyScheduleFollowsItsRounds : Obligations.KeyScheduleFollowsItsRounds := by
  unfold Obligations.KeyScheduleFollowsItsRounds
  intro K C D hC₀ hD₀ hC hD
  have hC : FollowsRotations shifts C := hC
  have hD : FollowsRotations shifts D := hD
  refine ⟨length_keySchedule K, fun r hr => ?_, hC.last.trans (foldl_shifts _), hD.last.trans (foldl_shifts _)⟩
  rw [keySchedule, ← hC₀, ← hD₀]
  exact hC.getD_keyRounds hD hr

end Sys2Proof.Machine
end

section
/-! Keys with the same schedule (41_key_schedule.md rule R116): the parity bits are not selected, and halves that no
rotation changes give one subkey. -/

namespace Sys2Proof.Machine

/-- A permutation looks at the bits its table lists only (R102). -/
theorem permute_congr {n len : Nat} {T : List Nat} {X Y : BitVec n} (h : ∀ t ∈ T, bit X t = bit Y t) :
    permute len T X = permute len T Y := by
  unfold permute
  rw [List.foldl_ext _ _ 0 fun acc t ht => by rw [h t ht]]

/-- Every bit that PC-1 selects is a bit of the key and no parity bit (R110, R111). -/
theorem not_parity_of_mem_tablePC1 {t : Nat} (h : t ∈ tablePC1C ++ tablePC1D) : 1 ≤ t ∧ t ≤ 64 ∧ t % 8 ≠ 0 := by
  have hle := le_of_mem_tablePC1 t h
  have hpar := (mem_tablePC1_iff t (List.mem_range.mpr (by omega))).mp h
  omega

/-- Keys that agree outside the parity bits have the same schedule (R116). -/
theorem keySchedule_congr {K K' : RawKey} (h : ∀ i, 1 ≤ i → i ≤ 64 → i % 8 ≠ 0 → bit K i = bit K' i) :
    keySchedule K = keySchedule K' := by
  have hbit (t : Nat) (ht : t ∈ tablePC1C ++ tablePC1D) : bit K t = bit K' t := by
    obtain ⟨h1, hn, hpar⟩ := not_parity_of_mem_tablePC1 ht
    exact h t h1 hn hpar
  rw [keySchedule, keySchedule, permute_congr fun t ht => hbit t (List.mem_append_left _ ht),
    permute_congr (T := tablePC1D) fun t ht => hbit t (List.mem_append_right _ ht)]

/-- Halves that no rotation changes give the same subkey in every round. -/
theorem keyRounds_of_fixed {C D : KeyHalf} (hC : ∀ s, rotl28 C s = C) (hD : ∀ s, rotl28 D s = D) (ss : List Nat) :
    keyRounds ss C D = List.replicate ss.length (permute 48 tablePC2 (C ++ D)) := by
  induction ss with
  | nil => rfl
  | cons s ss ih => rw [keyRounds, hC, hD, ih]; rfl

theorem rotl28_zeros (s : Nat) : rotl28 0 s = 0 := by
  refine eq_of_bits fun i h1 hn => ?_
  rw [bit_rotl28 0 s h1 hn]
  simp [bit]

theorem rotl28_ones (s : Nat) : rotl28 (BitVec.allOnes 28) s = BitVec.allOnes 28 := by
  refine eq_of_bits fun i h1 hn => ?_
  have hrange : i - 1 < 28 ∧ (i - 1 + s) % 28 < 28 := by omega
  rw [bit_rotl28 _ s h1 hn]
  simp only [bit, BitVec.getMsbD_allOnes, Nat.add_sub_cancel, hrange]

/-- Both halves of this weak key are zeros (R116). -/
theorem keySchedule_weakZeros : keySchedule 0x0101010101010101 = List.replicate 16 0 := by
  have hC : permute 28 tablePC1C (0x0101010101010101 : RawKey) = 0 := by decide
  have hD : permute 28 tablePC1D (0x0101010101010101 : RawKey) = 0 := by decide
  rw [keySchedule, hC, hD, keyRounds_of_fixed rotl28_zeros rotl28_zeros]
  rfl

/-- Both halves of this weak key are ones. -/
theorem keySchedule_weakOnes : keySchedule 0xFEFEFEFEFEFEFEFE = List.replicate 16 0xFFFFFFFFFFFF := by
  have hC : permute 28 tablePC1C (0xFEFEFEFEFEFEFEFE : RawKey) = BitVec.allOnes 28 := by decide
  have hD : permute 28 tablePC1D (0xFEFEFEFEFEFEFEFE : RawKey) = BitVec.allOnes 28 := by decide
  rw [keySchedule, hC, hD, keyRounds_of_fixed rotl28_ones rotl28_ones]
  rfl

/-- Settles O31: PC-1 leaves out the parity bits, and the halves of the two weak keys are constant. -/
theorem parityBitsAreIgnored : Obligations.ParityBitsAreIgnored := by
  unfold Obligations.ParityBitsAreIgnored
  exact ⟨fun K K' => keySchedule_congr, keySchedule_weakZeros, keySchedule_weakOnes⟩

end Sys2Proof.Machine
end

section
/-! `keysched` (41_key_schedule.md rule R117): its checks and its one operand in their order, and its output byte by
byte. -/

namespace Sys2Proof.Machine

/-- KSEL selects a RawKey unless it is 3 (R72). -/
theorem keySelectLegal_of_ne_three {ksel : BitVec 2} (h : ksel ≠ 3) : keySelectLegal ksel = true := by
  revert ksel
  decide

section Endings
variable {i : Instr} {s : State}

theorem failsWith_of_raise {e : EngineError} (h : exec i s = raise e s) : failsWith i s e.code := h

theorem readsUnwritten_of_modelFault (h : exec i s = modelFault .unwrittenRead s) : readsUnwritten i s :=
  ⟨_, h, afterFault_faultMark _ s⟩

end Endings

theorem exec_keysched_three (s : State) : exec (.keysched 3) s = raise .illegalCommand s := by
  rw [exec, execKeysched, requireKeySelect_fail rfl]

section SelectedKey
variable {s : State} {ksel : BitVec 2}

theorem exec_keysched_keyLength (hk : ksel ≠ 3) (hlen : s.keyLen ≠ 24) :
    exec (.keysched ksel) s = raise .invalidKeyLength s := by
  rw [exec, execKeysched, requireKeySelect_pass (keySelectLegal_of_ne_three hk), requireKeyLength_fail hlen]

/-- After its checks the command reads the selected RawKey and outputs its subkeys. -/
theorem exec_keysched_checked (hk : ksel ≠ 3) (hlen : s.keyLen = 24) :
    exec (.keysched ksel) s =
      withOperand (rawKeyOf s ksel) s fun K => succeed (subkeyBytes (keySchedule K)) s := by
  rw [exec, execKeysched, requireKeySelect_pass (keySelectLegal_of_ne_three hk), requireKeyLength_pass hlen]

theorem exec_keysched_unwritten (hk : ksel ≠ 3) (hlen : s.keyLen = 24) {j : Nat} (hj : j < 8)
    (hread : Memory.read s.key (8 * ksel.toNat + j) = none) :
    exec (.keysched ksel) s = modelFault .unwrittenRead s := by
  rw [exec_keysched_checked hk hlen, rawKeyOf_none hj hread, withOperand_none]

theorem exec_keysched_written (hk : ksel ≠ 3) (hlen : s.keyLen = 24) {K : List Byte} (hK : K.length = 8)
    (hkey : bufferHolds s.key (8 * ksel.toNat) K) :
    exec (.keysched ksel) s = .next (afterSuccess (subkeyBytes (keySchedule (ofBytes 64 K))) s) := by
  rw [exec_keysched_checked hk hlen, rawKeyOf_some hK hkey, withOperand_some, succeed]

end SelectedKey

/-- Byte j of subkey r among the bytes of a schedule (R117). -/
theorem getElem?_subkeyBytes {KS : List Subkey} {r j : Nat} (hr : r < KS.length) (hj : j < 6) :
    (subkeyBytes KS)[6 * r + j]? = some (slice (KS.getD r 0) (8 * j + 1) 8) := by
  have hpiece := drop_take_flatMap_const (toBytes 6) 6 (fun _ => length_toBytes 6 _) KS hr
  rw [subkeyBytes, ← List.getElem?_drop, ← List.getElem?_take_of_lt hj, hpiece, getElem?_toBytes _ hj,
    List.getD_eq_getElem _ _ hr]

theorem subkeyBytes_replicate (n : Nat) (Z : Subkey) :
    subkeyBytes (List.replicate n Z) = (List.replicate n (toBytes 6 Z)).flatten := by
  rw [subkeyBytes, List.flatMap_def, List.map_replicate]

section Output
variable (K : RawKey) (s : State)

theorem length_subkeyBytes_keySchedule : (subkeyBytes (keySchedule K)).length = 96 := by
  rw [length_subkeyBytes, length_keySchedule]

theorem outLen_afterSuccess_subkeyBytes : (afterSuccess (subkeyBytes (keySchedule K)) s).outLen = 96 := by
  rw [afterSuccess_outLen, length_subkeyBytes_keySchedule]
  rfl

theorem read_afterSuccess_subkeyBytes {r j : Nat} (hr : r < 16) (hj : j < 6) :
    Memory.read (afterSuccess (subkeyBytes (keySchedule K)) s).outBuf (6 * r + j) =
      some (slice ((keySchedule K).getD r 0) (8 * j + 1) 8) := by
  have hlt : 6 * r + j < (subkeyBytes (keySchedule K)).length := by rw [length_subkeyBytes_keySchedule]; omega
  have hread := bufferHolds_writeRange s.outBuf 0 (subkeyBytes (keySchedule K)) (6 * r + j) hlt
  rw [Nat.zero_add] at hread
  rw [afterSuccess_outBuf, hread, getElem?_subkeyBytes (by rwa [length_keySchedule]) hj]

end Output

/-- Settles O17: the words are the command's encodings, each error and fault is the first check or read that fails,
and otherwise OUT holds the subkeys' bytes. -/
theorem keyschedWritesTheSubkeys : Obligations.KeyschedWritesTheSubkeys := by
  unfold Obligations.KeyschedWritesTheSubkeys
  refine ⟨⟨decode_encode_of_wf (i := .keysched 0) rfl, decode_encode_of_wf (i := .keysched 1) rfl,
    decode_encode_of_wf (i := .keysched 2) rfl, decode_badKeySelect_keyed (by decide) (by decide)⟩,
    fun s ksel => ⟨?_, fun hk hlen => ?_, fun hk hlen j hj hread => ?_, fun hk hlen K hK hkey => ?_⟩⟩
  · rintro rfl
    exact failsWith_of_raise (exec_keysched_three s)
  · exact failsWith_of_raise (exec_keysched_keyLength hk hlen)
  · exact readsUnwritten_of_modelFault (exec_keysched_unwritten hk hlen hj hread)
  · have hlen96 := outLen_afterSuccess_subkeyBytes (ofBytes 64 K) s
    refine ⟨_, exec_keysched_written hk hlen hK hkey, rfl, hlen96, rfl, rfl,
      fun r j => read_afterSuccess_subkeyBytes (ofBytes 64 K) s, fun Z hZ => ?_, fun hc => ?_⟩
    · rw [afterSuccess_outBuf, hZ, subkeyBytes_replicate]
      exact bufferHolds_writeRange s.outBuf 0 _
    · obtain ⟨-, -, hcap, -⟩ := hc
      rw [hlen96]
      exact (le_max_right _ _).trans hcap

end Sys2Proof.Machine
end

section
/-! Decryption undoes encryption (43_block_cipher.md rules R152 to R155): the final permutation undoes the initial one,
and each round undoes itself with the halves exchanged. -/

namespace Sys2Proof.Machine

/-- Two permutations whose tables are inverse to each other cancel (R102). -/
theorem permute_permute_of_inverse {n : Nat} {S T : List Nat} (hS : S.length = n) (hT : T.length = n)
    (hrange : ∀ t ∈ S, 1 ≤ t ∧ t ≤ n) (hinv : ∀ i ∈ List.range n, T.getD (S.getD i 0 - 1) 0 = i + 1)
    (X : BitVec n) : permute n S (permute n T X) = X := by
  refine eq_of_bits fun i h1 hn => ?_
  obtain ⟨ht1, htn⟩ : 1 ≤ S.getD (i - 1) 0 ∧ S.getD (i - 1) 0 ≤ n := by
    rw [List.getD_eq_getElem _ _ (by omega)]
    exact hrange _ (List.getElem_mem _)
  rw [bit_permute S _ hS h1 hn, bit_permute T X hT ht1 htn, hinv (i - 1) (List.mem_range.mpr (by omega)),
    Nat.sub_add_cancel h1]

/-- Two selections side by side are the selection of the joined table (R105). -/
theorem permute_append_permute {n a b : Nat} {S T : List Nat} (hS : S.length = a) (hT : T.length = b)
    (X : BitVec n) : permute a S X ++ permute b T X = permute (a + b) (S ++ T) X := by
  refine eq_of_bits fun i h1 hn => ?_
  rw [bit_append _ _ h1, bit_permute (S ++ T) X (by rw [List.length_append, hS, hT]) h1 hn]
  split
  · rw [bit_permute S X hS h1 ‹_›, List.getD_append _ _ _ _ (by omega)]
  · rw [bit_permute T X hT (by omega) (by omega), List.getD_append_right _ _ _ _ (by omega), hS,
      Nat.sub_right_comm]

theorem bitVec_append_inj {n m : Nat} {X X' : BitVec n} {Y Y' : BitVec m} (h : X ++ Y = X' ++ Y') : X = X' ∧ Y = Y' := by
  have hl := congrArg (·.extractLsb' m n) h
  have hr := congrArg (·.extractLsb' 0 m) h
  simp only [BitVec.extractLsb'_append_eq_left, BitVec.extractLsb'_append_eq_right] at hl hr
  exact ⟨hl, hr⟩

theorem initialHalves_append (B : Block) : (initialHalves B).1 ++ (initialHalves B).2 = permute 64 tableIP B :=
  permute_append_permute (a := 32) (b := 32) rfl rfl B

theorem permute_tableFP_permute_tableIP (B : Block) : permute 64 tableFP (permute 64 tableIP B) = B :=
  permute_permute_of_inverse (S := tableFP) (T := tableIP) rfl rfl (by decide) tableIP_tableFP B

theorem permute_tableIP_permute_tableFP (B : Block) : permute 64 tableIP (permute 64 tableFP B) = B :=
  permute_permute_of_inverse (S := tableIP) (T := tableFP) rfl rfl (by decide) tableFP_tableIP B

theorem finalBlock_swap_initialHalves (B : Block) : finalBlock (initialHalves B).swap = B := by
  rw [finalBlock, Prod.fst_swap, Prod.snd_swap, initialHalves_append, permute_tableFP_permute_tableIP]

theorem initialHalves_finalBlock (LR : HalfBlock × HalfBlock) : initialHalves (finalBlock LR) = LR.swap := by
  have happ : (initialHalves (finalBlock LR)).1 ++ (initialHalves (finalBlock LR)).2 = LR.2 ++ LR.1 := by
    rw [initialHalves_append, finalBlock, permute_tableIP_permute_tableFP]
  obtain ⟨hl, hr⟩ := bitVec_append_inj happ
  exact Prod.ext hl hr

/-- A round with the halves exchanged undoes the round under the same subkey (R155). -/
theorem feistelRound_swap (LR : HalfBlock × HalfBlock) (K : Subkey) :
    feistelRound (feistelRound LR K).swap K = LR.swap := by
  simp [feistelRound, Prod.swap]

/-- The rounds under the reversed schedule, the halves exchanged, undo the rounds (R155). -/
theorem foldl_feistelRound_reverse (KS : List Subkey) (LR : HalfBlock × HalfBlock) :
    KS.reverse.foldl feistelRound (KS.foldl feistelRound LR).swap = LR.swap := by
  induction KS generalizing LR with
  | nil => rfl
  | cons K KS ih =>
    rw [List.reverse_cons, List.foldl_append, List.foldl_cons (l := KS), ih]
    exact feistelRound_swap LR K

theorem decryptBlock_encryptBlock (B : Block) (KS : List Subkey) : decryptBlock (encryptBlock B KS) KS = B := by
  rw [decryptBlock, encryptBlock, initialHalves_finalBlock, foldl_feistelRound_reverse, finalBlock_swap_initialHalves]

/-- A schedule of equal subkeys is its own reverse (R154). -/
theorem decryptBlock_replicate (B : Block) (n : Nat) (K : Subkey) :
    decryptBlock B (List.replicate n K) = encryptBlock B (List.replicate n K) := by
  rw [decryptBlock, List.reverse_replicate, encryptBlock]

/-- Settles O34: equal subkeys reversed are the same schedule, the weak key has one subkey, and decryption undoes
encryption. -/
theorem weakKeysEncryptAndDecryptAlike : Obligations.WeakKeysEncryptAndDecryptAlike := by
  unfold Obligations.WeakKeysEncryptAndDecryptAlike
  refine ⟨fun B K => decryptBlock_replicate B 16 K, fun B => ?_⟩
  rw [keySchedule_weakZeros, ← decryptBlock_replicate, decryptBlock_encryptBlock]

end Sys2Proof.Machine
end

section
/-! The bits of the round function (42_round_function.md rules R130, R139 to R141): the eight S-box values lie side by
side, each entered at the row and the column of its own six bits. -/

namespace Sys2Proof.Machine

/-- The substitution is the eight S-box values in order, four bits each (R141). -/
theorem bit_substitute (X : BitVec 48) {g j : Nat} (hg : g < 8) (hj : j < 4) :
    bit (substitute X) (4 * g + (j + 1)) = bit (sBox X g) (j + 1) := by
  have happ {a b : Nat} (Y : BitVec a) (Z : BitVec b) := bit_append Y Z (show 1 ≤ 4 * g + (j + 1) by omega)
  rw [substitute, happ, happ, happ, happ, happ, happ, happ]
  interval_cases g
  all_goals
    simp (disch := omega) only [if_pos, if_neg]
    congr 1
    omega

/-- The bits of an S-box value, from its entry in the table (R139). -/
theorem bit_sBox (X : BitVec 48) (g : Nat) {j : Nat} (hj : j < 4) :
    bit (sBox X g) (j + 1) = (sboxEntry g (sBoxRow X g) (sBoxColumn X g)).testBit (3 - j) := by
  rw [sBox, bit_ofNat _ (Nat.le_add_left 1 j) hj, Nat.add_sub_add_right 3 1 j]

/-- The row is the number that the outer bits spell (R139). -/
theorem sBoxRow_eq (X : BitVec 48) (g : Nat) :
    sBoxRow X g = 2 * (bit X (6 * g + 1)).toNat + (bit X (6 * g + 6)).toNat := by
  have hbits : ∀ a b : Bool, a.toNat <<< 1 ||| b.toNat = 2 * a.toNat + b.toNat := by decide
  exact hbits _ _

/-- The column is the number that the inner bits spell (R139). -/
theorem sBoxColumn_eq (X : BitVec 48) (g : Nat) :
    sBoxColumn X g = 8 * (bit X (6 * g + 2)).toNat + 4 * (bit X (6 * g + 3)).toNat +
      2 * (bit X (6 * g + 4)).toNat + (bit X (6 * g + 5)).toNat := by
  have hbits : ∀ a b c d : Bool, a.toNat <<< 3 ||| b.toNat <<< 2 ||| c.toNat <<< 1 ||| d.toNat =
      8 * a.toNat + 4 * b.toNat + 2 * c.toNat + d.toNat := by decide
  exact hbits _ _ _ _

/-- What enters the S-boxes: the expanded half-block with the subkey mixed in (R130, R141). -/
def sBoxInput (R : HalfBlock) (K : Subkey) : BitVec 48 := permute 48 tableE R ^^^ K

theorem bit_sBoxInput (R : HalfBlock) (K : Subkey) {i : Nat} (h1 : 1 ≤ i) (hn : i ≤ 48) :
    bit (sBoxInput R K) i = (bit R (tableE.getD (i - 1) 0) ^^ bit K i) := by
  rw [sBoxInput, bit_xor, bit_permute (len := 48) tableE R rfl h1 hn]

/-- P selects among the bits of the substitution (R140, R141). -/
theorem bit_roundFunction (R : HalfBlock) (K : Subkey) {i : Nat} (h1 : 1 ≤ i) (hn : i ≤ 32) :
    bit (roundFunction R K) i = bit (substitute (sBoxInput R K)) (tableP.getD (i - 1) 0) :=
  bit_permute tableP _ rfl h1 hn

theorem tableP_bounds : ∀ t ∈ tableP, 1 ≤ t ∧ t ≤ 32 := by decide

theorem getD_tableP_bounds {i : Nat} (hi : i < 32) : 1 ≤ tableP.getD i 0 ∧ tableP.getD i 0 ≤ 32 := by
  rw [List.getD_eq_getElem tableP 0 hi]
  exact tableP_bounds _ (List.getElem_mem hi)

/-- Settles O32: P selects a bit of one S-box value, whose row and column are spelled by the mixed bits of its group. -/
theorem roundFunctionBits : Obligations.RoundFunctionBits := by
  unfold Obligations.RoundFunctionBits
  intro R K i h1 hn p g x
  obtain ⟨hp1, hpn⟩ : 1 ≤ p ∧ p ≤ 32 := getD_tableP_bounds (by omega)
  have hg : g < 8 := by omega
  have hx (k : Nat) (hk : 1 ≤ k ∧ k ≤ 6) : (bit (sBoxInput R K) (6 * g + k)).toNat = x k := by
    rw [bit_sBoxInput R K (by omega) (by omega)]
  have hrow : sBoxRow (sBoxInput R K) g = 2 * x 1 + x 6 := by
    rw [sBoxRow_eq, hx 1 (by decide), hx 6 (by decide)]
  have hcolumn : sBoxColumn (sBoxInput R K) g = 8 * x 2 + 4 * x 3 + 2 * x 4 + x 5 := by
    rw [sBoxColumn_eq, hx 2 (by decide), hx 3 (by decide), hx 4 (by decide), hx 5 (by decide)]
  have hp : p = 4 * g + ((p - 1) % 4 + 1) := by omega
  calc bit (roundFunction R K) i
      = bit (substitute (sBoxInput R K)) p := bit_roundFunction R K h1 hn
    _ = bit (substitute (sBoxInput R K)) (4 * g + ((p - 1) % 4 + 1)) := congrArg _ hp
    _ = bit (sBox (sBoxInput R K) g) ((p - 1) % 4 + 1) := bit_substitute _ hg (by omega)
    _ = (sboxEntry g (2 * x 1 + x 6) (8 * x 2 + 4 * x 3 + 2 * x 4 + x 5)).testBit (3 - (p - 1) % 4) := by
      rw [bit_sBox _ g (by omega), hrow, hcolumn]

end Sys2Proof.Machine
end

section
/-! Known answers (95_test_vectors.md): one evaluation for each vector of the ciphers; the decryption follows from the
encryption. -/

namespace Sys2Proof.Machine

/-- V-F-1. -/
theorem roundFunction_knownAnswer : roundFunction 0xF0AAF0AA 0x1B02EFFC7072 = 0x234AA9BB := by decide +kernel

/-- The sixteen subkeys of the key of V-KS-1. -/
def knownSubkeys : List Subkey :=
  [0x1B02EFFC7072, 0x79AED9DBC9E5, 0x55FC8A42CF99, 0x72ADD6DB351D,
   0x7CEC07EB53A8, 0x63A53E507B2F, 0xEC84B7F618BC, 0xF78A3AC13BFB,
   0xE0DBEBEDE781, 0xB1F347BA464F, 0x215FD3DED386, 0x7571F59467E9,
   0x97C5D1FABA41, 0x5F43B7F2E73A, 0xBF918D3D3F0A, 0xCB3D8B0E17F5]

/-- V-KS-1. -/
theorem keySchedule_knownAnswer : keySchedule 0x133457799BBCDFF1 = knownSubkeys := by decide +kernel

/-- V-DES-1. -/
theorem encryptBlock_knownAnswer : encryptBlock 0x0123456789ABCDEF knownSubkeys = 0x85E813540F0AB405 := by
  decide +kernel

/-- V-TDES-1. -/
theorem tdesEncryptBlock_knownAnswer :
    tdesEncryptBlock 0x5468652071756663 0x0123456789ABCDEF23456789ABCDEF01456789ABCDEF0123 = 0xA826FD8CE53B855F := by
  decide +kernel

/-- Settles O24: the two directions of V-DES-1 are one evaluation, the padding vectors compute by unfolding. -/
theorem knownAnswersMatch : Obligations.KnownAnswersMatch := by
  unfold Obligations.KnownAnswersMatch
  rw [keySchedule_knownAnswer]
  refine ⟨roundFunction_knownAnswer, rfl, rfl, encryptBlock_knownAnswer, ?_, tdesEncryptBlock_knownAnswer, rfl, rfl⟩
  rw [← encryptBlock_knownAnswer, decryptBlock_encryptBlock]

end Sys2Proof.Machine
end

section
/-! The permutations and the inversion of the block cipher (43_block_cipher.md rules R150 to R155), and the commands
`des.enc` and `des.dec` (rules R156, R157), which are one block command with two transformations. -/

namespace Sys2Proof.Machine

/-- Settles O28: the two selections lie side by side, and the joined table and FP's are inverse to each other. -/
theorem finalPermutationInvertsInitial : Obligations.FinalPermutationInvertsInitial := by
  unfold Obligations.FinalPermutationInvertsInitial
  exact ⟨initialHalves_append, permute_tableFP_permute_tableIP, permute_tableIP_permute_tableFP⟩

/-- Decryption is encryption under the reversed schedule (R154). -/
theorem decryptBlock_eq_encryptBlock_reverse (B : Block) (KS : List Subkey) :
    decryptBlock B KS = encryptBlock B KS.reverse := rfl

/-- Encryption is decryption under the reversed schedule, and decryption undoes the encryption under that one (R155). -/
theorem encryptBlock_decryptBlock (B : Block) (KS : List Subkey) : encryptBlock (decryptBlock B KS) KS = B := by
  calc encryptBlock (decryptBlock B KS) KS
      = decryptBlock (encryptBlock B KS.reverse) KS.reverse := by
        rw [decryptBlock_eq_encryptBlock_reverse, decryptBlock_eq_encryptBlock_reverse, List.reverse_reverse]
    _ = B := decryptBlock_encryptBlock B KS.reverse

/-- Settles O33: the rounds undo each other, and each direction is the other under the reversed schedule. -/
theorem blockCipherInverts : Obligations.BlockCipherInverts := by
  unfold Obligations.BlockCipherInverts
  exact fun B KS => ⟨decryptBlock_encryptBlock B KS, encryptBlock_decryptBlock B KS⟩

theorem completesWith_of_succeed {i : Instr} {s : State} {S : List Byte} (h : exec i s = succeed S s) :
    completesWith i s S :=
  ⟨_, h, afterSuccess_status S s, afterSuccess_outLen S s, bufferHolds_writeRange s.outBuf 0 S, rfl, rfl⟩

/-- What a block command does once its KSEL is legal: the checks of KEY_LEN and IN_LEN, the reads of the key and of the
block, and the output of the transformed block (R156, R173). -/
def blockCommand {α : Type} (key : Option α) (cipher : α → Block → Block) (s : State) : StepResult :=
  requireKeyLength s <|
  requireInputFits s <|
  requireOneBlock s <|
  withOperand key s fun K =>
  withOperand (blockOf s) s fun B =>
  succeed (toBytes 8 (cipher K B)) s

section BlockCommand
variable {α : Type} {key : Option α} {cipher : α → Block → Block} {s : State}

theorem blockCommand_keyLength (hlen : s.keyLen ≠ 24) :
    blockCommand key cipher s = raise .invalidKeyLength s := requireKeyLength_fail hlen

theorem blockCommand_capacity (hlen : s.keyLen = 24) (hcap : s.cfg.inCap < s.inLen.toNat) :
    blockCommand key cipher s = raise .capacityExceeded s := by
  rw [blockCommand, requireKeyLength_pass hlen, requireInputFits_fail hcap]

theorem blockCommand_blockLength (hlen : s.keyLen = 24) (hfit : s.inLen.toNat ≤ s.cfg.inCap) (h8 : s.inLen ≠ 8) :
    blockCommand key cipher s = raise .invalidBlockLength s := by
  rw [blockCommand, requireKeyLength_pass hlen, requireInputFits_pass hfit, requireOneBlock_fail h8]

section Checked
variable (hlen : s.keyLen = 24) (hfit : s.inLen.toNat ≤ s.cfg.inCap) (h8 : s.inLen = 8)
include hlen hfit h8

theorem blockCommand_checked :
    blockCommand key cipher s = withOperand key s fun K => withOperand (blockOf s) s fun B =>
      succeed (toBytes 8 (cipher K B)) s := by
  rw [blockCommand, requireKeyLength_pass hlen, requireInputFits_pass hfit, requireOneBlock_pass h8]

/-- Whichever operand has an unwritten byte, the fault is the same one (R239 step 5). -/
theorem blockCommand_unwritten (hread : key = none ∨ blockOf s = none) :
    blockCommand key cipher s = modelFault .unwrittenRead s := by
  rw [blockCommand_checked hlen hfit h8]
  obtain hkey | hblock := hread
  · rw [hkey, withOperand_none]
  · obtain ⟨K, -, h⟩ | ⟨-, h⟩ := withOperand_cases key s fun K => withOperand (blockOf s) s fun B =>
      succeed (toBytes 8 (cipher K B)) s
    · rw [h, hblock, withOperand_none]
    · exact h

theorem blockCommand_written {K : α} {B : Block} (hkey : key = some K) (hblock : blockOf s = some B) :
    blockCommand key cipher s = succeed (toBytes 8 (cipher K B)) s := by
  rw [blockCommand_checked hlen hfit h8, hkey, withOperand_some, hblock, withOperand_some]

end Checked
end BlockCommand

section DesCommands
variable {s : State} {ksel : BitVec 2}

theorem exec_desEnc (hk : ksel ≠ 3) :
    exec (.desEnc ksel) s = blockCommand (rawKeyOf s ksel) (fun K B => encryptBlock B (keySchedule K)) s :=
  requireKeySelect_pass (keySelectLegal_of_ne_three hk)

theorem exec_desDec (hk : ksel ≠ 3) :
    exec (.desDec ksel) s = blockCommand (rawKeyOf s ksel) (fun K B => decryptBlock B (keySchedule K)) s :=
  requireKeySelect_pass (keySelectLegal_of_ne_three hk)

variable {i : Instr} (hi : i = .desEnc ksel ∨ i = .desDec ksel)
include hi

theorem exec_des_three (hk : ksel = 3) : exec i s = raise .illegalCommand s := by
  subst hk
  obtain rfl | rfl := hi
  · rw [exec, execDesEnc, requireKeySelect_fail rfl]
  · rw [exec, execDesDec, requireKeySelect_fail rfl]

/-- Both are the block command of the selected RawKey, up to the transformation. -/
theorem exists_exec_des : ∃ cipher, ksel ≠ 3 → exec i s = blockCommand (rawKeyOf s ksel) cipher s := by
  obtain rfl | rfl := hi
  · exact ⟨_, exec_desEnc⟩
  · exact ⟨_, exec_desDec⟩

end DesCommands

/-- Settles O18: the words are the commands' encodings; each error and fault is the first check or read of the block
command that fails, and otherwise its output is the transformed block. -/
theorem desCommandsTransformOneBlock : Obligations.DesCommandsTransformOneBlock := by
  unfold Obligations.DesCommandsTransformOneBlock
  refine ⟨⟨decode_encode_of_wf (i := .desEnc 0) rfl, decode_encode_of_wf (i := .desEnc 1) rfl,
    decode_encode_of_wf (i := .desEnc 2) rfl, decode_encode_of_wf (i := .desDec 0) rfl,
    decode_encode_of_wf (i := .desDec 1) rfl, decode_encode_of_wf (i := .desDec 2) rfl,
    decode_badKeySelect_keyed (by decide) (by decide), decode_badKeySelect_keyed (by decide) (by decide)⟩,
    fun s ksel i hi => ?_⟩
  obtain ⟨cipher, hexec⟩ := exists_exec_des (s := s) hi
  refine ⟨fun hk => failsWith_of_raise (exec_des_three hi hk), fun hk hlen => ?_, fun hk hlen hcap => ?_,
    fun hk hlen hfit h8 => ?_,
    fun hk hlen hfit h8 => ⟨fun j hj hread => ?_, fun K B hK hB hkey hblock => ⟨?_, ?_⟩⟩⟩
  · exact failsWith_of_raise ((hexec hk).trans (blockCommand_keyLength hlen))
  · exact failsWith_of_raise ((hexec hk).trans (blockCommand_capacity hlen hcap))
  · exact failsWith_of_raise ((hexec hk).trans (blockCommand_blockLength hlen hfit h8))
  · have hoperand : rawKeyOf s ksel = none ∨ blockOf s = none := hread.imp (rawKeyOf_none hj) (blockOf_none hj)
    exact readsUnwritten_of_modelFault ((hexec hk).trans (blockCommand_unwritten hlen hfit h8 hoperand))
  · rintro rfl
    exact completesWith_of_succeed ((exec_desEnc hk).trans
      (blockCommand_written hlen hfit h8 (rawKeyOf_some hK hkey) (blockOf_some hB hblock)))
  · rintro rfl
    exact completesWith_of_succeed ((exec_desDec hk).trans
      (blockCommand_written hlen hfit h8 (rawKeyOf_some hK hkey) (blockOf_some hB hblock)))

end Sys2Proof.Machine
end

section
/-! The Triple-DES block cipher (44_triple_cipher.md rules R170 to R172, R175), and the commands `tdes.enc` and
`tdes.dec` (rules R173, R174), which are the block command of the TripleKey with two transformations. -/

namespace Sys2Proof.Machine

/-- A slice of the left part of a concatenation (R8, R105). -/
theorem slice_append_left {n m : Nat} (X : BitVec n) (Y : BitVec m) {a len : Nat} (ha : 1 ≤ a)
    (hlen : a + len ≤ n + 1) : slice (X ++ Y) a len = slice X a len := by
  refine eq_of_bits fun i h1 hi => ?_
  rw [bit_slice _ ha (by omega) h1 hi, bit_slice _ ha hlen h1 hi, bit_append _ _ (by omega), if_pos (by omega)]

/-- The right part of a concatenation (R8, R105). -/
theorem slice_append_right {n m : Nat} (X : BitVec n) (Y : BitVec m) : slice (X ++ Y) (n + 1) m = Y := by
  refine eq_of_bits fun i h1 hi => ?_
  rw [bit_slice _ (by omega) (by omega) h1 hi, bit_append _ _ (by omega), if_neg (by omega),
    show n + 1 + i - 1 - n = i from by omega]

theorem slice_self {n : Nat} (X : BitVec n) : slice X 1 n = X := by
  refine eq_of_bits fun i h1 hi => ?_
  rw [bit_slice _ le_rfl (by omega) h1 hi, Nat.add_sub_cancel_left]

/-- Three RawKeys side by side are split into those three (R170). -/
theorem rawKeysOf_append (K1 K2 K3 : RawKey) : rawKeysOf (K1 ++ K2 ++ K3) = (K1, K2, K3) := by
  have h1 : slice (K1 ++ K2 ++ K3) 1 64 = K1 := by
    rw [slice_append_left _ _ (by omega) (by omega), slice_append_left _ _ (by omega) (by omega), slice_self]
  have h2 : slice (K1 ++ K2 ++ K3) 65 64 = K2 := by
    rw [slice_append_left _ _ (by omega) (by omega), slice_append_right]
  have h3 : slice (K1 ++ K2 ++ K3) 129 64 = K3 := slice_append_right _ _
  exact congrArg₂ Prod.mk h1 (congrArg₂ Prod.mk h2 h3)

theorem tdesEncryptBlock_append (B : Block) (K1 K2 K3 : RawKey) : tdesEncryptBlock B (K1 ++ K2 ++ K3) =
    encryptBlock (decryptBlock (encryptBlock B (keySchedule K1)) (keySchedule K2)) (keySchedule K3) := by
  rw [tdesEncryptBlock, splitKey, rawKeysOf_append]

theorem tdesDecryptBlock_append (B : Block) (K1 K2 K3 : RawKey) : tdesDecryptBlock B (K1 ++ K2 ++ K3) =
    decryptBlock (encryptBlock (decryptBlock B (keySchedule K3)) (keySchedule K2)) (keySchedule K1) := by
  rw [tdesDecryptBlock, splitKey, rawKeysOf_append]

/-- The three steps are undone from the last to the first (R172). -/
theorem tdesDecryptBlock_tdesEncryptBlock (B : Block) (TK : TripleKey) :
    tdesDecryptBlock (tdesEncryptBlock B TK) TK = B := by
  simp only [tdesDecryptBlock, tdesEncryptBlock]
  rw [decryptBlock_encryptBlock, encryptBlock_decryptBlock, decryptBlock_encryptBlock]

theorem tdesEncryptBlock_tdesDecryptBlock (B : Block) (TK : TripleKey) :
    tdesEncryptBlock (tdesDecryptBlock B TK) TK = B := by
  simp only [tdesDecryptBlock, tdesEncryptBlock]
  rw [encryptBlock_decryptBlock, decryptBlock_encryptBlock, encryptBlock_decryptBlock]

/-- With K1 = K2 the first two steps cancel (R171). -/
theorem tdesEncryptBlock_of_first_two_equal (B : Block) (K K3 : RawKey) :
    tdesEncryptBlock B (K ++ K ++ K3) = encryptBlock B (keySchedule K3) := by
  rw [tdesEncryptBlock_append, decryptBlock_encryptBlock]

/-- With K2 = K3 the first two steps of the decryption cancel (R172). -/
theorem tdesDecryptBlock_of_last_two_equal (B : Block) (K1 K : RawKey) :
    tdesDecryptBlock B (K1 ++ K ++ K) = decryptBlock B (keySchedule K1) := by
  rw [tdesDecryptBlock_append, encryptBlock_decryptBlock]

/-- Settles O35: each direction undoes the other's steps from the last to the first, and with K1 = K2 the first two
steps cancel. -/
theorem tripleCipherInverts : Obligations.TripleCipherInverts := by
  unfold Obligations.TripleCipherInverts
  exact ⟨tdesDecryptBlock_tdesEncryptBlock, tdesEncryptBlock_tdesDecryptBlock, tdesEncryptBlock_of_first_two_equal⟩

/-- Settles O36: under three equal keys the first two steps of either direction cancel. -/
theorem equalKeysReduceToSingleDes : Obligations.EqualKeysReduceToSingleDes := by
  unfold Obligations.EqualKeysReduceToSingleDes
  exact fun B K => ⟨tdesEncryptBlock_of_first_two_equal B K K, tdesDecryptBlock_of_last_two_equal B K K⟩

section TdesCommands
variable {s : State}

theorem exec_tdesEnc : exec .tdesEnc s = blockCommand (tripleKeyOf s) (fun TK B => tdesEncryptBlock B TK) s := rfl

theorem exec_tdesDec : exec .tdesDec s = blockCommand (tripleKeyOf s) (fun TK B => tdesDecryptBlock B TK) s := rfl

/-- Both are the block command of the TripleKey, up to the transformation. -/
theorem exists_exec_tdes {i : Instr} (hi : i = .tdesEnc ∨ i = .tdesDec) :
    ∃ cipher, exec i s = blockCommand (tripleKeyOf s) cipher s := by
  obtain rfl | rfl := hi
  · exact ⟨_, exec_tdesEnc⟩
  · exact ⟨_, exec_tdesDec⟩

end TdesCommands

/-- The KSEL variants of both commands' words are illegal (R75). -/
theorem decode_tdes_strayKeySelect : ∀ w ∈ [0x00000013#32, 0x00000023, 0x00000033, 0x00000014, 0x00000024, 0x00000034],
    decode w = .error .badKeySelect := by
  intro w hw
  simp only [List.mem_cons, List.not_mem_nil, or_false] at hw
  obtain rfl | rfl | rfl | rfl | rfl | rfl := hw <;>
    exact decode_badKeySelect_plain (by decide) (by decide) (by decide)

/-- Settles O19: the words are the commands' encodings; each error and fault is the first check or read of the block
command that fails, and otherwise its output is the transformed block. -/
theorem tdesCommandsTransformOneBlock : Obligations.TdesCommandsTransformOneBlock := by
  unfold Obligations.TdesCommandsTransformOneBlock
  refine ⟨⟨decode_encode_of_wf (i := .tdesEnc) rfl, decode_encode_of_wf (i := .tdesDec) rfl,
    decode_tdes_strayKeySelect⟩, fun s i hi => ?_⟩
  obtain ⟨cipher, hexec⟩ := exists_exec_tdes (s := s) hi
  refine ⟨fun hlen => ?_, fun hlen hcap => ?_, fun hlen hfit h8 => ?_,
    fun hlen hfit h8 => ⟨fun hread => ?_, fun K B hK hB hkey hblock => ⟨?_, ?_⟩⟩⟩
  · exact failsWith_of_raise (hexec.trans (blockCommand_keyLength hlen))
  · exact failsWith_of_raise (hexec.trans (blockCommand_capacity hlen hcap))
  · exact failsWith_of_raise (hexec.trans (blockCommand_blockLength hlen hfit h8))
  · have hoperand : tripleKeyOf s = none ∨ blockOf s = none :=
      hread.imp (fun ⟨_, ha, h⟩ => tripleKeyOf_none ha h) (fun ⟨_, ha, h⟩ => blockOf_none ha h)
    exact readsUnwritten_of_modelFault (hexec.trans (blockCommand_unwritten hlen hfit h8 hoperand))
  · rintro rfl
    exact completesWith_of_succeed (exec_tdesEnc.trans
      (blockCommand_written hlen hfit h8 (tripleKeyOf_some hK hkey) (blockOf_some hB hblock)))
  · rintro rfl
    exact completesWith_of_succeed (exec_tdesDec.trans
      (blockCommand_written hlen hfit h8 (tripleKeyOf_some hK hkey) (blockOf_some hB hblock)))

end Sys2Proof.Machine
end

section
/-! Padding and unpadding (45_padding.md rules R190 to R192, R195): both policies take off a tail of `n` bytes of value
`n`, and such a tail is all that strict unpadding takes off. -/

namespace Sys2Proof.Machine

/-- The last byte, as the `rem` of R191 and R192. -/
@[simp] theorem lastByteValue_concat (D : List Byte) (last : Byte) : lastByteValue (D ++ [last]) = last.toNat := by
  simp [lastByteValue]

section Faithful
variable {D : List Byte}

theorem unpadFaithful_of_lt (h : D.length < lastByteValue D) : unpadFaithful D = .error .malformedPadding := if_pos h

theorem unpadFaithful_of_le (h : lastByteValue D ≤ D.length) :
    unpadFaithful D = .ok (D.take (D.length - lastByteValue D)) := if_neg (Nat.not_lt.mpr h)

end Faithful

/-- Strict unpadding answers what is left of the bytes it takes off, if it accepts them (R192). -/
theorem unpadStrict_eq_ok_iff {D X : List Byte} :
    unpadStrict D = .ok X ↔
      1 ≤ lastByteValue D ∧ lastByteValue D ≤ 8 ∧ lastByteValue D ≤ D.length ∧
        (∀ b ∈ D.drop (D.length - lastByteValue D), b.toNat = lastByteValue D) ∧
        D.take (D.length - lastByteValue D) = X := by
  simp only [unpadStrict, List.all_eq_true, beq_iff_eq]
  split
  · simp only [reduceCtorEq, false_iff]
    omega
  · split
    · next hrange htail =>
      exact ⟨fun h => ⟨by omega, by omega, by omega, htail, Except.ok.inj h⟩,
        fun ⟨_, _, _, _, hX⟩ => congrArg Except.ok hX⟩
    · next htail => exact ⟨nofun, fun ⟨_, _, _, h, _⟩ => absurd h htail⟩

/-- What unpadding does not accept is MalformedPadding, its only error (R234). -/
theorem unpadBytes_eq_error {policy : UnpadPolicy} {D : List Byte} (h : ∀ X, unpadBytes policy D ≠ .ok X) :
    unpadBytes policy D = .error .malformedPadding := by
  cases hr : unpadBytes policy D with
  | ok X => exact absurd hr (h X)
  | error e => rw [unpadBytes_error hr]

section Tail
variable {X : List Byte} {n : Nat}

theorem lastByteValue_append_replicate (h1 : 1 ≤ n) (h8 : n ≤ 8) :
    lastByteValue (X ++ List.replicate n (BitVec.ofNat 8 n)) = n := by
  obtain ⟨m, rfl⟩ : ∃ m, n = m + 1 := ⟨n - 1, by omega⟩
  rw [List.replicate_succ', ← List.append_assoc, lastByteValue_concat, BitVec.toNat_ofNat, Nat.mod_eq_of_lt (by omega)]

/-- Faithful unpadding takes such a tail off. -/
theorem unpadFaithful_append_replicate (h1 : 1 ≤ n) (h8 : n ≤ 8) :
    unpadFaithful (X ++ List.replicate n (BitVec.ofNat 8 n)) = .ok X := by
  have hlast := lastByteValue_append_replicate (X := X) h1 h8
  rw [unpadFaithful_of_le (by rw [hlast]; simp), hlast]
  simp

/-- Strict unpadding takes such a tail off and nothing else. -/
theorem unpadStrict_eq_ok_iff_replicate {D : List Byte} :
    unpadStrict D = .ok X ↔ ∃ n, 1 ≤ n ∧ n ≤ 8 ∧ D = X ++ List.replicate n (BitVec.ofNat 8 n) := by
  rw [unpadStrict_eq_ok_iff]
  constructor
  · rintro ⟨h1, h8, hlen, hall, rfl⟩
    refine ⟨lastByteValue D, h1, h8, ?_⟩
    have htail : D.drop (D.length - lastByteValue D) =
        List.replicate (lastByteValue D) (BitVec.ofNat 8 (lastByteValue D)) :=
      List.eq_replicate_iff.mpr ⟨by rw [List.length_drop]; omega, fun b hb => by rw [← hall b hb, BitVec.ofNat_toNat,
        BitVec.setWidth_eq]⟩
    rw [← htail, List.take_append_drop]
  · rintro ⟨n, h1, h8, rfl⟩
    rw [lastByteValue_append_replicate h1 h8]
    refine ⟨h1, h8, by simp, fun b hb => ?_, by simp⟩
    simp only [List.length_append, List.length_replicate, Nat.add_sub_cancel, List.drop_left,
      List.mem_replicate] at hb
    rw [hb.2, BitVec.toNat_ofNat, Nat.mod_eq_of_lt (by omega)]

end Tail

/-- The padding count is 1 to 8 (R190). -/
theorem padCount_range (n : Nat) : 1 ≤ padCount n ∧ padCount n ≤ 8 := by
  rw [padCount]
  omega

/-- The padding count is the only one from 1 to 8 that fills up to a multiple of 8 (R190). -/
theorem eq_padCount {n k : Nat} (h1 : 1 ≤ k) (h8 : k ≤ 8) (hmod : (n + k) % 8 = 0) : k = padCount n := by
  rw [padCount]
  omega

/-- Strict unpadding of whole blocks accepts the padded sequences alone (R192). -/
theorem unpadStrict_eq_ok_iff_padBytes {D X : List Byte} (hD : D.length % 8 = 0) :
    unpadStrict D = .ok X ↔ D = padBytes X := by
  rw [unpadStrict_eq_ok_iff_replicate]
  constructor
  · rintro ⟨n, h1, h8, rfl⟩
    rw [List.length_append, List.length_replicate] at hD
    rw [padBytes, ← eq_padCount h1 h8 hD]
  · rintro rfl
    obtain ⟨h1, h8⟩ := padCount_range X.length
    exact ⟨_, h1, h8, rfl⟩

theorem length_padBytes_mod (D : List Byte) : (padBytes D).length % 8 = 0 := by
  rw [length_padBytes, Nat.mul_mod_right]

theorem unpadFaithful_padBytes (D : List Byte) : unpadFaithful (padBytes D) = .ok D :=
  unpadFaithful_append_replicate (padCount_range D.length).1 (padCount_range D.length).2

theorem unpadStrict_padBytes (D : List Byte) : unpadStrict (padBytes D) = .ok D :=
  (unpadStrict_eq_ok_iff_padBytes (length_padBytes_mod D)).mpr rfl

/-- Settles O37: the lengths are arithmetic on the padded length, and the padding is a tail both policies take off. -/
theorem paddingLaws : Obligations.PaddingLaws := by
  unfold Obligations.PaddingLaws
  intro D
  have hlen := length_padBytes D
  exact ⟨length_padBytes_mod D, by omega, by omega, unpadFaithful_padBytes D, unpadStrict_padBytes D⟩

/-- Settles O38: the last byte alone decides between the error and how much is taken off. -/
theorem faithfulUnpadTrustsTheLastByte : Obligations.FaithfulUnpadTrustsTheLastByte := by
  unfold Obligations.FaithfulUnpadTrustsTheLastByte
  refine fun D last => ⟨?_, fun h1 hle => ?_, fun hlt => unpadFaithful_of_lt (by simpa using hlt)⟩
  · rintro rfl
    have hzero : lastByteValue (D ++ [0]) = 0 := lastByteValue_concat D 0
    rw [unpadFaithful_of_le (by omega), hzero, Nat.sub_zero, List.take_length]
  · rw [unpadFaithful_of_le (by simpa using hle), lastByteValue_concat, List.length_append, List.length_singleton,
      List.take_append_of_le_length (by omega)]

/-- Settles O39: on whole blocks the tail taken off is the padding; the one byte 0x01 is such a tail and no padded
sequence (log entry 13). -/
theorem strictUnpadAcceptsPaddedBlocks : Obligations.StrictUnpadAcceptsPaddedBlocks := by
  unfold Obligations.StrictUnpadAcceptsPaddedBlocks
  exact ⟨fun D X => unpadStrict_eq_ok_iff_padBytes, fun D e => unpadBytes_error (policy := .strict),
    [0x01], [], by decide, by decide⟩

end Sys2Proof.Machine
end

section
/-! The commands `pad` and `unpad` (45_padding.md rules R193 and R194): their checks and their one operand in their
order, and what they do with the input. -/

namespace Sys2Proof.Machine

/-- Words with no reserved bit, with the OP of a command that takes no key select and with a KSEL are illegal (R75). -/
theorem decode_strayKeySelect {ws : List Word} (h : ∀ w ∈ ws,
    w.toNat < 64 ∧ w.toNat % 16 ∈ [0, 1, 2, 3, 4, 7, 8] ∧ w.toNat / 16 ≠ 0) :
    ∀ w ∈ ws, decode w = .error .badKeySelect := fun w hw => by
  obtain ⟨hrsv, hop, hk⟩ := h w hw
  exact decode_badKeySelect_plain hrsv hop hk

section Pad
variable {s : State}

theorem exec_pad_capacity (hcap : s.cfg.inCap < s.inLen.toNat) : exec .pad s = raise .capacityExceeded s :=
  requireInputFits_fail hcap

/-- After its check the command reads the input and outputs it padded. -/
theorem exec_pad_checked (hfit : s.inLen.toNat ≤ s.cfg.inCap) :
    exec .pad s = withOperand (inputOf s) s fun D => succeed (padBytes D) s := requireInputFits_pass hfit

theorem exec_pad_unwritten (hfit : s.inLen.toNat ≤ s.cfg.inCap) (hin : inputOf s = none) :
    exec .pad s = modelFault .unwrittenRead s := by
  rw [exec_pad_checked hfit, hin, withOperand_none]

theorem exec_pad_written (hfit : s.inLen.toNat ≤ s.cfg.inCap) {D : List Byte} (hin : inputOf s = some D) :
    exec .pad s = succeed (padBytes D) s := by
  rw [exec_pad_checked hfit, hin, withOperand_some]

/-- The padded input fits OUT (R193). -/
theorem length_padBytes_le_outCap (hc : s.cfg.wf) (hfit : s.inLen.toNat ≤ s.cfg.inCap) {D : List Byte}
    (hD : D.length = s.inLen.toNat) : (padBytes D).length ≤ s.cfg.outCap := by
  obtain ⟨-, -, hcap, -⟩ := hc
  have hadd : s.cfg.inCap + 8 ≤ s.cfg.outCap := (le_max_left _ _).trans hcap
  rw [length_padBytes]
  omega

end Pad

/-- Settles O20: the capacity check, then the operand read, then the padded input, whose length OUT_LEN holds. -/
theorem padCommandPadsTheInput : Obligations.PadCommandPadsTheInput := by
  unfold Obligations.PadCommandPadsTheInput
  refine ⟨⟨decode_encode_of_wf (i := .pad) rfl, decode_strayKeySelect (by simp)⟩, fun s =>
    ⟨fun hcap => failsWith_of_raise (exec_pad_capacity hcap), fun hfit => ⟨fun a ha hread => ?_, fun D hD hin => ?_⟩⟩⟩
  · exact readsUnwritten_of_modelFault (exec_pad_unwritten hfit (inputOf_none ha hread))
  · have hexec := exec_pad_written hfit (inputOf_some hD hin)
    refine ⟨completesWith_of_succeed hexec, fun hc t ht => ?_⟩
    have hout := length_padBytes_le_outCap hc hfit hD
    obtain rfl := succeed_next.mp (hexec.symm.trans ht)
    rw [afterSuccess_outLen, toNat_ofNat_of_le_outCap hc hout]
    exact ⟨length_padBytes D, hout⟩

section Unpad
variable {s : State}

theorem exec_unpad_capacity (hcap : s.cfg.inCap < s.inLen.toNat) : exec .unpad s = raise .capacityExceeded s :=
  requireInputFits_fail hcap

theorem exec_unpad_empty (hfit : s.inLen.toNat ≤ s.cfg.inCap) (h0 : s.inLen.toNat = 0) :
    exec .unpad s = raise .malformedPadding s := by
  rw [exec, execUnpad, requireInputFits_pass hfit, requireLastByte_fail h0]

section Checked
variable (hfit : s.inLen.toNat ≤ s.cfg.inCap) (h0 : s.inLen.toNat ≠ 0)
include hfit h0

/-- After its checks the command reads the input and unpads it under the policy. -/
theorem exec_unpad_checked :
    exec .unpad s = withOperand (inputOf s) s fun D => complete (unpadBytes s.cfg.unpadPolicy D) s := by
  rw [exec, execUnpad, requireInputFits_pass hfit, requireLastByte_pass h0]

theorem exec_unpad_unwritten (hin : inputOf s = none) : exec .unpad s = modelFault .unwrittenRead s := by
  rw [exec_unpad_checked hfit h0, hin, withOperand_none]

theorem exec_unpad_written {D : List Byte} (hin : inputOf s = some D) :
    exec .unpad s = complete (unpadBytes s.cfg.unpadPolicy D) s := by
  rw [exec_unpad_checked hfit h0, hin, withOperand_some]

end Checked
end Unpad

section Complete
variable {i : Instr} {s : State} {result : Except EngineError (List Byte)}

theorem completesWith_of_complete {S : List Byte} (h : exec i s = complete result s) (hr : result = .ok S) :
    completesWith i s S := completesWith_of_succeed (by rw [h, hr, complete])

theorem failsWith_of_complete {e : EngineError} (h : exec i s = complete result s) (hr : result = .error e) :
    failsWith i s e.code := failsWith_of_raise (by rw [h, hr, complete])

end Complete

section Policies
variable {D : List Byte} {last : Byte}

theorem unpadFaithful_concat_of_lt (h : D.length + 1 < last.toNat) :
    unpadBytes .faithful (D ++ [last]) = .error .malformedPadding := unpadFaithful_of_lt (by simpa using h)

theorem unpadFaithful_concat_of_le (h : last.toNat ≤ D.length + 1) :
    unpadBytes .faithful (D ++ [last]) = .ok ((D ++ [last]).take (D.length + 1 - last.toNat)) := by
  rw [unpadBytes, unpadFaithful_of_le (by simpa using h), lastByteValue_concat, List.length_append,
    List.length_singleton]

/-- What strict unpadding of a non-empty sequence answers, and which last bytes and tails it accepts (R192). -/
theorem unpadStrict_concat_eq_ok_iff {X : List Byte} :
    unpadBytes .strict (D ++ [last]) = .ok X ↔
      (1 ≤ last.toNat ∧ last.toNat ≤ 8 ∧ last.toNat ≤ D.length + 1 ∧
        ∀ b ∈ (D ++ [last]).drop (D.length + 1 - last.toNat), b = last) ∧
      (D ++ [last]).take (D.length + 1 - last.toNat) = X := by
  rw [unpadBytes, unpadStrict_eq_ok_iff, lastByteValue_concat, List.length_append, List.length_singleton]
  simp only [BitVec.toNat_inj, and_assoc]

theorem unpadStrict_concat_of_malformed (h : last.toNat < 1 ∨ 8 < last.toNat ∨ D.length + 1 < last.toNat ∨
    ∃ b ∈ (D ++ [last]).drop (D.length + 1 - last.toNat), b ≠ last) :
    unpadBytes .strict (D ++ [last]) = .error .malformedPadding := by
  refine unpadBytes_eq_error fun X hX => ?_
  obtain ⟨⟨h1, h8, hlen, htail⟩, -⟩ := unpadStrict_concat_eq_ok_iff.mp hX
  obtain h | h | h | ⟨b, hb, hne⟩ := h
  · omega
  · omega
  · omega
  · exact hne (htail b hb)

end Policies

/-- Settles O21: the checks, then the operand read, then what the policy's unpadding answers for the last byte. -/
theorem unpadCommandRemovesThePadding : Obligations.UnpadCommandRemovesThePadding := by
  unfold Obligations.UnpadCommandRemovesThePadding
  refine ⟨⟨decode_encode_of_wf (i := .unpad) rfl, decode_strayKeySelect (by simp)⟩, fun s =>
    ⟨fun hcap => failsWith_of_raise (exec_unpad_capacity hcap), fun hfit =>
      ⟨fun h0 => failsWith_of_raise (exec_unpad_empty hfit h0), fun a ha hread => ?_, fun D last hlen hin => ?_⟩⟩⟩
  · exact readsUnwritten_of_modelFault (exec_unpad_unwritten hfit (by omega) (inputOf_none ha hread))
  · have h0 : s.inLen.toNat ≠ 0 := by rw [← hlen, List.length_append, List.length_singleton]; omega
    have hexec := exec_unpad_written hfit h0 (inputOf_some hlen hin)
    refine ⟨fun hpolicy => ?_, fun hpolicy => ?_⟩ <;> rw [hpolicy] at hexec
    · exact ⟨fun h => failsWith_of_complete hexec (unpadFaithful_concat_of_lt h),
        fun h => completesWith_of_complete hexec (unpadFaithful_concat_of_le h)⟩
    · exact ⟨fun h => failsWith_of_complete hexec (unpadStrict_concat_of_malformed h),
        fun h => completesWith_of_complete hexec (unpadStrict_concat_eq_ok_iff.mpr ⟨h, rfl⟩)⟩

end Sys2Proof.Machine
end

section
/-! The blocks of a message (46_message.md rules R212, R213): a block transform goes block by block, and one block
transform undoes another on whole blocks. -/

namespace Sys2Proof.Machine

section Blocks
variable (transform : Block → Block) (S : List Byte)

/-- Block j of a mapped message is the transform of block j (R212). -/
theorem messageBlock_mapBlocks {j : Nat} (hj : j < S.length / 8) :
    messageBlock (mapBlocks transform S) j = transform (messageBlock S j) := by
  rw [messageBlock, drop_take_mapBlocks transform S hj]
  exact ofBytes_toBytes 8 _

/-- A byte changed in one block leaves every other block. -/
theorem messageBlock_set {i j : Nat} (b : Byte) (hj : j ≠ i / 8) : messageBlock (S.set i b) j = messageBlock S j := by
  rw [messageBlock, messageBlock]
  obtain hi | hi : i < 8 * j ∨ 8 * j + 8 ≤ i := by omega
  · rw [List.drop_set_of_lt hi]
  · rw [List.drop_set, if_neg (by omega), List.take_set_of_le (by omega)]

/-- The bytes of a whole block of a message (R56). -/
theorem toBytes_messageBlock {j : Nat} (hj : j < S.length / 8) :
    toBytes 8 (messageBlock S j) = (S.drop (8 * j)).take 8 := by
  have hlen : ((S.drop (8 * j)).take 8).length = 8 := by rw [List.length_take, List.length_drop]; omega
  have h := toBytes_ofBytes ((S.drop (8 * j)).take 8)
  rwa [hlen] at h

/-- The first n pieces of eight bytes, side by side. -/
theorem flatMap_drop_take (n : Nat) : ((List.range n).flatMap fun j => (S.drop (8 * j)).take 8) = S.take (8 * n) := by
  induction n with
  | zero => rfl
  | succ n ih =>
    rw [List.range_succ, List.flatMap_append, ih, List.flatMap_singleton, Nat.mul_succ, List.take_add]

variable {S}

/-- Whole blocks are their blocks side by side. -/
theorem mapBlocks_id (hS : S.length % 8 = 0) : mapBlocks id S = S := by
  calc mapBlocks id S
      = (List.range (S.length / 8)).flatMap fun j => (S.drop (8 * j)).take 8 :=
        List.flatMap_congr fun j hj => toBytes_messageBlock S (List.mem_range.mp hj)
    _ = S.take (8 * (S.length / 8)) := flatMap_drop_take S _
    _ = S := List.take_of_length_le (by omega)

/-- Two transforms one after the other go through the blocks as one. -/
theorem mapBlocks_mapBlocks (transform' : Block → Block) :
    mapBlocks transform' (mapBlocks transform S) = mapBlocks (transform' ∘ transform) S := by
  rw [mapBlocks, length_mapBlocks, Nat.mul_div_cancel_left _ (by decide)]
  exact List.flatMap_congr fun j hj => by
    rw [messageBlock_mapBlocks transform S (List.mem_range.mp hj), Function.comp_apply]

end Blocks

section Message
variable (P : List Byte) (TK : TripleKey)

theorem length_padBytes_div : (padBytes P).length / 8 = P.length / 8 + 1 := by
  rw [length_padBytes, Nat.mul_div_cancel_left _ (by decide)]

/-- The decrypted blocks of a ciphertext are the padded plaintext (R213). -/
theorem decryptBlocks_encryptMessage : decryptBlocks (encryptMessage P TK) TK = padBytes P := by
  have hinv : (tdesDecryptBlock · TK) ∘ (tdesEncryptBlock · TK) = id :=
    funext fun B => tdesDecryptBlock_tdesEncryptBlock B TK
  rw [decryptBlocks, encryptMessage, mapBlocks_mapBlocks, hinv, mapBlocks_id (length_padBytes_mod P)]

/-- Unpadding undoes padding under either policy (R195). -/
theorem unpadBytes_padBytes (policy : UnpadPolicy) : unpadBytes policy (padBytes P) = .ok P := by
  cases policy with
  | faithful => exact unpadFaithful_padBytes P
  | strict => exact unpadStrict_padBytes P

theorem decryptMessage_encryptMessage (policy : UnpadPolicy) :
    decryptMessage policy (encryptMessage P TK) TK = .ok P := by
  rw [decryptMessage, decryptBlocks_encryptMessage, unpadBytes_padBytes]

end Message

/-- Settles O40: both directions map the blocks, and a changed byte lies in one block. -/
theorem blocksAreIndependent : Obligations.BlocksAreIndependent := by
  unfold Obligations.BlocksAreIndependent
  refine ⟨fun P TK j hj => messageBlock_mapBlocks _ _ (by rwa [length_padBytes_div]),
    fun C TK j => messageBlock_mapBlocks _ C, fun C TK i j b hj hji => ?_⟩
  rw [decryptBlocks, messageBlock_mapBlocks _ _ (by rwa [List.length_set]), messageBlock_set C b hji, decryptBlocks,
    messageBlock_mapBlocks _ C hj]

end Sys2Proof.Machine
end

section
/-! The commands `encrypt`, `decrypt` and `nop` (46_message.md rules R210, R211, R213, R214). The first two are one
message command, apart from a check of `decrypt` and from what they make of the operands. -/

namespace Sys2Proof.Machine

/-- Whichever of two operands has an unwritten byte, the fault is the same one (R239 step 5). -/
theorem withOperand_withOperand_none {α β : Type} {s : State} {x : Option α} {y : Option β}
    {next : α → β → StepResult} (h : x = none ∨ y = none) :
    (withOperand x s fun a => withOperand y s (next a)) = modelFault .unwrittenRead s := by
  obtain rfl | rfl := h
  · rfl
  · cases x <;> rfl

/-- What a message command does: the checks of KEY_LEN and of IN_LEN against IN_CAP, the command's own check, the reads
of the TripleKey and of the input, and the completion with the result (R210, R211). -/
def messageCommand (check : StepResult → StepResult)
    (result : TripleKey → List Byte → Except EngineError (List Byte)) (s : State) : StepResult :=
  requireKeyLength s <|
  requireInputFits s <|
  check <|
  withOperand (tripleKeyOf s) s fun TK =>
  withOperand (inputOf s) s fun D =>
  complete (result TK D) s

section MessageCommand
variable {s : State}

theorem exec_encrypt : exec .encrypt s = messageCommand id (fun TK P => .ok (encryptMessage P TK)) s := rfl

theorem exec_decrypt :
    exec .decrypt s = messageCommand (requireWholeBlocks s) (fun TK C => decryptMessage s.cfg.unpadPolicy C TK) s := rfl

variable {check : StepResult → StepResult} {result : TripleKey → List Byte → Except EngineError (List Byte)}

theorem messageCommand_keyLength (hlen : s.keyLen ≠ 24) :
    messageCommand check result s = raise .invalidKeyLength s := requireKeyLength_fail hlen

theorem messageCommand_capacity (hlen : s.keyLen = 24) (hcap : s.cfg.inCap < s.inLen.toNat) :
    messageCommand check result s = raise .capacityExceeded s := by
  rw [messageCommand, requireKeyLength_pass hlen, requireInputFits_fail hcap]

section Fits
variable (hlen : s.keyLen = 24) (hfit : s.inLen.toNat ≤ s.cfg.inCap)
include hlen hfit

/-- A message command whose own check raises an error raises that error. -/
theorem messageCommand_check_raises {e : EngineError} (hcheck : ∀ next, check next = raise e s) :
    messageCommand check result s = raise e s := by
  rw [messageCommand, requireKeyLength_pass hlen, requireInputFits_pass hfit, hcheck]

variable (hcheck : ∀ next, check next = next)
include hcheck

theorem messageCommand_checked :
    messageCommand check result s = withOperand (tripleKeyOf s) s fun TK => withOperand (inputOf s) s fun D =>
      complete (result TK D) s := by
  rw [messageCommand, requireKeyLength_pass hlen, requireInputFits_pass hfit, hcheck]

theorem messageCommand_unwritten (hread : (∃ a, a < 24 ∧ Memory.read s.key a = none) ∨
    (∃ a, a < s.inLen.toNat ∧ Memory.read s.inBuf a = none)) :
    messageCommand check result s = modelFault .unwrittenRead s := by
  rw [messageCommand_checked hlen hfit hcheck]
  exact withOperand_withOperand_none
    (hread.imp (fun ⟨_, ha, h⟩ => tripleKeyOf_none ha h) (fun ⟨_, ha, h⟩ => inputOf_none ha h))

theorem messageCommand_written {K D : List Byte} (hK : K.length = 24) (hD : D.length = s.inLen.toNat)
    (hkey : bufferHolds s.key 0 K) (hin : bufferHolds s.inBuf 0 D) :
    messageCommand check result s = complete (result (ofBytes 192 K) D) s := by
  rw [messageCommand_checked hlen hfit hcheck, tripleKeyOf_some hK hkey, withOperand_some, inputOf_some hD hin,
    withOperand_some]

end Fits
end MessageCommand

section Completion
variable {s : State} {K D : List Byte} (hlen : s.keyLen = 24) (hfit : s.inLen.toNat ≤ s.cfg.inCap)
  (hK : K.length = 24) (hD : D.length = s.inLen.toNat) (hkey : bufferHolds s.key 0 K) (hin : bufferHolds s.inBuf 0 D)
include hlen hfit hK hD hkey hin

/-- With its operands there, `encrypt` completes with the ciphertext (R210). -/
theorem completesWith_encrypt : completesWith .encrypt s (encryptMessage D (ofBytes 192 K)) :=
  completesWith_of_complete
    (exec_encrypt.trans (messageCommand_written hlen hfit (fun _ => rfl) hK hD hkey hin)) rfl

/-- With its operands there and whole blocks of input, `decrypt` completes as the decryption answers (R211). -/
theorem exec_decrypt_written (h0 : s.inLen.toNat ≠ 0) (h8 : s.inLen.toNat % 8 = 0) :
    exec .decrypt s = complete (decryptMessage s.cfg.unpadPolicy D (ofBytes 192 K)) s :=
  exec_decrypt.trans
    (messageCommand_written hlen hfit (fun _ => requireWholeBlocks_pass h0 h8) hK hD hkey hin)

end Completion

/-- The output of `encrypt` fits OUT (R210). -/
theorem length_encryptMessage_le_outCap {s : State} (hc : s.cfg.wf) (hfit : s.inLen.toNat ≤ s.cfg.inCap)
    {P : List Byte} (hP : P.length = s.inLen.toNat) (TK : TripleKey) :
    (encryptMessage P TK).length ≤ s.cfg.outCap := by
  rw [length_encryptMessage, ← length_padBytes]
  exact length_padBytes_le_outCap hc hfit hP

/-- Settles O22: the checks, then the operand reads, then the ciphertext, which maps the blocks of the padded input. -/
theorem encryptCommandEncryptsThePaddedBlocks : Obligations.EncryptCommandEncryptsThePaddedBlocks := by
  unfold Obligations.EncryptCommandEncryptsThePaddedBlocks
  refine ⟨⟨decode_encode_of_wf (i := .encrypt) rfl, decode_strayKeySelect (by simp)⟩, fun s =>
    ⟨fun hlen => failsWith_of_raise (exec_encrypt.trans (messageCommand_keyLength hlen)),
      fun hlen hcap => failsWith_of_raise (exec_encrypt.trans (messageCommand_capacity hlen hcap)),
      fun hlen hfit => ⟨fun hread => ?_, fun K P hK hP hkey hin => ?_⟩⟩⟩
  · exact readsUnwritten_of_modelFault
      (exec_encrypt.trans (messageCommand_unwritten hlen hfit (fun _ => rfl) hread))
  · exact ⟨_, completesWith_encrypt hlen hfit hK hP hkey hin, length_encryptMessage P _,
      fun j hj => drop_take_mapBlocks _ _ (by rwa [length_padBytes_div]),
      fun hc => length_encryptMessage_le_outCap hc hfit hP _⟩

/-- Settles O23: the checks, then the operand reads, then what the policy's unpadding answers for the decrypted
blocks. -/
theorem decryptCommandDecryptsAndUnpads : Obligations.DecryptCommandDecryptsAndUnpads := by
  unfold Obligations.DecryptCommandDecryptsAndUnpads
  refine ⟨⟨decode_encode_of_wf (i := .decrypt) rfl, decode_strayKeySelect (by simp)⟩, fun s =>
    ⟨fun hlen => failsWith_of_raise (exec_decrypt.trans (messageCommand_keyLength hlen)),
      fun hlen hcap => failsWith_of_raise (exec_decrypt.trans (messageCommand_capacity hlen hcap)),
      fun hlen hfit hblocks => failsWith_of_raise
        (exec_decrypt.trans (messageCommand_check_raises hlen hfit fun _ => requireWholeBlocks_fail hblocks)),
      fun hlen hfit h0 h8 => ⟨fun hread => ?_, fun K C hK hC hkey hin => ?_⟩⟩⟩
  · exact readsUnwritten_of_modelFault
      (exec_decrypt.trans (messageCommand_unwritten hlen hfit (fun _ => requireWholeBlocks_pass h0 h8) hread))
  · have hexec := exec_decrypt_written hlen hfit hK hC hkey hin h0 h8
    refine ⟨decryptBlocks C (ofBytes 192 K), ?_, fun j => drop_take_mapBlocks _ C, fun P hP => ?_, fun e he => ?_⟩
    · rw [decryptBlocks, length_mapBlocks]
      omega
    · exact ⟨completesWith_of_complete hexec hP, length_decryptMessage_le hP⟩
    · obtain rfl := unpadBytes_error he
      exact failsWith_of_complete hexec he

/-- Settles O41: the decrypted blocks of a ciphertext are the padded plaintext, which either policy unpads. -/
theorem encryptThenDecryptReturnsThePlaintext : Obligations.EncryptThenDecryptReturnsThePlaintext := by
  unfold Obligations.EncryptThenDecryptReturnsThePlaintext
  refine ⟨fun P TK policy => ⟨length_encryptMessage P TK, decryptMessage_encryptMessage P TK policy⟩,
    fun s K P _ hlen hK hkey hP hfit hin => ?_⟩
  have hC := length_encryptMessage P (ofBytes 192 K)
  refine ⟨_, completesWith_encrypt hlen (hP ▸ hfit) hK hP hkey hin, hC,
    fun s' hlen' hkey' hC' hfit' hin' => ?_⟩
  exact completesWith_of_complete
    (exec_decrypt_written hlen' (hC' ▸ hfit') hK hC'.symm hkey' hin' (by omega) (by omega))
    (decryptMessage_encryptMessage P _ _)

theorem exec_nop (s : State) : exec .nop s = succeed [] s := rfl

/-- Settles O16: `nop` is a success with the empty output, which writes no byte of OUT. -/
theorem nopCompletesWithNoOutput : Obligations.NopCompletesWithNoOutput := by
  unfold Obligations.NopCompletesWithNoOutput
  exact ⟨decode_encode_of_wf (i := .nop) rfl, decode_strayKeySelect (by simp), exec_nop,
    fun s => ⟨_, exec_nop _, rfl, rfl, Memory.read_nil⟩⟩

end Sys2Proof.Machine
end

section
/-! The order of error detection (60_exceptions.md rule R239): every command is the same chain of checks, then two
operand reads, then a completion. -/

namespace Sys2Proof.Machine

/-- R239 step 1: a term that no word decodes to raises IllegalCommand. -/
def checkWellFormed (i : Instr) (s : State) (next : StepResult) : StepResult :=
  if i.wf then next else raise .illegalCommand s

/-- R239 step 2, for a command that uses the key. -/
def checkKeyLength (i : Instr) (s : State) (next : StepResult) : StepResult :=
  if usesKey i then requireKeyLength s next else next

/-- R239 step 3, for a command that reads IN. -/
def checkCapacity (i : Instr) (s : State) (next : StepResult) : StepResult :=
  if readsInput i then requireInputFits s next else next

/-- R239 step 4: the input-length check of `decrypt`, of `unpad` and of the block commands. -/
def checkInputLength (i : Instr) (s : State) (next : StepResult) : StepResult :=
  match i with
  | .decrypt => requireWholeBlocks s next
  | .unpad => requireLastByte s next
  | i => if takesOneBlock i then requireOneBlock s next else next

section Checks
variable {i : Instr} {s : State} {next : StepResult}

theorem checkWellFormed_fail (h : i.wf = false) : checkWellFormed i s next = raise .illegalCommand s := by
  simp [checkWellFormed, h]

theorem checkWellFormed_pass (h : i.wf = true) : checkWellFormed i s next = next := if_pos h

theorem checkKeyLength_fail (hi : usesKey i = true) (h : s.keyLen ≠ 24) :
    checkKeyLength i s next = raise .invalidKeyLength s := (if_pos hi).trans (requireKeyLength_fail h)

theorem checkKeyLength_pass (h : usesKey i = true → s.keyLen = 24) : checkKeyLength i s next = next := by
  unfold checkKeyLength
  split
  · next hi => exact requireKeyLength_pass (h hi)
  · rfl

theorem checkCapacity_fail (hi : readsInput i = true) (h : s.cfg.inCap < s.inLen.toNat) :
    checkCapacity i s next = raise .capacityExceeded s := (if_pos hi).trans (requireInputFits_fail h)

theorem checkCapacity_pass (h : readsInput i = true → s.inLen.toNat ≤ s.cfg.inCap) :
    checkCapacity i s next = next := by
  unfold checkCapacity
  split
  · next hi => exact requireInputFits_pass (h hi)
  · rfl

/-- The block commands have one length check, that of their block. -/
theorem checkInputLength_oneBlock (hi : takesOneBlock i = true) :
    checkInputLength i s next = requireOneBlock s next := by
  unfold checkInputLength
  split
  · cases hi
  · cases hi
  · exact if_pos hi

theorem checkInputLength_pass (hdecrypt : i = .decrypt → s.inLen.toNat ≠ 0 ∧ s.inLen.toNat % 8 = 0)
    (hblock : takesOneBlock i = true → s.inLen = 8) (hunpad : i = .unpad → s.inLen.toNat ≠ 0) :
    checkInputLength i s next = next := by
  unfold checkInputLength
  split
  · obtain ⟨h0, h8⟩ := hdecrypt rfl
    exact requireWholeBlocks_pass h0 h8
  · exact requireLastByte_pass (hunpad rfl)
  · split
    · next hi => exact requireOneBlock_pass (hblock hi)
    · rfl

end Checks

/-- The operand cannot be read exactly if one of the bytes it consists of is unwritten (R32). -/
def ConsistsOf {α : Type} (operand : Option α) (m : Memory) (reads : Nat → Prop) : Prop :=
  operand = none ↔ ∃ a, reads a ∧ Memory.read m a = none

section Operands
variable {i : Instr} {s : State}

theorem tripleKeyOf_consistsOf : ConsistsOf (tripleKeyOf s) s.key (· < 24) := by
  simp [ConsistsOf, tripleKeyOf, Memory.readRange_eq_none]

theorem rawKeyOf_consistsOf (ksel : BitVec 2) :
    ConsistsOf (rawKeyOf s ksel) s.key fun a => 8 * ksel.toNat ≤ a ∧ a < 8 * ksel.toNat + 8 := by
  rw [ConsistsOf, rawKeyOf, Option.map_eq_none_iff, Memory.readRange_eq_none]
  constructor
  · rintro ⟨j, hj, h⟩
    exact ⟨8 * ksel.toNat + j, ⟨by omega, by omega⟩, h⟩
  · rintro ⟨a, ⟨hlo, hhi⟩, h⟩
    obtain ⟨j, rfl⟩ := Nat.exists_eq_add_of_le hlo
    exact ⟨j, by omega, h⟩

theorem inputOf_consistsOf (hi : readsInput i = true) : ConsistsOf (inputOf s) s.inBuf (readsInByte i s) := by
  simp [ConsistsOf, inputOf, Memory.readRange_eq_none, readsInByte, hi]

theorem readsInput_of_takesOneBlock (hi : takesOneBlock i = true) : readsInput i = true := by
  cases i <;> simp_all [takesOneBlock, readsInput]

/-- The block is all of the input once IN_LEN is 8. -/
theorem blockOf_consistsOf (hi : takesOneBlock i = true) (h8 : s.inLen = 8) :
    ConsistsOf (blockOf s) s.inBuf (readsInByte i s) := by
  simp [ConsistsOf, blockOf, Memory.readRange_eq_none, readsInByte, readsInput_of_takesOneBlock hi, h8]

/-- A command without an operand reads no byte for it. -/
theorem noOperand_consistsOf {m : Memory} {reads : Nat → Prop} (h : ∀ a, ¬reads a) :
    ConsistsOf (some ()) m reads := by
  simp [ConsistsOf, h]

end Operands

/-- The command in the state `s` is R239's chain of checks, then the reads of its operands from KEY and from IN
(`some ()` where it has none), then the completion with the result. -/
structure ChecksThenCompletes (i : Instr) (s : State) {α β : Type} (key : Option α) (input : Option β)
    (result : α → β → Except EngineError (List Byte)) : Prop where
  exec_eq : exec i s = (checkWellFormed i s <| checkKeyLength i s <| checkCapacity i s <| checkInputLength i s <|
    withOperand key s fun K => withOperand input s fun D => complete (result K D) s)
  key_consistsOf : ConsistsOf key s.key (readsKeyByte i)
  input_consistsOf : (takesOneBlock i = true → s.inLen = 8) → ConsistsOf input s.inBuf (readsInByte i s)
  error : ∀ K D e, result K D = .error e → (i = .decrypt ∨ i = .unpad) ∧ e = .malformedPadding

theorem exec_checksThenCompletes (i : Instr) (s : State) :
    ∃ (α β : Type) (key : Option α) (input : Option β) (result : α → β → Except EngineError (List Byte)),
      ChecksThenCompletes i s key input result := by
  cases i with
  | nop =>
    exact ⟨_, _, some (), some (), fun _ _ => .ok [], rfl, noOperand_consistsOf fun _ => id,
      fun _ => noOperand_consistsOf (by simp [readsInByte, readsInput]), nofun⟩
  | encrypt =>
    exact ⟨_, _, tripleKeyOf s, inputOf s, fun TK P => .ok (encryptMessage P TK), rfl, tripleKeyOf_consistsOf,
      fun _ => inputOf_consistsOf rfl, nofun⟩
  | decrypt =>
    exact ⟨_, _, tripleKeyOf s, inputOf s, fun TK C => decryptMessage s.cfg.unpadPolicy C TK, rfl,
      tripleKeyOf_consistsOf, fun _ => inputOf_consistsOf rfl, fun _ _ _ he => ⟨.inl rfl, unpadBytes_error he⟩⟩
  | tdesEnc =>
    exact ⟨_, _, tripleKeyOf s, blockOf s, fun TK B => .ok (toBytes 8 (tdesEncryptBlock B TK)), rfl,
      tripleKeyOf_consistsOf, fun h8 => blockOf_consistsOf rfl (h8 rfl), nofun⟩
  | tdesDec =>
    exact ⟨_, _, tripleKeyOf s, blockOf s, fun TK B => .ok (toBytes 8 (tdesDecryptBlock B TK)), rfl,
      tripleKeyOf_consistsOf, fun h8 => blockOf_consistsOf rfl (h8 rfl), nofun⟩
  | desEnc ksel =>
    exact ⟨_, _, rawKeyOf s ksel, blockOf s, fun K B => .ok (toBytes 8 (encryptBlock B (keySchedule K))), rfl,
      rawKeyOf_consistsOf ksel, fun h8 => blockOf_consistsOf rfl (h8 rfl), nofun⟩
  | desDec ksel =>
    exact ⟨_, _, rawKeyOf s ksel, blockOf s, fun K B => .ok (toBytes 8 (decryptBlock B (keySchedule K))), rfl,
      rawKeyOf_consistsOf ksel, fun h8 => blockOf_consistsOf rfl (h8 rfl), nofun⟩
  | pad =>
    exact ⟨_, _, some (), inputOf s, fun _ D => .ok (padBytes D), rfl, noOperand_consistsOf fun _ => id,
      fun _ => inputOf_consistsOf rfl, nofun⟩
  | unpad =>
    exact ⟨_, _, some (), inputOf s, fun _ D => unpadBytes s.cfg.unpadPolicy D, rfl,
      noOperand_consistsOf fun _ => id, fun _ => inputOf_consistsOf rfl,
      fun _ _ _ he => ⟨.inr rfl, unpadBytes_error he⟩⟩
  | keysched ksel =>
    exact ⟨_, _, rawKeyOf s ksel, some (), fun K _ => .ok (subkeyBytes (keySchedule K)), rfl,
      rawKeyOf_consistsOf ksel, fun _ => noOperand_consistsOf (by simp [readsInByte, readsInput]), nofun⟩

namespace ChecksThenCompletes
variable {i : Instr} {s : State} {α β : Type} {key : Option α} {input : Option β}
  {result : α → β → Except EngineError (List Byte)} (h : ChecksThenCompletes i s key input result)
include h

theorem illegal (hwf : i.wf = false) : failsWith i s 4 :=
  failsWith_of_raise (h.exec_eq.trans (checkWellFormed_fail hwf))

section Legal
variable (hwf : i.wf = true)
include hwf

theorem keyLength (hi : usesKey i = true) (hlen : s.keyLen ≠ 24) : failsWith i s 1 :=
  failsWith_of_raise (by rw [h.exec_eq, checkWellFormed_pass hwf, checkKeyLength_fail hi hlen])

variable (hlen : usesKey i = true → s.keyLen = 24)
include hlen

theorem capacity (hi : readsInput i = true) (hcap : s.cfg.inCap < s.inLen.toNat) : failsWith i s 6 :=
  failsWith_of_raise (by
    rw [h.exec_eq, checkWellFormed_pass hwf, checkKeyLength_pass hlen, checkCapacity_fail hi hcap])

variable (hfit : readsInput i = true → s.inLen.toNat ≤ s.cfg.inCap)
include hfit

/-- Once the capacity check has passed, the input-length check is the first. -/
theorem exec_eq_of_fits : exec i s = (checkInputLength i s <|
    withOperand key s fun K => withOperand input s fun D => complete (result K D) s) := by
  rw [h.exec_eq, checkWellFormed_pass hwf, checkKeyLength_pass hlen, checkCapacity_pass hfit]

theorem ciphertextLength (hi : i = .decrypt) (hblocks : s.inLen.toNat = 0 ∨ s.inLen.toNat % 8 ≠ 0) :
    failsWith i s 2 := by
  subst hi
  exact failsWith_of_raise ((h.exec_eq_of_fits hwf hlen hfit).trans (requireWholeBlocks_fail hblocks))

theorem blockLength (hi : takesOneBlock i = true) (h8 : s.inLen ≠ 8) : failsWith i s 5 :=
  failsWith_of_raise (by
    rw [h.exec_eq_of_fits hwf hlen hfit, checkInputLength_oneBlock hi, requireOneBlock_fail h8])

theorem emptyInput (hi : i = .unpad) (h0 : s.inLen.toNat = 0) : failsWith i s 3 := by
  subst hi
  exact failsWith_of_raise ((h.exec_eq_of_fits hwf hlen hfit).trans (requireLastByte_fail h0))

variable (hdecrypt : i = .decrypt → s.inLen.toNat ≠ 0 ∧ s.inLen.toNat % 8 = 0)
  (hblock : takesOneBlock i = true → s.inLen = 8) (hunpad : i = .unpad → s.inLen.toNat ≠ 0)
include hdecrypt hblock hunpad

/-- Once every check has passed, the operand reads and the completion remain. -/
theorem exec_eq_of_checked : exec i s =
    withOperand key s fun K => withOperand input s fun D => complete (result K D) s := by
  rw [h.exec_eq_of_fits hwf hlen hfit, checkInputLength_pass hdecrypt hblock hunpad]

theorem unwritten (hread : (∃ a, readsKeyByte i a ∧ Memory.read s.key a = none) ∨
    (∃ a, readsInByte i s a ∧ Memory.read s.inBuf a = none)) : readsUnwritten i s :=
  readsUnwritten_of_modelFault <| (h.exec_eq_of_checked hwf hlen hfit hdecrypt hblock hunpad).trans <|
    withOperand_withOperand_none (hread.imp h.key_consistsOf.mpr (h.input_consistsOf hblock).mpr)

theorem written (hkey : ∀ a, readsKeyByte i a → Memory.read s.key a ≠ none)
    (hin : ∀ a, readsInByte i s a → Memory.read s.inBuf a ≠ none) :
    (∃ S, completesWith i s S) ∨ ((i = .decrypt ∨ i = .unpad) ∧ failsWith i s 3) := by
  obtain ⟨K, hK⟩ := Option.ne_none_iff_exists'.mp fun hn => by
    obtain ⟨a, ha, hread⟩ := h.key_consistsOf.mp hn
    exact hkey a ha hread
  obtain ⟨D, hD⟩ := Option.ne_none_iff_exists'.mp fun hn => by
    obtain ⟨a, ha, hread⟩ := (h.input_consistsOf hblock).mp hn
    exact hin a ha hread
  have hexec : exec i s = complete (result K D) s := by
    rw [h.exec_eq_of_checked hwf hlen hfit hdecrypt hblock hunpad, hK, withOperand_some, hD, withOperand_some]
  cases hr : result K D with
  | ok S => exact .inl ⟨S, completesWith_of_complete hexec hr⟩
  | error e =>
    obtain ⟨hi, rfl⟩ := h.error K D e hr
    exact .inr ⟨hi, failsWith_of_complete hexec hr⟩

end Legal
end ChecksThenCompletes

/-- Settles O15: each clause is one link of the chain that every command is. -/
theorem errorsAreDetectedInOrder : Obligations.ErrorsAreDetectedInOrder := by
  unfold Obligations.ErrorsAreDetectedInOrder
  refine ⟨fun s e => engineTurn_of_illegal, fun i s => ?_⟩
  obtain ⟨_, _, _, _, _, h⟩ := exec_checksThenCompletes i s
  exact ⟨h.illegal, fun hwf => ⟨h.keyLength hwf, fun hlen => ⟨h.capacity hwf hlen, fun hfit =>
    ⟨h.ciphertextLength hwf hlen hfit, h.blockLength hwf hlen hfit, h.emptyInput hwf hlen hfit,
      fun hdecrypt hblock hunpad => ⟨h.unwritten hwf hlen hfit hdecrypt hblock hunpad,
        h.written hwf hlen hfit hdecrypt hblock hunpad⟩⟩⟩⟩⟩

end Sys2Proof.Machine
end

section
/-! The ways a command ends, as states (60_exceptions.md rule R230). -/

namespace Sys2Proof.Machine

/-- The codes of R231. -/
theorem EngineError.code_range (e : EngineError) : 1 ≤ e.code ∧ e.code ≤ 6 := by cases e <;> decide

/-- Settles O14: the three endings of a command, each written out. -/
theorem everyCommandEndsInOneWay : Obligations.EveryCommandEndsInOneWay := by
  unfold Obligations.EveryCommandEndsInOneWay
  intro i s
  have hending := exec_commandEnding i s
  generalize hr : exec i s = r at hending
  cases hending with
  | output S => exact .inl ⟨S, rfl⟩
  | error e =>
    obtain ⟨hlo, hhi⟩ := e.code_range
    exact .inr (.inl ⟨e.code, hlo, hhi, failsWith_of_raise hr⟩)
  | unwritten => exact .inr (.inr (readsUnwritten_of_modelFault hr))

end Sys2Proof.Machine
end

section
/-! Reset and the fault mark in a step (60_exceptions.md rule R243, 70_reset_and_hazards.md rules R260 and R261). -/

namespace Sys2Proof.Machine
variable {s : State}

theorem step_of_reset_scheduled {rest : List Turn} (hs : s.schedule = .reset :: rest) :
    step s = .next (resetInput { s with schedule := rest }) := by
  unfold step
  rw [hs]

/-- Settles O7: a reset turn is the reset input, and power-on has the same values. -/
theorem resetSetsTheStatedValues : Obligations.ResetSetsTheStatedValues := by
  unfold Obligations.ResetSetsTheStatedValues
  refine ⟨fun s rest hs => ⟨_, step_of_reset_scheduled hs, ?_⟩, fun c => ?_⟩
  · exact ⟨rfl, rfl, rfl, rfl, rfl, Memory.read_nil, Memory.read_nil, Memory.read_nil, rfl, rfl⟩
  · exact ⟨rfl, rfl, rfl, rfl, rfl, Memory.read_nil, Memory.read_nil, Memory.read_nil, rfl, rfl⟩

/-- A marked state stops at every turn but a reset. -/
theorem step_of_marked {r : Fault} (hf : s.faultMark = some r) (hreset : s.schedule.head? ≠ some .reset) :
    step s = .fault r := by
  obtain ⟨rest, hs, -⟩ | ⟨rest, -, h⟩ | ⟨rest, -, h⟩ | ⟨-, -, h⟩ | ⟨-, -, h⟩ := step_cases s
  · exact absurd (by rw [hs, List.head?_cons]) hreset
  all_goals exact h.trans (agentTurn_marked (by exact hf) _)

/-- Settles O11: only a reset has a step from a marked state, and it leaves the mark. -/
theorem faultMarkIsForGood : Obligations.FaultMarkIsForGood := by
  unfold Obligations.FaultMarkIsForGood
  refine ⟨fun s r => step_of_marked, fun s t r hf h => ?_⟩
  by_cases hreset : s.schedule.head? = some .reset
  · obtain ⟨rest, hs⟩ := List.head?_eq_some_iff.mp hreset
    cases (step_of_reset_scheduled hs).symm.trans h
    exact hf
  · cases (step_of_marked hf hreset).symm.trans h

end Sys2Proof.Machine
end

section
/-! The CMD write after an engine error (60_exceptions.md rules R241 and R242). -/

namespace Sys2Proof.Machine

/-- The fields of an engine error's STATUS (R24, R241). -/
theorem fields_statusError (e : EngineError) :
    stateField (statusError e) = 3 ∧ errField (statusError e) = e.code := by cases e <;> decide

/-- Settles O51: STATE = ERROR is not BUSY, so the CMD write is admitted, and it sets every field the error set. -/
theorem errorsAreNotSticky : Obligations.ErrorsAreNotSticky := by
  unfold Obligations.ErrorsAreNotSticky
  intro e s w
  obtain ⟨hstate, herr⟩ := fields_statusError e
  have hb : isBusy (afterError e s) = false := isBusy_eq_false (by simp [hstate])
  exact ⟨rfl, hstate, herr, hostWrite_cmd w hb rfl⟩

end Sys2Proof.Machine
end

section
/-! Host accesses while STATE = BUSY (70_reset_and_hazards.md rule R263). -/

namespace Sys2Proof.Machine
variable {s : State}

/-- STATUS has one address. -/
theorem eq_four_of_targetOf_status {c : Config} {a : Nat} (h : targetOf c a = .status) : a = 0x00004 :=
  eq_of_targetOf_eq (c := c) (b := 0x00004) (h.trans rfl) (by simp [h]) (by simp [h])

theorem hostRead_busy (hb : isBusy s = true) {width : Width} {a : Nat} (h : ¬(width = .w32 ∧ a = 0x00004)) :
    hostRead s width a = .error .busyAccess := by
  have hmay : hostMayRead s width a = false := by
    have ht : width = .w32 → targetOf s.cfg a ≠ .status := fun hw ht => h ⟨hw, eq_four_of_targetOf_status ht⟩
    simpa [hostMayRead, hb] using ht
  simp [hostRead, hmay]

theorem hostLine_write_fault {width : Width} {a : Nat} {v : HostValue} {r : Fault}
    (h : hostWrite s width a (valueOf s.host v) = .error r) : hostLine (.write width a v) s = modelFault r s := by
  simp [hostLine, h]

theorem hostLine_read_fault {width : Width} {temp a : Nat} {r : Fault} (h : hostRead s width a = .error r) :
    hostLine (.read width temp a) s = modelFault r s := by simp [hostLine, h]

theorem hostLine_readBytes_fault {count temp a : Nat} {r : Fault}
    (hi : s.host.index < (temporaryOf s.host count).toNat) (h : hostRead s .w8 (a + s.host.index) = .error r) :
    hostLine (.readBytes count temp a) s = modelFault r s := by simp [hostLine, hi, h]

/-- Settles O47: STATUS is read, every other access is BusyAccess, and a line with such an access marks the state. -/
theorem busyAllowsOnlyStatusReads : Obligations.BusyAllowsOnlyStatusReads := by
  unfold Obligations.BusyAllowsOnlyStatusReads
  intro s hs
  have hb := isBusy_eq_true hs
  refine ⟨hostRead_statusRegister s, fun width a => hostRead_busy hb, fun width a v => hostWrite_busy v hb width a,
    fun width a v => ?_, fun width temp a h => ?_, fun count temp a hi => ?_⟩
  · exact ⟨_, hostLine_write_fault (hostWrite_busy _ hb width a), rfl⟩
  · exact ⟨_, hostLine_read_fault (hostRead_busy hb h), rfl⟩
  · exact ⟨_, hostLine_readBytes_fault hi (hostRead_busy hb (by simp)), rfl⟩

end Sys2Proof.Machine
end

section
/-! The OUT bytes a host can read (70_reset_and_hazards.md rule R264). -/

namespace Sys2Proof.Machine
variable {s : State} {i : Nat}

/-- A successful command leaves STATE = DONE (R23, R240). -/
theorem stateField_statusDone : stateField statusDone = 2 := by decide

/-- A written OUT byte lies below OUT_LEN, in a state with STATE = DONE. -/
theorem State.Inv.done_of_read (h : s.Inv) (hread : Memory.read s.outBuf i ≠ none) :
    stateField s.status = 2 ∧ i < s.outLen.toNat := by
  have hi : i < s.outLen.toNat := (h.outWritten i).mp (Option.isSome_iff_ne_none.mpr hread)
  have hdone : s.status = statusDone := by
    by_contra hne
    simp [h.outputOnlyWhenDone hne] at hi
  exact ⟨hdone ▸ stateField_statusDone, hi⟩

theorem State.Inv.read_outBuf_eq_none (h : s.Inv) (hi : ¬(stateField s.status = 2 ∧ i < s.outLen.toNat)) :
    Memory.read s.outBuf i = none := by
  by_contra hread
  exact hi (h.done_of_read hread)

/-- A host read of an OUT byte that answers a value finds the byte written. -/
theorem read_outBuf_of_hostRead {v : Word} (hi : i < s.cfg.outCap) (h : hostRead s .w8 (0x20000 + i) = .ok v) :
    Memory.read s.outBuf i ≠ none := by
  intro hread
  cases hb : isBusy s with
  | true => cases (hostRead_busy hb (by simp)).symm.trans h
  | false => cases ((hostRead_outByte hb (targetOf_out hi)).trans (readByte_of_unwritten hread)).symm.trans h

/-- Settles O49: the invariant's account of OUT, read at the OUT bytes' addresses. -/
theorem outputReadableOnlyWhenDone : Obligations.OutputReadableOnlyWhenDone := by
  unfold Obligations.OutputReadableOnlyWhenDone
  refine ⟨fun s i v h hi hread => ?_, fun s i h hdone hi => ?_, fun s i h hbusy hi hcap => ?_,
    fun s i => State.Inv.read_outBuf_eq_none, fun s t w hw a => ?_⟩
  · exact h.done_of_read (read_outBuf_of_hostRead hi hread)
  · have hb : isBusy s = false := isBusy_eq_false (by simp [hdone])
    obtain ⟨b, hread⟩ := Option.isSome_iff_exists.mp ((h.outWritten i).mpr hi)
    exact ⟨_, (hostRead_outByte hb (targetOf_out (hi.trans_le h.outFits))).trans (readByte_of_read hread)⟩
  · have hread : Memory.read s.outBuf i = none := h.read_outBuf_eq_none fun ⟨_, hlt⟩ => absurd hi hlt.not_ge
    exact (hostRead_outByte (isBusy_eq_false hbusy) (targetOf_out hcap)).trans (readByte_of_unwritten hread)
  · obtain ⟨hb, -⟩ := hostWrite_ok hw
    cases (hostWrite_cmd w hb rfl).symm.trans hw
    exact Memory.read_nil a

end Sys2Proof.Machine
end

section
/-! A pending command ends (70_reset_and_hazards.md rules R267 and R268; log entry 3): the engine's turn ends it, a
reset abandons it, and the host has only the turns the schedule names. -/

namespace Sys2Proof.Machine

/-- No command is pending, or a model fault has marked the state. -/
def EndedOrFaulted (s : State) : Prop := s.pending = false ∨ s.faultMark ≠ none

theorem CommandEnding.endedOrFaulted {s t : State} {r : StepResult} (hr : CommandEnding s r) (h : r = .next t) :
    EndedOrFaulted t := by
  cases hr with
  | output S => obtain rfl := succeed_next.mp h; exact .inl rfl
  | error e => obtain rfl := raise_next.mp h; exact .inl rfl
  | unwritten => obtain rfl := modelFault_next.mp h; exact .inr nofun

theorem engineTurn_endedOrFaulted {s t : State} (h : engineTurn s = .next t) : EndedOrFaulted t := by
  obtain ⟨hp, hs⟩ | ⟨-, i, -, hi⟩ | ⟨-, e, -, he⟩ := engineTurn_cases s
  · cases hs.symm.trans h; exact .inl hp
  · exact (exec_commandEnding i s).endedOrFaulted (hi.symm.trans h)
  · exact (CommandEnding.error _).endedOrFaulted (he.symm.trans h)

theorem hostTurn_exists_next (s : State) : ∃ t, hostTurn s = .next t := by
  obtain h | ⟨r, h⟩ | ⟨line, h⟩ | ⟨_, _, _, _, -, h | h⟩ | ⟨_, _, _, _, -, -, h⟩ := hostTurn_cases s <;>
    exact ⟨_, h⟩

/-- A run of one step. -/
theorem run_one_of_step_next {s t : State} (h : step s = .next t) : core.run 1 s = .next t := run_of_step_next h 0

/-- By the schedule: a turn of the host is the only one after which the command can still be pending. -/
theorem exists_run_endedOrFaulted (schedule : List Turn) : ∀ s : State, s.running → s.pending = true →
    s.schedule = schedule → ∃ k t, k ≤ schedule.length ∧ core.run (k + 1) s = .next t ∧ EndedOrFaulted t := by
  induction schedule with
  | nil =>
    intro s hr hp hs
    obtain ⟨t, ht⟩ := engineTurn_exists_next s
    exact ⟨0, t, le_rfl, run_one_of_step_next ((step_of_engine_default hr hs hp).trans ht),
      engineTurn_endedOrFaulted ht⟩
  | cons turn rest ih =>
    intro s hr hp hs
    cases turn with
    | reset => exact ⟨0, _, Nat.zero_le _, run_one_of_step_next (step_of_reset_scheduled hs), .inl rfl⟩
    | engine =>
      obtain ⟨t, ht⟩ := engineTurn_exists_next { s with schedule := rest }
      exact ⟨0, t, Nat.zero_le _, run_one_of_step_next ((step_of_engine_scheduled hr hs).trans ht),
        engineTurn_endedOrFaulted ht⟩
    | host =>
      obtain ⟨t, ht⟩ := hostTurn_exists_next { s with schedule := rest }
      have hstep : step s = .next t := (step_of_host_scheduled hr hs).trans ht
      by_cases hended : EndedOrFaulted t
      · exact ⟨0, t, Nat.zero_le _, run_one_of_step_next hstep, hended⟩
      · obtain ⟨hpending, hmark⟩ := not_or.mp hended
        obtain ⟨k, u, hk, hrun, hu⟩ := ih t (not_not.mp hmark) (Bool.not_eq_false _ ▸ hpending)
          (hostTurn_sameSetup ht).schedule
        exact ⟨k + 1, u, Nat.succ_le_succ hk, (run_of_step_next hstep (k + 1)).trans hrun, hu⟩

/-- Settles O53: the run that the schedule bounds, counted in steps. -/
theorem pendingCommandEndsOrFaults : Obligations.PendingCommandEndsOrFaults := by
  unfold Obligations.PendingCommandEndsOrFaults
  intro s hr hp
  obtain ⟨k, t, hk, hrun, ht⟩ := exists_run_endedOrFaulted s.schedule s hr hp rfl
  exact ⟨k + 1, t, Nat.le_add_left 1 k, Nat.succ_le_succ hk, hrun, ht⟩

end Sys2Proof.Machine
end
